-- ==== Sys2Proof/Word.lean ====
section
/-! DEFINITION. The two machine word types of the CBC-MAC engine and the byte strings its rules speak of
(spec/00_scope.md rules R5 and R6). Everything a rule computes with them stands in Machine/. -/

namespace Sys2Proof

/-- One byte of a buffer, a key or a block (rule R6). -/
abbrev Byte := BitVec 8

/-- A 32-bit register value or command word: bit 31 is the most significant (rule R5). -/
abbrev Word := BitVec 32

/-- A byte string, byte 0 first (rule R6). -/
abbrev Bytes := List Byte

end Sys2Proof
end

