-- ==== Sys2Proof/Syntax.lean ====
section
/-! DEFINITION. The fourteen commands of the engine (spec/30_encoding.md rules R51 to R58), one constructor for each row of
spec/opcode_table.json. The padding scheme is part of the mnemonic (rule R55). A MACLEN or BLKSZ operand is the FIELD's
value, 0 asking for the default (rules R56 and R57); its range is checked in WellFormed.lean. -/

namespace Sys2Proof

/-- ALG: the algorithm tag, 0 the DES family, 1 AES (rule R53). -/
inductive Alg where
  | des
  | aes
deriving DecidableEq, Repr

/-- KLEN or KLEN2: the key length code 0, 1, 2, 3, named by the bytes it stands for (rule R54). -/
inductive KLen where
  | k8
  | k16
  | k24
  | k32
deriving DecidableEq, Repr

/-- PAD: the padding scheme 1, 2 or 3 (rule R55). -/
inductive PadScheme where
  | iso1
  | iso2
  | iso3
deriving DecidableEq, Repr

/-- A command (rule R58). -/
inductive Instr where
  | ecbenc (alg : Alg) (klen : KLen)
  | ecbdec (alg : Alg) (klen : KLen)
  | cbcenc (alg : Alg) (klen : KLen)
  | cbcdec (alg : Alg) (klen : KLen)
  | pad1 (alg : Alg) (blksz : Nat)
  | pad2 (alg : Alg) (blksz : Nat)
  | pad3 (alg : Alg) (blksz : Nat)
  | cbcmac1 (alg : Alg) (klen : KLen) (maclen : Nat)
  | cbcmac2 (alg : Alg) (klen : KLen) (maclen : Nat)
  | cbcmac3 (alg : Alg) (klen : KLen) (maclen : Nat)
  | rmac1 (klen klen2 : KLen) (maclen : Nat)
  | rmac2 (klen klen2 : KLen) (maclen : Nat)
  | rmac3 (klen klen2 : KLen) (maclen : Nat)
  | cmacsk (alg : Alg) (klen : KLen)
deriving DecidableEq, Repr

end Sys2Proof
end

