-- ==== Sys2Proof/WellFormed.lean ====
section
/-! DEFINITION. Which commands the command word can carry: the operand ranges of spec/30_encoding.md rule R61
(`maclen=<0..255>`, `blksz=<0..255>`), the widths of the MACLEN and BLKSZ fields (rule R51). ALG, KLEN and KLEN2 are
closed types and need no check. Whether a key length or a MAC length is legal for the cipher is no matter of form: such a
command is encoded, decoded and then refused by the machine (rule R54). -/

namespace Sys2Proof

/-- A value the 8-bit MACLEN or BLKSZ field holds (rule R51). -/
def fitsField (v : Nat) : Bool := decide (v ≤ 255)

/-- The operands of the command are within the ranges of rule R61. -/
def Instr.wellFormed : Instr → Bool
  | .ecbenc _ _ => true
  | .ecbdec _ _ => true
  | .cbcenc _ _ => true
  | .cbcdec _ _ => true
  | .pad1 _ blksz => fitsField blksz
  | .pad2 _ blksz => fitsField blksz
  | .pad3 _ blksz => fitsField blksz
  | .cbcmac1 _ _ maclen => fitsField maclen
  | .cbcmac2 _ _ maclen => fitsField maclen
  | .cbcmac3 _ _ maclen => fitsField maclen
  | .rmac1 _ _ maclen => fitsField maclen
  | .rmac2 _ _ maclen => fitsField maclen
  | .rmac3 _ _ maclen => fitsField maclen
  | .cmacsk _ _ => true

end Sys2Proof
end

