-- ==== Sys2Proof/Decode.lean ====
section
/-! DEFINITION. The decoding of a command word (spec/30_encoding.md rules R51 to R60 and R65), total on every word and
rejecting by name, and after it the encoder of rule R61. -/

namespace Sys2Proof

/-- Why a word is an illegal command: the cases of rule R59. The machine reports every one as ERR_ILLEGAL; the name is the
model's own and no access shows it (notes/assumptions/9.md). -/
inductive IllegalWord where
  /-- (a): OP is 0x00 or in 0x09 to 0xFF. -/
  | reservedOpcode
  /-- (b): bit 9 is 1. -/
  | reservedBit9
  /-- (c): OP in 0x05 to 0x07 with PAD = 0. -/
  | missingPadScheme
  /-- (d) to (g): a field that is no operand of the operation is not 0. -/
  | nonOperandField
deriving DecidableEq, Repr

/-- OP, bits 7:0 (rule R51). -/
def opField (w : Word) : BitVec 8 := w.extractLsb' 0 8

/-- ALG, bit 8 (rules R51 and R53). -/
def algField (w : Word) : Alg := if w.getLsbD 8 then .aes else .des

/-- Bit 9, reserved (rule R51). -/
def bit9 (w : Word) : Bool := w.getLsbD 9

/-- PAD, bits 11:10 (rule R51). -/
def padField (w : Word) : BitVec 2 := w.extractLsb' 10 2

/-- The key length a two-bit code stands for (rule R54). -/
def klenOfCode (c : BitVec 2) : KLen :=
  match c.toNat with
  | 0 => .k8
  | 1 => .k16
  | 2 => .k24
  | _ => .k32

/-- KLEN, bits 13:12 (rules R51 and R54). -/
def klenField (w : Word) : KLen := klenOfCode (w.extractLsb' 12 2)

/-- KLEN2, bits 15:14 (rules R51 and R54). -/
def klen2Field (w : Word) : KLen := klenOfCode (w.extractLsb' 14 2)

/-- MACLEN, bits 23:16 (rule R51). -/
def maclenField (w : Word) : Nat := (w.extractLsb' 16 8).toNat

/-- BLKSZ, bits 31:24 (rule R51). -/
def blkszField (w : Word) : Nat := (w.extractLsb' 24 8).toNat

/-- A row of the opcode map: a word w is the row's command exactly when `w AND mask = pattern`, and its operands are then
read from the word (rule R58). -/
structure OpcodeRow where
  pattern : Word
  mask : Word
  build : Word → Instr

/-- The opcode map (rule R58), in the table's order. -/
def opcodeMap : List OpcodeRow :=
  [ ⟨0x00000001, 0xFFFFCEFF, fun w => .ecbenc (algField w) (klenField w)⟩,
    ⟨0x00000002, 0xFFFFCEFF, fun w => .ecbdec (algField w) (klenField w)⟩,
    ⟨0x00000003, 0xFFFFCEFF, fun w => .cbcenc (algField w) (klenField w)⟩,
    ⟨0x00000004, 0xFFFFCEFF, fun w => .cbcdec (algField w) (klenField w)⟩,
    ⟨0x00000405, 0x00FFFEFF, fun w => .pad1 (algField w) (blkszField w)⟩,
    ⟨0x00000805, 0x00FFFEFF, fun w => .pad2 (algField w) (blkszField w)⟩,
    ⟨0x00000C05, 0x00FFFEFF, fun w => .pad3 (algField w) (blkszField w)⟩,
    ⟨0x00000406, 0xFF00CEFF, fun w => .cbcmac1 (algField w) (klenField w) (maclenField w)⟩,
    ⟨0x00000806, 0xFF00CEFF, fun w => .cbcmac2 (algField w) (klenField w) (maclenField w)⟩,
    ⟨0x00000C06, 0xFF00CEFF, fun w => .cbcmac3 (algField w) (klenField w) (maclenField w)⟩,
    ⟨0x00000407, 0xFF000FFF, fun w => .rmac1 (klenField w) (klen2Field w) (maclenField w)⟩,
    ⟨0x00000807, 0xFF000FFF, fun w => .rmac2 (klenField w) (klen2Field w) (maclenField w)⟩,
    ⟨0x00000C07, 0xFF000FFF, fun w => .rmac3 (klenField w) (klen2Field w) (maclenField w)⟩,
    ⟨0x00000008, 0xFFFFCEFF, fun w => .cmacsk (algField w) (klenField w)⟩ ]

/-- The word is the command of the row (rule R58). -/
def OpcodeRow.fits (r : OpcodeRow) (w : Word) : Bool := w &&& r.mask == r.pattern

/-- The case of rule R59 that makes a word illegal, the first that applies in the rule's order. Only asked of words that
fit no row. -/
def illegalReason (w : Word) : IllegalWord :=
  if opField w = 0 ∨ 9 ≤ (opField w).toNat then .reservedOpcode
  else if bit9 w then .reservedBit9
  else if 5 ≤ (opField w).toNat ∧ (opField w).toNat ≤ 7 ∧ padField w = 0 then .missingPadScheme
  else .nonOperandField

/-- Decoding (rule R65): the row the word fits, with its operands, or the reason why it fits none. -/
def decode (w : Word) : Except IllegalWord Instr :=
  match opcodeMap.find? (fun r => r.fits w) with
  | some r => .ok (r.build w)
  | none => .error (illegalReason w)

/-- The ALG bit (rule R53). -/
def Alg.code : Alg → Nat
  | .des => 0
  | .aes => 1

/-- The key length code (rule R54). -/
def KLen.code : KLen → Nat
  | .k8 => 0
  | .k16 => 1
  | .k24 => 2
  | .k32 => 3

/-- The word assembled from a row's pattern and the operand fields, as the sum of rule R61. -/
def assemble (pattern alg klen klen2 maclen blksz : Nat) : Word :=
  BitVec.ofNat 32 (pattern + alg * 0x100 + klen * 0x1000 + klen2 * 0x4000 + maclen * 0x10000 + blksz * 0x1000000)

/-- The word of a command (rules R58 and R61); meant for well-formed commands. -/
def encode : Instr → Word
  | .ecbenc alg klen => assemble 0x00000001 alg.code klen.code 0 0 0
  | .ecbdec alg klen => assemble 0x00000002 alg.code klen.code 0 0 0
  | .cbcenc alg klen => assemble 0x00000003 alg.code klen.code 0 0 0
  | .cbcdec alg klen => assemble 0x00000004 alg.code klen.code 0 0 0
  | .pad1 alg blksz => assemble 0x00000405 alg.code 0 0 0 blksz
  | .pad2 alg blksz => assemble 0x00000805 alg.code 0 0 0 blksz
  | .pad3 alg blksz => assemble 0x00000C05 alg.code 0 0 0 blksz
  | .cbcmac1 alg klen maclen => assemble 0x00000406 alg.code klen.code 0 maclen 0
  | .cbcmac2 alg klen maclen => assemble 0x00000806 alg.code klen.code 0 maclen 0
  | .cbcmac3 alg klen maclen => assemble 0x00000C06 alg.code klen.code 0 maclen 0
  | .rmac1 klen klen2 maclen => assemble 0x00000407 0 klen.code klen2.code maclen 0
  | .rmac2 klen klen2 maclen => assemble 0x00000807 0 klen.code klen2.code maclen 0
  | .rmac3 klen klen2 maclen => assemble 0x00000C07 0 klen.code klen2.code maclen 0
  | .cmacsk alg klen => assemble 0x00000008 alg.code klen.code 0 0 0

/-- The instruction the decoder reads from the low `nbits` bits of w, bit 0 the least significant (spec/opcode_table.json);
none where the word is illegal. A command is one 32-bit word (rule R50), written to CMD as one number, so no byte order
enters (spec/20_memory.md rule R37). -/
def decodeTableWord (nbits w : Nat) : Option Instr :=
  (decode (BitVec.ofNat 32 (w % 2 ^ nbits))).toOption

end Sys2Proof
end

