-- ==== Sys2Proof/Machine/Bytes.lean ====
section
/-! DEFINITION. Byte strings and blocks as the rules read them: big-endian numbers, exclusive-or, slices, the split into
blocks, and the one-bit left shift of a block (spec/00_scope.md rules R6 and R7, spec/40_block_cipher_primitives.md
rule R76). -/

namespace Sys2Proof.Machine

/-- `zeros(n)`: n bytes of 0x00 (rule R6). -/
def zeros (n : Nat) : Bytes := List.replicate n 0

/-- `be(v, n)`: the n-byte big-endian encoding of v, the most significant byte first (rule R6). The rules apply it only
where v < 2^(8n). -/
def be (v : Nat) : Nat → Bytes
  | 0 => []
  | n + 1 => BitVec.ofNat 8 (v / 256 ^ n) :: be v n

/-- `int(s)`: the number whose big-endian encoding is s (rule R6). -/
def int (s : Bytes) : Nat := s.foldl (fun v b => v * 256 + b.toNat) 0

/-- `xor(s, t)`: the byte-wise exclusive-or of two strings of one length (rule R6). -/
def xorBytes (s t : Bytes) : Bytes := List.zipWith (fun a b => a ^^^ b) s t

/-- `first(s, n)` (rule R6). -/
def firstBytes (s : Bytes) (n : Nat) : Bytes := s.take n

/-- `last(s, n)` (rule R6). -/
def lastBytes (s : Bytes) (n : Nat) : Bytes := s.drop (s.length - n)

/-- The split of s into its `len(s) / n` whole blocks of n bytes, the first block first (rule R80). -/
def blocks (n : Nat) (s : Bytes) : List Bytes :=
  (List.range (s.length / n)).map fun i => (s.drop (i * n)).take n

/-- `msb(b)`: bit 1 of the block, the top bit of byte 0 (rule R7). -/
def topBit (b : Bytes) : Bool := (b.headD 0).msb

/-- `shl1(b)`: the block as one big-endian number shifted left by one bit, the top bit lost and a 0 entering at the
bottom (rule R7). -/
def shl1 (b : Bytes) : Bytes := be ((int b * 2) % 2 ^ (8 * b.length)) b.length

end Sys2Proof.Machine
end

