-- ==== Sys2Proof/Machine/Aes.lean ====
section
/-! DEFINITION. The Advanced Encryption Standard as spec/46_aes_reference.md gives it (rules R140 to R152; the spec marks
that whole file as general knowledge, see notes/assumptions/6.md). The state is kept as the 16 bytes of its block:
`s[r][c]` is byte r + 4c (rule R140), so the four bytes of a column stand together. -/

namespace Sys2Proof.Machine

/-- Multiplication by x in GF(2^8) modulo 0x11B (rule R141). -/
def xtime (a : Byte) : Byte := if a.msb then (a <<< 1) ^^^ 0x1B else a <<< 1

/-- `xtime` applied k times (rule R141). -/
def xtimeIter : Nat → Byte → Byte
  | 0, a => a
  | k + 1, a => xtime (xtimeIter k a)

/-- The product of the constant c and the byte a: the exclusive-or of `xtime` applied k times to a, over the bit
positions k set in c (rule R141). -/
def gfMul (c : Nat) (a : Byte) : Byte :=
  ((List.range 8).filter c.testBit).foldl (fun acc k => acc ^^^ xtimeIter k a) 0

/-- The S-box, row = high hex digit, column = low hex digit (rule R142). -/
def aesSBox : List (List Nat) :=
  [[0x63, 0x7C, 0x77, 0x7B, 0xF2, 0x6B, 0x6F, 0xC5, 0x30, 0x01, 0x67, 0x2B, 0xFE, 0xD7, 0xAB, 0x76],
   [0xCA, 0x82, 0xC9, 0x7D, 0xFA, 0x59, 0x47, 0xF0, 0xAD, 0xD4, 0xA2, 0xAF, 0x9C, 0xA4, 0x72, 0xC0],
   [0xB7, 0xFD, 0x93, 0x26, 0x36, 0x3F, 0xF7, 0xCC, 0x34, 0xA5, 0xE5, 0xF1, 0x71, 0xD8, 0x31, 0x15],
   [0x04, 0xC7, 0x23, 0xC3, 0x18, 0x96, 0x05, 0x9A, 0x07, 0x12, 0x80, 0xE2, 0xEB, 0x27, 0xB2, 0x75],
   [0x09, 0x83, 0x2C, 0x1A, 0x1B, 0x6E, 0x5A, 0xA0, 0x52, 0x3B, 0xD6, 0xB3, 0x29, 0xE3, 0x2F, 0x84],
   [0x53, 0xD1, 0x00, 0xED, 0x20, 0xFC, 0xB1, 0x5B, 0x6A, 0xCB, 0xBE, 0x39, 0x4A, 0x4C, 0x58, 0xCF],
   [0xD0, 0xEF, 0xAA, 0xFB, 0x43, 0x4D, 0x33, 0x85, 0x45, 0xF9, 0x02, 0x7F, 0x50, 0x3C, 0x9F, 0xA8],
   [0x51, 0xA3, 0x40, 0x8F, 0x92, 0x9D, 0x38, 0xF5, 0xBC, 0xB6, 0xDA, 0x21, 0x10, 0xFF, 0xF3, 0xD2],
   [0xCD, 0x0C, 0x13, 0xEC, 0x5F, 0x97, 0x44, 0x17, 0xC4, 0xA7, 0x7E, 0x3D, 0x64, 0x5D, 0x19, 0x73],
   [0x60, 0x81, 0x4F, 0xDC, 0x22, 0x2A, 0x90, 0x88, 0x46, 0xEE, 0xB8, 0x14, 0xDE, 0x5E, 0x0B, 0xDB],
   [0xE0, 0x32, 0x3A, 0x0A, 0x49, 0x06, 0x24, 0x5C, 0xC2, 0xD3, 0xAC, 0x62, 0x91, 0x95, 0xE4, 0x79],
   [0xE7, 0xC8, 0x37, 0x6D, 0x8D, 0xD5, 0x4E, 0xA9, 0x6C, 0x56, 0xF4, 0xEA, 0x65, 0x7A, 0xAE, 0x08],
   [0xBA, 0x78, 0x25, 0x2E, 0x1C, 0xA6, 0xB4, 0xC6, 0xE8, 0xDD, 0x74, 0x1F, 0x4B, 0xBD, 0x8B, 0x8A],
   [0x70, 0x3E, 0xB5, 0x66, 0x48, 0x03, 0xF6, 0x0E, 0x61, 0x35, 0x57, 0xB9, 0x86, 0xC1, 0x1D, 0x9E],
   [0xE1, 0xF8, 0x98, 0x11, 0x69, 0xD9, 0x8E, 0x94, 0x9B, 0x1E, 0x87, 0xE9, 0xCE, 0x55, 0x28, 0xDF],
   [0x8C, 0xA1, 0x89, 0x0D, 0xBF, 0xE6, 0x42, 0x68, 0x41, 0x99, 0x2D, 0x0F, 0xB0, 0x54, 0xBB, 0x16]]

/-- The inverse S-box (rule R143). -/
def aesInvSBox : List (List Nat) :=
  [[0x52, 0x09, 0x6A, 0xD5, 0x30, 0x36, 0xA5, 0x38, 0xBF, 0x40, 0xA3, 0x9E, 0x81, 0xF3, 0xD7, 0xFB],
   [0x7C, 0xE3, 0x39, 0x82, 0x9B, 0x2F, 0xFF, 0x87, 0x34, 0x8E, 0x43, 0x44, 0xC4, 0xDE, 0xE9, 0xCB],
   [0x54, 0x7B, 0x94, 0x32, 0xA6, 0xC2, 0x23, 0x3D, 0xEE, 0x4C, 0x95, 0x0B, 0x42, 0xFA, 0xC3, 0x4E],
   [0x08, 0x2E, 0xA1, 0x66, 0x28, 0xD9, 0x24, 0xB2, 0x76, 0x5B, 0xA2, 0x49, 0x6D, 0x8B, 0xD1, 0x25],
   [0x72, 0xF8, 0xF6, 0x64, 0x86, 0x68, 0x98, 0x16, 0xD4, 0xA4, 0x5C, 0xCC, 0x5D, 0x65, 0xB6, 0x92],
   [0x6C, 0x70, 0x48, 0x50, 0xFD, 0xED, 0xB9, 0xDA, 0x5E, 0x15, 0x46, 0x57, 0xA7, 0x8D, 0x9D, 0x84],
   [0x90, 0xD8, 0xAB, 0x00, 0x8C, 0xBC, 0xD3, 0x0A, 0xF7, 0xE4, 0x58, 0x05, 0xB8, 0xB3, 0x45, 0x06],
   [0xD0, 0x2C, 0x1E, 0x8F, 0xCA, 0x3F, 0x0F, 0x02, 0xC1, 0xAF, 0xBD, 0x03, 0x01, 0x13, 0x8A, 0x6B],
   [0x3A, 0x91, 0x11, 0x41, 0x4F, 0x67, 0xDC, 0xEA, 0x97, 0xF2, 0xCF, 0xCE, 0xF0, 0xB4, 0xE6, 0x73],
   [0x96, 0xAC, 0x74, 0x22, 0xE7, 0xAD, 0x35, 0x85, 0xE2, 0xF9, 0x37, 0xE8, 0x1C, 0x75, 0xDF, 0x6E],
   [0x47, 0xF1, 0x1A, 0x71, 0x1D, 0x29, 0xC5, 0x89, 0x6F, 0xB7, 0x62, 0x0E, 0xAA, 0x18, 0xBE, 0x1B],
   [0xFC, 0x56, 0x3E, 0x4B, 0xC6, 0xD2, 0x79, 0x20, 0x9A, 0xDB, 0xC0, 0xFE, 0x78, 0xCD, 0x5A, 0xF4],
   [0x1F, 0xDD, 0xA8, 0x33, 0x88, 0x07, 0xC7, 0x31, 0xB1, 0x12, 0x10, 0x59, 0x27, 0x80, 0xEC, 0x5F],
   [0x60, 0x51, 0x7F, 0xA9, 0x19, 0xB5, 0x4A, 0x0D, 0x2D, 0xE5, 0x7A, 0x9F, 0x93, 0xC9, 0x9C, 0xEF],
   [0xA0, 0xE0, 0x3B, 0x4D, 0xAE, 0x2A, 0xF5, 0xB0, 0xC8, 0xEB, 0xBB, 0x3C, 0x83, 0x53, 0x99, 0x61],
   [0x17, 0x2B, 0x04, 0x7E, 0xBA, 0x77, 0xD6, 0x26, 0xE1, 0x69, 0x14, 0x63, 0x55, 0x21, 0x0C, 0x7D]]

/-- One byte looked up in a 16-by-16 table by its two hex digits (rule R142). -/
def lookupByte (table : List (List Nat)) (a : Byte) : Byte :=
  BitVec.ofNat 8 ((table.getD (a.toNat / 16) []).getD (a.toNat % 16) 0)

/-- SBOX[a] (rule R142). -/
def subByte (a : Byte) : Byte := lookupByte aesSBox a

/-- INVSBOX[a] (rule R143). -/
def invSubByte (a : Byte) : Byte := lookupByte aesInvSBox a

/-- RotWord: (a0, a1, a2, a3) becomes (a1, a2, a3, a0) (rule R144). -/
def rotWord (t : Bytes) : Bytes := t.drop 1 ++ t.take 1

/-- Rcon[j] = x^(j-1) (rule R145). -/
def rcon (j : Nat) : Byte := xtimeIter (j - 1) 1

/-- The word w[i] that follows the i words `ws`, LATEST FIRST, so that w[i-1] is entry 0 and w[i-Nk] is entry Nk-1
(rule R144). -/
def nextKeyWord (nk : Nat) (ws : List Bytes) : Bytes :=
  let i := ws.length
  let t := ws.getD 0 []
  let t' :=
    if i % nk = 0 then xorBytes ((rotWord t).map subByte) [rcon (i / nk), 0, 0, 0]
    else if nk = 8 ∧ i % 8 = 4 then t.map subByte
    else t
  xorBytes (ws.getD (nk - 1) []) t'

/-- The key words extended by `count` more, latest first (rule R144). -/
def extendKeyWords (nk : Nat) : Nat → List Bytes → List Bytes
  | 0, ws => ws
  | count + 1, ws => extendKeyWords nk count (nextKeyWord nk ws :: ws)

/-- The number of rounds Nr = Nk + 6 of a key of len(K) = 4 Nk bytes (rule R140). -/
def aesRounds (key : Bytes) : Nat := key.length / 4 + 6

/-- The round keys 0 to Nr, 16 bytes each (rule R144). -/
def aesRoundKeys (key : Bytes) : List Bytes :=
  let nk := key.length / 4
  let total := 4 * (aesRounds key + 1)
  blocks 16 (extendKeyWords nk (total - nk) (blocks 4 key).reverse).reverse.flatten

/-- SubBytes (rule R147). -/
def subBytes (s : Bytes) : Bytes := s.map subByte

/-- InvSubBytes (rule R147). -/
def invSubBytes (s : Bytes) : Bytes := s.map invSubByte

/-- ShiftRows: `s'[r][c] = s[r][(c + r) mod 4]` (rule R148). -/
def shiftRows (s : Bytes) : Bytes :=
  (List.range 16).map fun j => s.getD (j % 4 + 4 * ((j / 4 + j % 4) % 4)) 0

/-- InvShiftRows: `s'[r][c] = s[r][(c - r) mod 4]`, the difference taken as c + 4 - r (rule R148). -/
def invShiftRows (s : Bytes) : Bytes :=
  (List.range 16).map fun j => s.getD (j % 4 + 4 * ((j / 4 + 4 - j % 4) % 4)) 0

/-- The rows of MixColumns (rule R149). -/
def mixMatrix : List (List Nat) := [[2, 3, 1, 1], [1, 2, 3, 1], [1, 1, 2, 3], [3, 1, 1, 2]]

/-- The rows of InvMixColumns (rule R149). -/
def invMixMatrix : List (List Nat) :=
  [[0x0E, 0x0B, 0x0D, 0x09], [0x09, 0x0E, 0x0B, 0x0D], [0x0D, 0x09, 0x0E, 0x0B], [0x0B, 0x0D, 0x09, 0x0E]]

/-- One column multiplied by a matrix of constants (rule R149). -/
def mixColumn (m : List (List Nat)) (col : Bytes) : Bytes :=
  m.map fun row => (List.zipWith gfMul row col).foldl (fun a b => a ^^^ b) 0

/-- Every column of the state multiplied by a matrix of constants (rule R149). -/
def mixWith (m : List (List Nat)) (s : Bytes) : Bytes := ((blocks 4 s).map (mixColumn m)).flatten

/-- MixColumns (rule R149). -/
def mixColumns (s : Bytes) : Bytes := mixWith mixMatrix s

/-- InvMixColumns (rule R149). -/
def invMixColumns (s : Bytes) : Bytes := mixWith invMixMatrix s

/-- AddRoundKey (rule R150). -/
def addRoundKey (s rk : Bytes) : Bytes := xorBytes s rk

/-- The rounds of the cipher under the round keys that are left, the last of them without MixColumns (rule R146). -/
def aesEncRounds : List Bytes → Bytes → Bytes
  | [], s => s
  | rk :: [], s => addRoundKey (shiftRows (subBytes s)) rk
  | rk :: rk' :: rest, s =>
    aesEncRounds (rk' :: rest) (addRoundKey (mixColumns (shiftRows (subBytes s))) rk)

/-- The rounds of the inverse cipher under the round keys that are left, in the order of use (rule R151). -/
def aesDecRounds : List Bytes → Bytes → Bytes
  | [], s => s
  | rk :: [], s => addRoundKey (invSubBytes (invShiftRows s)) rk
  | rk :: rk' :: rest, s =>
    aesDecRounds (rk' :: rest) (invMixColumns (addRoundKey (invSubBytes (invShiftRows s)) rk))

/-- `E(AES, K, b)` (rule R146). -/
def aesEncrypt (key b : Bytes) : Bytes :=
  match aesRoundKeys key with
  | [] => b
  | rk :: rest => aesEncRounds rest (addRoundKey b rk)

/-- `D(AES, K, b)` (rule R151). -/
def aesDecrypt (key b : Bytes) : Bytes :=
  match (aesRoundKeys key).reverse with
  | [] => b
  | rk :: rest => aesDecRounds rest (addRoundKey b rk)

end Sys2Proof.Machine
end

