-- ==== Sys2Proof/Machine/Des.lean ====
section
/-! DEFINITION. The Data Encryption Standard as spec/45_des_reference.md gives it (rules R120 to R131; the spec marks that
whole file as general knowledge, see notes/assumptions/6.md). Bits are numbered from 1, bit 1 the most
significant bit of byte 0 (spec/00_scope.md rule R7), so in an n-bit string bit p is `getLsbD (n - p)`. -/

namespace Sys2Proof.Machine

/-- A table of source bit positions applied to a bit string: output bit i is input bit T[i] (rule R120). The result has
m bits, m the number of the table's entries. -/
def permute (m : Nat) (table : List Nat) {n : Nat} (x : BitVec n) : BitVec m :=
  table.foldl (fun y p => y.shiftConcat (x.getLsbD (n - p))) 0

/-- The initial permutation IP (rule R122). -/
def desIP : List Nat :=
  [58, 50, 42, 34, 26, 18, 10,  2,
   60, 52, 44, 36, 28, 20, 12,  4,
   62, 54, 46, 38, 30, 22, 14,  6,
   64, 56, 48, 40, 32, 24, 16,  8,
   57, 49, 41, 33, 25, 17,  9,  1,
   59, 51, 43, 35, 27, 19, 11,  3,
   61, 53, 45, 37, 29, 21, 13,  5,
   63, 55, 47, 39, 31, 23, 15,  7]

/-- The final permutation FP, the inverse of IP (rule R122). -/
def desFP : List Nat :=
  [40,  8, 48, 16, 56, 24, 64, 32,
   39,  7, 47, 15, 55, 23, 63, 31,
   38,  6, 46, 14, 54, 22, 62, 30,
   37,  5, 45, 13, 53, 21, 61, 29,
   36,  4, 44, 12, 52, 20, 60, 28,
   35,  3, 43, 11, 51, 19, 59, 27,
   34,  2, 42, 10, 50, 18, 58, 26,
   33,  1, 41,  9, 49, 17, 57, 25]

/-- Permuted choice 1 (rule R123): the lowest bit of every key byte appears nowhere in it. -/
def desPC1 : List Nat :=
  [57, 49, 41, 33, 25, 17,  9,
    1, 58, 50, 42, 34, 26, 18,
   10,  2, 59, 51, 43, 35, 27,
   19, 11,  3, 60, 52, 44, 36,
   63, 55, 47, 39, 31, 23, 15,
    7, 62, 54, 46, 38, 30, 22,
   14,  6, 61, 53, 45, 37, 29,
   21, 13,  5, 28, 20, 12,  4]

/-- Permuted choice 2 (rule R125). -/
def desPC2 : List Nat :=
  [14, 17, 11, 24,  1,  5,
    3, 28, 15,  6, 21, 10,
   23, 19, 12,  4, 26,  8,
   16,  7, 27, 20, 13,  2,
   41, 52, 31, 37, 47, 55,
   30, 40, 51, 45, 33, 48,
   44, 49, 39, 56, 34, 53,
   46, 42, 50, 36, 29, 32]

/-- The expansion E (rule R127). -/
def desE : List Nat :=
  [32,  1,  2,  3,  4,  5,
    4,  5,  6,  7,  8,  9,
    8,  9, 10, 11, 12, 13,
   12, 13, 14, 15, 16, 17,
   16, 17, 18, 19, 20, 21,
   20, 21, 22, 23, 24, 25,
   24, 25, 26, 27, 28, 29,
   28, 29, 30, 31, 32,  1]

/-- The permutation P (rule R130). -/
def desP : List Nat :=
  [16,  7, 20, 21, 29, 12, 28, 17,
    1, 15, 23, 26,  5, 18, 31, 10,
    2,  8, 24, 14, 32, 27,  3,  9,
   19, 13, 30,  6, 22, 11,  4, 25]

/-- The rotations s_1 to s_16 of the key schedule (rule R124). -/
def desShifts : List Nat := [1, 1, 2, 2, 2, 2, 2, 2, 1, 2, 2, 2, 2, 2, 2, 1]

/-- S-box S1, row 0 first, column 0 first (rule R129). -/
def desS1 : List (List Nat) :=
  [[14,  4, 13,  1,  2, 15, 11,  8,  3, 10,  6, 12,  5,  9,  0,  7],
   [ 0, 15,  7,  4, 14,  2, 13,  1, 10,  6, 12, 11,  9,  5,  3,  8],
   [ 4,  1, 14,  8, 13,  6,  2, 11, 15, 12,  9,  7,  3, 10,  5,  0],
   [15, 12,  8,  2,  4,  9,  1,  7,  5, 11,  3, 14, 10,  0,  6, 13]]

/-- S-box S2, row 0 first, column 0 first (rule R129). -/
def desS2 : List (List Nat) :=
  [[15,  1,  8, 14,  6, 11,  3,  4,  9,  7,  2, 13, 12,  0,  5, 10],
   [ 3, 13,  4,  7, 15,  2,  8, 14, 12,  0,  1, 10,  6,  9, 11,  5],
   [ 0, 14,  7, 11, 10,  4, 13,  1,  5,  8, 12,  6,  9,  3,  2, 15],
   [13,  8, 10,  1,  3, 15,  4,  2, 11,  6,  7, 12,  0,  5, 14,  9]]

/-- S-box S3, row 0 first, column 0 first (rule R129). -/
def desS3 : List (List Nat) :=
  [[10,  0,  9, 14,  6,  3, 15,  5,  1, 13, 12,  7, 11,  4,  2,  8],
   [13,  7,  0,  9,  3,  4,  6, 10,  2,  8,  5, 14, 12, 11, 15,  1],
   [13,  6,  4,  9,  8, 15,  3,  0, 11,  1,  2, 12,  5, 10, 14,  7],
   [ 1, 10, 13,  0,  6,  9,  8,  7,  4, 15, 14,  3, 11,  5,  2, 12]]

/-- S-box S4, row 0 first, column 0 first (rule R129). -/
def desS4 : List (List Nat) :=
  [[ 7, 13, 14,  3,  0,  6,  9, 10,  1,  2,  8,  5, 11, 12,  4, 15],
   [13,  8, 11,  5,  6, 15,  0,  3,  4,  7,  2, 12,  1, 10, 14,  9],
   [10,  6,  9,  0, 12, 11,  7, 13, 15,  1,  3, 14,  5,  2,  8,  4],
   [ 3, 15,  0,  6, 10,  1, 13,  8,  9,  4,  5, 11, 12,  7,  2, 14]]

/-- S-box S5, row 0 first, column 0 first (rule R129). -/
def desS5 : List (List Nat) :=
  [[ 2, 12,  4,  1,  7, 10, 11,  6,  8,  5,  3, 15, 13,  0, 14,  9],
   [14, 11,  2, 12,  4,  7, 13,  1,  5,  0, 15, 10,  3,  9,  8,  6],
   [ 4,  2,  1, 11, 10, 13,  7,  8, 15,  9, 12,  5,  6,  3,  0, 14],
   [11,  8, 12,  7,  1, 14,  2, 13,  6, 15,  0,  9, 10,  4,  5,  3]]

/-- S-box S6, row 0 first, column 0 first (rule R129). -/
def desS6 : List (List Nat) :=
  [[12,  1, 10, 15,  9,  2,  6,  8,  0, 13,  3,  4, 14,  7,  5, 11],
   [10, 15,  4,  2,  7, 12,  9,  5,  6,  1, 13, 14,  0, 11,  3,  8],
   [ 9, 14, 15,  5,  2,  8, 12,  3,  7,  0,  4, 10,  1, 13, 11,  6],
   [ 4,  3,  2, 12,  9,  5, 15, 10, 11, 14,  1,  7,  6,  0,  8, 13]]

/-- S-box S7, row 0 first, column 0 first (rule R129). -/
def desS7 : List (List Nat) :=
  [[ 4, 11,  2, 14, 15,  0,  8, 13,  3, 12,  9,  7,  5, 10,  6,  1],
   [13,  0, 11,  7,  4,  9,  1, 10, 14,  3,  5, 12,  2, 15,  8,  6],
   [ 1,  4, 11, 13, 12,  3,  7, 14, 10, 15,  6,  8,  0,  5,  9,  2],
   [ 6, 11, 13,  8,  1,  4, 10,  7,  9,  5,  0, 15, 14,  2,  3, 12]]

/-- S-box S8, row 0 first, column 0 first (rule R129). -/
def desS8 : List (List Nat) :=
  [[13,  2,  8,  4,  6, 15, 11,  1, 10,  9,  3, 14,  5,  0, 12,  7],
   [ 1, 15, 13,  8, 10,  3,  7,  4, 12,  5,  6, 11,  0, 14,  9,  2],
   [ 7, 11,  4,  1,  9, 12, 14,  2,  0,  6, 10, 13, 15,  3,  5,  8],
   [ 2,  1, 14,  7,  4, 10,  8, 13, 15, 12,  9,  0,  3,  5,  6, 11]]

/-- The eight S-boxes, S1 first (rule R129). -/
def desSBoxes : List (List (List Nat)) := [desS1, desS2, desS3, desS4, desS5, desS6, desS7, desS8]

/-- One S-box applied to a 6-bit group b1..b6: row 2*b1 + b6, column b2 b3 b4 b5 (rule R128). -/
def desSBox (box : List (List Nat)) (b : BitVec 6) : BitVec 4 :=
  let row := 2 * (b.getMsbD 0).toNat + (b.getMsbD 5).toNat
  let col := (b.extractLsb' 1 4).toNat
  BitVec.ofNat 4 ((box.getD row []).getD col 0)

/-- The 6-bit group B_(j+1) of a 48-bit string: bits 6j+1 to 6j+6 (rule R126). -/
def desGroup (x : BitVec 48) (j : Nat) : BitVec 6 := x.extractLsb' (42 - 6 * j) 6

/-- S_1(B_1) to S_8(B_8) joined to 32 bits, S_1 leftmost (rule R126). -/
def desSubstitute (x : BitVec 48) : BitVec 32 :=
  (desSBoxes.zipIdx).foldl (fun y s => (y <<< 4) ||| (desSBox s.1 (desGroup x s.2)).setWidth 32) 0

/-- The round function f(R, K) (rule R126). -/
def desF (r : BitVec 32) (k : BitVec 48) : BitVec 32 :=
  permute 32 desP (desSubstitute (permute 48 desE r ^^^ k))

/-- The subkeys that follow from the halves C and D through the listed rotations (rules R124 and R125). -/
def desSchedule : List Nat → BitVec 28 → BitVec 28 → List (BitVec 48)
  | [], _, _ => []
  | s :: rest, c, d =>
    let c' := c.rotateLeft s
    let d' := d.rotateLeft s
    permute 48 desPC2 (c' ++ d') :: desSchedule rest c' d'

/-- K_1 to K_16 of an 8-byte key (rules R123 to R125). -/
def desSubkeys (k : BitVec 64) : List (BitVec 48) :=
  let cd := permute 56 desPC1 k
  desSchedule desShifts (cd.extractLsb' 28 28) (cd.extractLsb' 0 28)

/-- One round on the pair (L, R): (R, L xor f(R, K)) (rule R121). -/
def desRound (lr : BitVec 32 × BitVec 32) (k : BitVec 48) : BitVec 32 × BitVec 32 :=
  (lr.2, lr.1 ^^^ desF lr.2 k)

/-- The sixteen rounds between IP and FP under the subkeys in the order given; the halves are exchanged after the last
round (rule R121). -/
def desCore (keys : List (BitVec 48)) (b : BitVec 64) : BitVec 64 :=
  let x := permute 64 desIP b
  let lr := keys.foldl desRound (x.extractLsb' 32 32, x.extractLsb' 0 32)
  permute 64 desFP (lr.2 ++ lr.1)

/-- An 8-byte string read as 64 bits, bit 1 the top bit of byte 0 (rule R120). -/
def bits64 (s : Bytes) : BitVec 64 := BitVec.ofNat 64 (int s)

/-- `DESe(k, b)`: single-DES encryption of one 8-byte block (rule R121). -/
def desEncrypt (k b : Bytes) : Bytes :=
  be (desCore (desSubkeys (bits64 k)) (bits64 b)).toNat 8

/-- `DESd(k, b)`: the same with the subkeys in reverse order (rule R131). -/
def desDecrypt (k b : Bytes) : Bytes :=
  be (desCore (desSubkeys (bits64 k)).reverse (bits64 b)).toNat 8

end Sys2Proof.Machine
end

