-- ==== Sys2Proof/Machine/Cipher.lean ====
section
/-! DEFINITION. The block cipher functions every command is built from: block size, legal key lengths, and the block
functions E and D of the DES family and of AES (spec/40_block_cipher_primitives.md rules R70 to R75). E and D are the
concrete functions of files 45 and 46; on an illegal key length or a block of a wrong length they are whatever these
functions give, and no command applies them there (rule R74, notes/assumptions/7.md). -/

namespace Sys2Proof.Machine

/-- `BS(alg)` in bytes (rule R70). -/
def blockSize : Alg → Nat
  | .des => 8
  | .aes => 16

/-- `KeyOK(alg, n)` for a key of n bytes (rule R71). -/
def keyOK (alg : Alg) (n : Nat) : Bool :=
  match alg with
  | .des => n == 8 || n == 16 || n == 24
  | .aes => n == 16 || n == 24 || n == 32

/-- The three single-DES keys of a DES-family key: K K K for 8 bytes, K1 K2 K1 for 16, K1 K2 K3 for 24 (rule R72). -/
def tdesKeys (key : Bytes) : Bytes × Bytes × Bytes :=
  if key.length = 8 then (key, key, key)
  else if key.length = 16 then (key.take 8, key.drop 8, key.take 8)
  else (key.take 8, (key.drop 8).take 8, key.drop 16)

/-- `E(DES, K, b)`: encrypt, decrypt, encrypt (rule R72). -/
def tdesEncrypt (key b : Bytes) : Bytes :=
  let (k1, k2, k3) := tdesKeys key
  desEncrypt k3 (desDecrypt k2 (desEncrypt k1 b))

/-- `D(DES, K, b)`: decrypt, encrypt, decrypt (rule R72). -/
def tdesDecrypt (key b : Bytes) : Bytes :=
  let (k1, k2, k3) := tdesKeys key
  desDecrypt k1 (desEncrypt k2 (desDecrypt k3 b))

/-- `E(alg, K, b)` (rules R72 and R73). -/
def encryptBlock (alg : Alg) (key b : Bytes) : Bytes :=
  match alg with
  | .des => tdesEncrypt key b
  | .aes => aesEncrypt key b

/-- `D(alg, K, b)` (rules R72 and R73). -/
def decryptBlock (alg : Alg) (key b : Bytes) : Bytes :=
  match alg with
  | .des => tdesDecrypt key b
  | .aes => aesDecrypt key b

end Sys2Proof.Machine
end

