-- ==== Sys2Proof/Config.lean ====
section
/-! DEFINITION. What an implementation of the engine fixes (spec/00_scope.md rule R4): the two buffer capacities. They are
arguments of the model: a value of `Params` stands in every State and no step changes it
(notes/assumptions/3.md). -/

namespace Sys2Proof

/-- The two parameters of rule R4: the capacities of the input and of the output buffer, in bytes. -/
structure Params where
  ibufBytes : Nat
  obufBytes : Nat
deriving DecidableEq, Repr

/-- The ranges rule R4 allows: 16 <= IBUF_BYTES <= 65536 and 32 <= OBUF_BYTES <= 65536. -/
abbrev Params.legal (p : Params) : Prop :=
  16 ≤ p.ibufBytes ∧ p.ibufBytes ≤ 65536 ∧ 32 ≤ p.obufBytes ∧ p.obufBytes ≤ 65536

/-- The reference configuration of rule R4, the one every test vector of the spec uses. -/
def Params.reference : Params := ⟨10240, 10512⟩

/-- The size of the engine's window in bytes (spec/20_memory.md rule R30). -/
def windowBytes : Nat := 0x30000

end Sys2Proof
end

