-- ==== Sys2Proof/Machine/State.lean ====
section
/-! DEFINITION. The state of the engine (spec/10_state.md, the tuple at its head and rules R10 to R19), the accesses of the
host and the reset event that drive it (rule R22), and the state after reset (rules R19 and R181). -/

namespace Sys2Proof.Machine

/-- The contents of a byte buffer: the bytes that differ from `Memory.unlisted`, addresses strictly rising. An address is
the byte's index in its buffer. -/
abbrev Memory := List Host.Cell

/-- What an address that is not listed reads as: 0x00, the content of every buffer byte after reset (rules R13, R14, R19). -/
def Memory.unlisted : Byte := 0x00

/-- The error codes of a refused command (spec/60_exceptions.md rule R160). -/
inductive ErrCode where
  | illegal
  | keylen
  | maclen
  | ilen
  | padlen
  | datalen
  | overflow
deriving DecidableEq, Repr

/-- One event of the total order of spec/20_memory.md rule R38: an access of the host, by byte offset into the window
(rules R32 to R34), or the reset event (spec/70_reset_and_hazards.md rule R180). -/
inductive HostEvent where
  /-- `MemRead(off, 4)` (rule R32). -/
  | read32 (off : Nat)
  /-- `MemWrite(off, 4, v)` (rule R33). -/
  | write32 (off : Nat) (v : Word)
  /-- `MemRead(off, 1)` (rule R34). -/
  | read8 (off : Nat)
  /-- `MemWrite(off, 1, v)` (rule R34). -/
  | write8 (off : Nat) (v : Byte)
  /-- A read of a width other than 8 or 32 bits, if the platform's bus can express one (rule R34). -/
  | readOther (off : Nat)
  /-- A write of a width other than 8 or 32 bits, if the platform's bus can express one (rule R34). -/
  | writeOther (off : Nat)
  /-- The reset event (rule R180). -/
  | reset
deriving DecidableEq, Repr

/-- The state. CMD holds no state (rule R15), IBUFSZ and OBUFSZ are the constants of `params` (rule R18), there is no
program counter (rule R20) and no hidden state (rule R21). The last three fields are the model's, not the engine's. -/
structure State where
  /-- KEY1[0] to KEY1[31] (rule R11). -/
  key1 : Vector Byte 32
  /-- KEY2[0] to KEY2[31] (rule R11). -/
  key2 : Vector Byte 32
  /-- IV[0] to IV[15] (rule R12). -/
  iv : Vector Byte 16
  /-- IBUF (rule R13). -/
  ibuf : Memory
  /-- ILEN (rule R13). -/
  ilen : Word
  /-- OBUF (rule R14). -/
  obuf : Memory
  /-- OLEN (rule R14). -/
  olen : Word
  /-- STATUS (rule R16); its fields are read and written in Flags.lean only. -/
  status : Word
  /-- The model's: the parameters IBUF_BYTES and OBUF_BYTES (spec/00_scope.md rule R4), constant
  (notes/assumptions/3.md). -/
  params : Params
  /-- The model's: the host accesses and reset events still to come, in the order of rule R38
  (notes/assumptions/1.md). -/
  script : List HostEvent
  /-- The model's: the value the latest host read returned, an 8-bit value in the low byte; none before the first read
  (notes/assumptions/4.md). -/
  lastRead : Option Word
deriving DecidableEq, Repr

/-- Why a step stops. -/
inductive Fault where
  /-- Raised by the host port on an access at or above offset 0x30000: "outside the engine and outside this spec"
  (spec/20_memory.md rule R30). Safe: the model stops where the spec says nothing (notes/assumptions/5.md). -/
  | outsideWindow
deriving DecidableEq, Repr

/-- Why a step has no meaning. -/
inductive Refusal where
  /-- Raised by an arm of `exec` whose instruction has no meaning yet. Safe. No arm raises it: every command of the opcode
  table has its meaning. -/
  | notModelled (mnemonic : String)
deriving DecidableEq, Repr

/-- The state right after reset in a given configuration: every bit of the engine 0 (rules R19 and R181), no access
pending, nothing read. -/
def State.resetFor (p : Params) : State where
  key1 := Vector.replicate 32 0
  key2 := Vector.replicate 32 0
  iv := Vector.replicate 16 0
  ibuf := []
  ilen := 0
  obuf := []
  olen := 0
  status := 0
  params := p
  script := []
  lastRead := none

/-- The machine right after reset (rules R19, R180 and R181), in the reference configuration of rule R4. -/
def State.reset : State := State.resetFor Params.reference

end Sys2Proof.Machine
end

