-- ==== Sys2Proof/Machine/Flags.lean ====
section
/-! DEFINITION. The STATUS register: its fields and every update of them (spec/10_state.md rules R16 and R17,
spec/60_exceptions.md rules R160, R161, R170 and R173). -/

namespace Sys2Proof.Machine

/-- The number of an error code (rule R160). -/
def errNumber : ErrCode → Nat
  | .illegal => 1
  | .keylen => 2
  | .maclen => 3
  | .ilen => 4
  | .padlen => 5
  | .datalen => 6
  | .overflow => 7

/-- DONE, bit 0 (rule R16). -/
def statusDone (st : Word) : Bool := st.getLsbD 0

/-- ERR, bit 1 (rule R16). -/
def statusErr (st : Word) : Bool := st.getLsbD 1

/-- ERRCODE, bits 7:4 (rule R16). -/
def statusErrcode (st : Word) : BitVec 4 := st.extractLsb' 4 4

/-- STICKY, bit 8 (rule R16). -/
def statusSticky (st : Word) : Bool := st.getLsbD 8

/-- ACCERR, bit 9 (rule R16). -/
def statusAccerr (st : Word) : Bool := st.getLsbD 9

/-- The bits DONE, ERR and ERRCODE, which every command rewrites (rule R17). -/
def commandBits : Word := 0x000000F3

/-- The reserved bits 3:2 and 31:10 (rule R16). -/
def reservedBits : Word := 0xFFFFFC0C

/-- STATUS after a success: DONE = 1, ERR = 0, ERRCODE = 0, all else unchanged (rule R161). -/
def statusSuccess (st : Word) : Word := (st &&& ~~~commandBits) ||| 0x00000001

/-- STATUS after a refusal: DONE = 0, ERR = 1, ERRCODE = code, STICKY = 1, all else unchanged (rule R170). -/
def statusRefusal (code : ErrCode) (st : Word) : Word :=
  (st &&& ~~~commandBits) ||| 0x00000102 ||| BitVec.ofNat 32 (errNumber code * 16)

/-- STATUS after a refused access: ACCERR = 1, all else unchanged (rule R173). -/
def statusAccessRefused (st : Word) : Word := st ||| 0x00000200

/-- STATUS after a host write of v: STICKY and ACCERR are cleared where v has a 1, nothing else changes (rule R16). -/
def statusWrite (v st : Word) : Word := st &&& ~~~(v &&& 0x00000300)

end Sys2Proof.Machine
end

