-- ==== Sys2Proof/Machine/Ops.lean ====
section
/-! DEFINITION. The named operations over the buffers and over the state: reading and writing bytes, ending a command with
success, refusing a command (the engine's "trap entry", spec/60_exceptions.md rule R170), refusing an access (rule R173)
and the reset event. There is no return from an error: "There is nothing to return from and no return command" (rule R171). -/

namespace Sys2Proof.Machine

/-- The byte at address a. -/
def Memory.read : Memory → Nat → Byte
  | [], _ => Memory.unlisted
  | (k, b) :: rest, a => if k = a then b else Memory.read rest a

/-- The memory with byte b at address a, in canonical form again. -/
def Memory.write : Memory → Nat → Byte → Memory
  | [], a, b => if b = Memory.unlisted then [] else [(a, b)]
  | (k, c) :: rest, a, b =>
    if a < k then (if b = Memory.unlisted then (k, c) :: rest else (a, b) :: (k, c) :: rest)
    else if a = k then (if b = Memory.unlisted then rest else (a, b) :: rest)
    else (k, c) :: Memory.write rest a b

/-- The n bytes from address a on. -/
def Memory.readBytes (m : Memory) (a : Nat) : Nat → Bytes
  | 0 => []
  | n + 1 => m.read a :: Memory.readBytes m (a + 1) n

/-- The memory that holds the string s from address a on and reads as unlisted everywhere else. -/
def Memory.ofBytesFrom (a : Nat) : Bytes → Memory
  | [] => []
  | b :: rest =>
    if b = Memory.unlisted then Memory.ofBytesFrom (a + 1) rest else (a, b) :: Memory.ofBytesFrom (a + 1) rest

/-- The memory that holds the string s from address 0 on, every other byte 0x00 (rule R161). -/
def Memory.ofBytes (s : Bytes) : Memory := Memory.ofBytesFrom 0 s

/-- The canonical form: addresses strictly rising, and no entry equal to what an unlisted address reads as. -/
def Memory.wf (m : Memory) : Bool :=
  decide (m.Pairwise fun x y => x.1 < y.1) && m.all fun c => c.2 != Memory.unlisted

/-- Every listed address is below the bound. -/
def Memory.within (m : Memory) (bound : Nat) : Bool := m.all fun c => decide (c.1 < bound)

/-- `finish(s)`: the effects of a success with result string r (spec/60_exceptions.md rule R161). -/
def finish (r : Bytes) (s : State) : State :=
  { s with obuf := Memory.ofBytes r, olen := BitVec.ofNat 32 r.length, status := statusSuccess s.status }

/-- `raise CmdError(code)`: the effects of a refusal (spec/60_exceptions.md rule R170). Nothing is saved and control goes
nowhere. -/
def raiseCmdError (code : ErrCode) (s : State) : State :=
  { s with obuf := [], olen := 0, status := statusRefusal code s.status }

/-- A check of a command: whether it fails, and the error it then reports (rule R169). -/
abbrev Check := Bool × ErrCode

/-- The error a command reports: that of the first check that fails, in the order given (rule R169). -/
def firstError : List Check → Option ErrCode
  | [] => none
  | (failed, code) :: rest => if failed then some code else firstError rest

/-- A command: its checks in order, then the refusal of the first that fails, or success with the result
computed from the operands as they stand (rules R160 and R169, spec/20_memory.md rule R41). -/
def runCommand (checks : List Check) (result : State → Bytes) (s : State) : State :=
  match firstError checks with
  | some code => raiseCmdError code s
  | none => finish (result s) s

/-- A refused host access: ACCERR is set and nothing else changes (rules R34 and R173). -/
def refuseAccess (s : State) : State := { s with status := statusAccessRefused s.status }

/-- The host's read returns v; an accepted read changes nothing of the engine (spec/20_memory.md rule R32). -/
def answerRead (v : Word) (s : State) : State := { s with lastRead := some v }

/-- A refused host read: zero is returned and ACCERR is set (rules R34 and R173). -/
def refuseRead (s : State) : State := refuseAccess (answerRead 0 s)

/-- The reset event: the engine's state is that of rule R19, whatever it was; the parameters and what belongs to the host
(the accesses to come and the value last read) stay (spec/70_reset_and_hazards.md rules R180 and R181). -/
def resetEvent (s : State) : State :=
  { State.resetFor s.params with script := s.script, lastRead := s.lastRead }

end Sys2Proof.Machine
end

