-- ==== Sys2Proof/Machine/Operands.lean ====
section
/-! DEFINITION. The operands of a command: what its fields ask for and what it reads from the operand registers
(spec/30_encoding.md rules R53 to R57 and R65, spec/20_memory.md rule R41), and the checks on them
(spec/60_exceptions.md rules R163 to R169). -/

namespace Sys2Proof.Machine

/-- `KL(c)`: the key length in bytes (rule R54). -/
def klenBytes : KLen → Nat
  | .k8 => 8
  | .k16 => 16
  | .k24 => 24
  | .k32 => 32

/-- The effective MAC length: the field, or the block size where it is 0 (rule R56). -/
def macLength (alg : Alg) (maclen : Nat) : Nat := if maclen = 0 then blockSize alg else maclen

/-- The effective padding block size: the field, or the block size of ALG where it is 0 (rule R57). -/
def padSize (alg : Alg) (blksz : Nat) : Nat := if blksz = 0 then blockSize alg else blksz

/-- `KEY1[0..KL(KLEN))` (spec/40_block_cipher_primitives.md rule R77). -/
def key1Operand (klen : KLen) (s : State) : Bytes := s.key1.toList.take (klenBytes klen)

/-- `KEY2[0..KL(KLEN2))` (rule R77). -/
def key2Operand (klen2 : KLen) (s : State) : Bytes := s.key2.toList.take (klenBytes klen2)

/-- `IV[0..BS(alg))` (spec/10_state.md rule R12). -/
def ivOperand (alg : Alg) (s : State) : Bytes := s.iv.toList.take (blockSize alg)

/-- The input `IBUF[0..ILEN)` (spec/10_state.md rule R13). IBUF has no byte at or after IBUF_BYTES: a larger ILEN, with
which no command uses the input (rule R165), gives the whole buffer. -/
def input (s : State) : Bytes := s.ibuf.readBytes 0 (min s.ilen.toNat s.params.ibufBytes)

/-- ERR_KEYLEN (rule R163). -/
def checkKeyLen (alg : Alg) (klen : KLen) : Check := (!keyOK alg (klenBytes klen), .keylen)

/-- ERR_MACLEN (rule R164). -/
def checkMacLen (alg : Alg) (maclen : Nat) : Check := (decide (macLength alg maclen > blockSize alg), .maclen)

/-- ERR_ILEN, an unsigned comparison (rule R165). -/
def checkILen (s : State) : Check := (decide (s.ilen.toNat > s.params.ibufBytes), .ilen)

/-- ERR_DATALEN for a string of `len` bytes to be enciphered (rule R167). -/
def checkDataLen (alg : Alg) (len : Nat) : Check := (decide (len % blockSize alg ≠ 0), .datalen)

/-- ERR_OVERFLOW for a result of `len` bytes (rule R168). -/
def checkOverflow (len : Nat) (s : State) : Check := (decide (len > s.params.obufBytes), .overflow)

end Sys2Proof.Machine
end

