-- ==== Sys2Proof/Machine/CmacSubkeys.lean ====
section
/-! DEFINITION. The CMAC subkey pair and the command CMACSK (spec/44_cmac_subkeys.md). -/

namespace Sys2Proof.Machine

/-- `Rb(alg)`: the constant of the doubling (rule R114). -/
def subkeyConstant : Alg → Byte
  | .des => 0x1B
  | .aes => 0x87

/-- The block whose last byte is the constant and whose other bytes are 0 (rule R114). -/
def subkeyMask (alg : Alg) : Bytes := zeros (blockSize alg - 1) ++ [subkeyConstant alg]

/-- `dbl(b, alg)`: the block shifted left by one bit, then, where its top bit was set BEFORE the shift, the constant
exclusive-ored into its last byte (rule R114). -/
def dbl (alg : Alg) (b : Bytes) : Bytes :=
  if topBit b then xorBytes (shl1 b) (subkeyMask alg) else shl1 b

/-- `cmacsk(alg, K)`: the pair (k1, k2) (rule R115). -/
def cmacsk (alg : Alg) (key : Bytes) : Bytes × Bytes :=
  let l := encryptBlock alg key (zeros (blockSize alg))
  let k1 := dbl alg l
  (k1, dbl alg k1)

/-- CMACSK: k1 followed by k2 (rule R116). Neither ILEN nor the input is read. -/
def execCmacsk (alg : Alg) (klen : KLen) (s : State) : Host.Outcome State Fault Refusal :=
  .next (runCommand [checkKeyLen alg klen]
    (fun s => (cmacsk alg (key1Operand klen s)).1 ++ (cmacsk alg (key1Operand klen s)).2) s)

end Sys2Proof.Machine
end

