-- ==== Sys2Proof/Machine/EcbCbc.lean ====
section
/-! DEFINITION. The modes ECB and CBC and the commands ECBENC, ECBDEC, CBCENC and CBCDEC (spec/41_ecb_cbc_modes.md). -/

namespace Sys2Proof.Machine

/-- `ecb_enc(alg, K, s)` (rule R80). -/
def ecbEnc (alg : Alg) (key s : Bytes) : Bytes :=
  ((blocks (blockSize alg) s).map (encryptBlock alg key)).flatten

/-- `ecb_dec(alg, K, s)` (rule R81). -/
def ecbDec (alg : Alg) (key s : Bytes) : Bytes :=
  ((blocks (blockSize alg) s).map (decryptBlock alg key)).flatten

/-- The chain `C_i = E(P_i xor C_(i-1))` over the blocks that are left, after the cipher block `prev` (rule R82). -/
def cbcEncChain (e : Bytes → Bytes) : Bytes → List Bytes → List Bytes
  | _, [] => []
  | prev, p :: rest => e (xorBytes p prev) :: cbcEncChain e (e (xorBytes p prev)) rest

/-- The chain `P_i = D(C_i) xor C_(i-1)` over the blocks that are left, after the cipher block `prev` (rule R83). -/
def cbcDecChain (d : Bytes → Bytes) : Bytes → List Bytes → List Bytes
  | _, [] => []
  | prev, c :: rest => xorBytes (d c) prev :: cbcDecChain d c rest

/-- `cbc_enc(alg, K, iv, s)` (rule R82). -/
def cbcEnc (alg : Alg) (key iv s : Bytes) : Bytes :=
  (cbcEncChain (encryptBlock alg key) iv (blocks (blockSize alg) s)).flatten

/-- `cbc_dec(alg, K, iv, s)` (rule R83). -/
def cbcDec (alg : Alg) (key iv s : Bytes) : Bytes :=
  (cbcDecChain (decryptBlock alg key) iv (blocks (blockSize alg) s)).flatten

/-- The checks of the four commands, in the order of rule R84. -/
def modeChecks (alg : Alg) (klen : KLen) (s : State) : List Check :=
  [checkKeyLen alg klen, checkILen s, checkDataLen alg s.ilen.toNat, checkOverflow s.ilen.toNat s]

/-- ECBENC (rules R84 and R85). -/
def execEcbenc (alg : Alg) (klen : KLen) (s : State) : Host.Outcome State Fault Refusal :=
  .next (runCommand (modeChecks alg klen s) (fun s => ecbEnc alg (key1Operand klen s) (input s)) s)

/-- ECBDEC (rules R84 and R86). -/
def execEcbdec (alg : Alg) (klen : KLen) (s : State) : Host.Outcome State Fault Refusal :=
  .next (runCommand (modeChecks alg klen s) (fun s => ecbDec alg (key1Operand klen s) (input s)) s)

/-- CBCENC (rules R84 and R87); the IV register is not written. -/
def execCbcenc (alg : Alg) (klen : KLen) (s : State) : Host.Outcome State Fault Refusal :=
  .next (runCommand (modeChecks alg klen s) (fun s => cbcEnc alg (key1Operand klen s) (ivOperand alg s) (input s)) s)

/-- CBCDEC (rules R84 and R88); the IV register is not written. -/
def execCbcdec (alg : Alg) (klen : KLen) (s : State) : Host.Outcome State Fault Refusal :=
  .next (runCommand (modeChecks alg klen s) (fun s => cbcDec alg (key1Operand klen s) (ivOperand alg s) (input s)) s)

end Sys2Proof.Machine
end

