-- ==== Sys2Proof/Machine/Padding.lean ====
section
/-! DEFINITION. The three padding schemes and the commands PAD1, PAD2 and PAD3 (spec/42_padding.md). -/

namespace Sys2Proof.Machine

/-- `pad1(s, n)`: zero bytes to the next block boundary, one block of zeros for the empty string (rule R90). -/
def pad1 (s : Bytes) (n : Nat) : Bytes :=
  if s.length = 0 then zeros n
  else if s.length % n = 0 then s
  else s ++ zeros (n - s.length % n)

/-- `pad2(s, n)`: one 0x80 byte, then scheme 1 (rule R91). -/
def pad2 (s : Bytes) (n : Nat) : Bytes := pad1 (s ++ [0x80]) n

/-- `p(n)`: the length of the scheme 3 prefix (rule R92). -/
def prefixBytes (n : Nat) : Nat := if n ≥ 8 then 8 else if n ≥ 4 then 4 else n

/-- `pad3(s, n)`: the bit length of s as a big-endian prefix, then s under scheme 1 (rule R92). -/
def pad3 (s : Bytes) (n : Nat) : Bytes := be (8 * s.length) (prefixBytes n) ++ pad1 s n

/-- `pad(q, s, n)` (rule R93). -/
def pad (q : PadScheme) (s : Bytes) (n : Nat) : Bytes :=
  match q with
  | .iso1 => pad1 s n
  | .iso2 => pad2 s n
  | .iso3 => pad3 s n

/-- ERR_PADLEN: scheme 3 and a bit length the prefix cannot hold (rules R95 and R166). -/
def checkPadLen (q : PadScheme) (n : Nat) (s : State) : Check :=
  (decide (q = .iso3 ∧ 8 * s.ilen.toNat ≥ 2 ^ (8 * prefixBytes n)), .padlen)

/-- The common frame of the padding commands: scheme q, block size n (rule R95). -/
def padCommand (q : PadScheme) (n : Nat) (s : State) : State :=
  runCommand [checkILen s, checkPadLen q n s, checkOverflow (pad q (input s) n).length s] (fun s => pad q (input s) n) s

/-- PAD1 (rules R95 and R96). -/
def execPad1 (alg : Alg) (blksz : Nat) (s : State) : Host.Outcome State Fault Refusal :=
  .next (padCommand .iso1 (padSize alg blksz) s)

/-- PAD2 (rules R95 and R97). -/
def execPad2 (alg : Alg) (blksz : Nat) (s : State) : Host.Outcome State Fault Refusal :=
  .next (padCommand .iso2 (padSize alg blksz) s)

/-- PAD3 (rules R95 and R98). -/
def execPad3 (alg : Alg) (blksz : Nat) (s : State) : Host.Outcome State Fault Refusal :=
  .next (padCommand .iso3 (padSize alg blksz) s)

end Sys2Proof.Machine
end

