-- ==== Sys2Proof/Machine/Mac.lean ====
section
/-! DEFINITION. CBC-MAC, the source's retail MAC, and the commands CBCMAC1 to CBCMAC3 and RMAC1 to RMAC3
(spec/43_cbc_mac.md). The retail MAC is the literal algorithm of rule R106 (spec/90_conflicts.md C3). -/

namespace Sys2Proof.Machine

/-- `cbcmac(alg, K, s, q, m)`: the first m bytes of the last cipher block under the all-zero IV (rules R100 and R101). -/
def cbcmac (alg : Alg) (key s : Bytes) (q : PadScheme) (m : Nat) : Bytes :=
  let n := blockSize alg
  firstBytes (lastBytes (cbcEnc alg key (zeros n) (pad q s n)) n) m

/-- The common frame of the CBC-MAC commands (rule R102). -/
def cbcmacCommand (q : PadScheme) (alg : Alg) (klen : KLen) (maclen : Nat) (s : State) : State :=
  runCommand
    [checkKeyLen alg klen, checkMacLen alg maclen, checkILen s,
      checkDataLen alg (pad q (input s) (blockSize alg)).length]
    (fun s => cbcmac alg (key1Operand klen s) (input s) q (macLength alg maclen)) s

/-- `retailmac(K1, K2, s, q, m)` (rule R106). -/
def retailmac (k1 k2 s : Bytes) (q : PadScheme) (m : Nat) : Bytes :=
  let c := cbcEnc .des k1 (zeros 8) (pad q s 8)
  let l := lastBytes c 8
  let r := cbcEnc .des k2 l l
  firstBytes r m

/-- The common frame of the retail MAC commands (rule R108). -/
def rmacCommand (q : PadScheme) (klen klen2 : KLen) (maclen : Nat) (s : State) : State :=
  runCommand
    [checkKeyLen .des klen, checkKeyLen .des klen2, checkMacLen .des maclen, checkILen s]
    (fun s => retailmac (key1Operand klen s) (key2Operand klen2 s) (input s) q (macLength .des maclen)) s

/-- CBCMAC1 (rules R102 and R103). -/
def execCbcmac1 (alg : Alg) (klen : KLen) (maclen : Nat) (s : State) : Host.Outcome State Fault Refusal :=
  .next (cbcmacCommand .iso1 alg klen maclen s)

/-- CBCMAC2 (rules R102 and R104). -/
def execCbcmac2 (alg : Alg) (klen : KLen) (maclen : Nat) (s : State) : Host.Outcome State Fault Refusal :=
  .next (cbcmacCommand .iso2 alg klen maclen s)

/-- CBCMAC3 (rules R102 and R105); with ALG = AES every input is refused with ERR_DATALEN. -/
def execCbcmac3 (alg : Alg) (klen : KLen) (maclen : Nat) (s : State) : Host.Outcome State Fault Refusal :=
  .next (cbcmacCommand .iso3 alg klen maclen s)

/-- RMAC1 (rules R108 and R109). -/
def execRmac1 (klen klen2 : KLen) (maclen : Nat) (s : State) : Host.Outcome State Fault Refusal :=
  .next (rmacCommand .iso1 klen klen2 maclen s)

/-- RMAC2 (rules R108 and R110). -/
def execRmac2 (klen klen2 : KLen) (maclen : Nat) (s : State) : Host.Outcome State Fault Refusal :=
  .next (rmacCommand .iso2 klen klen2 maclen s)

/-- RMAC3 (rules R108 and R111). -/
def execRmac3 (klen klen2 : KLen) (maclen : Nat) (s : State) : Host.Outcome State Fault Refusal :=
  .next (rmacCommand .iso3 klen klen2 maclen s)

end Sys2Proof.Machine
end

