-- ==== Sys2Proof/Machine/Dispatch.lean ====
section
/-! DEFINITION. The dispatch of a decoded command to its meaning: one arm per constructor, in the order of the opcode map. -/

namespace Sys2Proof.Machine

/-- What a command does to the state (spec/30_encoding.md rule R58). -/
def exec (i : Instr) (s : State) : Host.Outcome State Fault Refusal :=
  match i with
  | .ecbenc alg klen => Sys2Proof.Machine.execEcbenc alg klen s
  | .ecbdec alg klen => Sys2Proof.Machine.execEcbdec alg klen s
  | .cbcenc alg klen => Sys2Proof.Machine.execCbcenc alg klen s
  | .cbcdec alg klen => Sys2Proof.Machine.execCbcdec alg klen s
  | .pad1 alg blksz => Sys2Proof.Machine.execPad1 alg blksz s
  | .pad2 alg blksz => Sys2Proof.Machine.execPad2 alg blksz s
  | .pad3 alg blksz => Sys2Proof.Machine.execPad3 alg blksz s
  | .cbcmac1 alg klen maclen => Sys2Proof.Machine.execCbcmac1 alg klen maclen s
  | .cbcmac2 alg klen maclen => Sys2Proof.Machine.execCbcmac2 alg klen maclen s
  | .cbcmac3 alg klen maclen => Sys2Proof.Machine.execCbcmac3 alg klen maclen s
  | .rmac1 klen klen2 maclen => Sys2Proof.Machine.execRmac1 klen klen2 maclen s
  | .rmac2 klen klen2 maclen => Sys2Proof.Machine.execRmac2 klen klen2 maclen s
  | .rmac3 klen klen2 maclen => Sys2Proof.Machine.execRmac3 klen klen2 maclen s
  | .cmacsk alg klen => Sys2Proof.Machine.execCmacsk alg klen s

end Sys2Proof.Machine
end

