-- ==== Sys2Proof/Machine/HostPort.lean ====
section
/-! DEFINITION. The host port: the address map and what each access and the reset event do (spec/20_memory.md rules R30 to
R35, spec/10_state.md rules R11 to R18, spec/60_exceptions.md rule R173). A write to CMD runs a whole command. -/

namespace Sys2Proof.Machine

/-- The places of the address map (rule R31). -/
inductive Place where
  | cmd
  | status
  | ilen
  | olen
  | ibufsz
  | obufsz
  | key1 (i : Nat)
  | key2 (i : Nat)
  | iv (i : Nat)
  | ibuf (i : Nat)
  | obuf (i : Nat)
  | unmapped
deriving DecidableEq, Repr

/-- The byte place an offset at or above 0x40 names (rule R31). -/
def bytePlace (p : Params) (off : Nat) : Place :=
  if 0x00040 ≤ off ∧ off < 0x00060 then .key1 (off - 0x00040)
  else if 0x00060 ≤ off ∧ off < 0x00080 then .key2 (off - 0x00060)
  else if 0x00080 ≤ off ∧ off < 0x00090 then .iv (off - 0x00080)
  else if 0x10000 ≤ off ∧ off < 0x10000 + p.ibufBytes then .ibuf (off - 0x10000)
  else if 0x20000 ≤ off ∧ off < 0x20000 + p.obufBytes then .obuf (off - 0x20000)
  else .unmapped

/-- The place a 32-bit access finds at an offset: a register at exactly its offset, nothing elsewhere (rules R32 and
R33). -/
def wordPlace (off : Nat) : Place :=
  if off = 0x00000 then .cmd
  else if off = 0x00004 then .status
  else if off = 0x00008 then .ilen
  else if off = 0x0000C then .olen
  else if off = 0x00010 then .ibufsz
  else if off = 0x00014 then .obufsz
  else .unmapped

/-- `MemRead(off, 4)`: the value, or none where the read is refused (rules R31 and R32). -/
def readWord (off : Nat) (s : State) : Option Word :=
  match wordPlace off with
  | .cmd => some 0
  | .status => some s.status
  | .ilen => some s.ilen
  | .olen => some s.olen
  | .ibufsz => some (BitVec.ofNat 32 s.params.ibufBytes)
  | .obufsz => some (BitVec.ofNat 32 s.params.obufBytes)
  | _ => none

/-- `MemRead(off, 1)`: the value, or none where the read is refused. A key byte reads as 0x00 (rules R11, R31 and R34). -/
def readByte (off : Nat) (s : State) : Option Byte :=
  match bytePlace s.params off with
  | .key1 _ => some 0
  | .key2 _ => some 0
  | .iv i => some (s.iv.toList.getD i 0)
  | .ibuf i => some (s.ibuf.read i)
  | .obuf i => some (s.obuf.read i)
  | _ => none

/-- A command word written to CMD: decoded, and performed or refused with ERR_ILLEGAL (spec/10_state.md rule R15,
spec/60_exceptions.md rule R162). -/
def issueCommand (w : Word) (s : State) : Host.Outcome State Fault Refusal :=
  match decode w with
  | .ok i => exec i s
  | .error _ => .next (raiseCmdError .illegal s)

/-- `MemWrite(off, 4, v)` (rules R31 and R33). -/
def writeWord (off : Nat) (v : Word) (s : State) : Host.Outcome State Fault Refusal :=
  match wordPlace off with
  | .cmd => issueCommand v s
  | .status => .next { s with status := statusWrite v s.status }
  | .ilen => .next { s with ilen := v }
  | _ => .next (refuseAccess s)

/-- `MemWrite(off, 1, v)` (rules R31 and R34). -/
def writeByte (off : Nat) (v : Byte) (s : State) : State :=
  match bytePlace s.params off with
  | .key1 i => { s with key1 := s.key1.setIfInBounds i v }
  | .key2 i => { s with key2 := s.key2.setIfInBounds i v }
  | .iv i => { s with iv := s.iv.setIfInBounds i v }
  | .ibuf i => { s with ibuf := s.ibuf.write i v }
  | _ => refuseAccess s

/-- The offset of an access; the reset event has none. -/
def eventOffset : HostEvent → Option Nat
  | .read32 off => some off
  | .write32 off _ => some off
  | .read8 off => some off
  | .write8 off _ => some off
  | .readOther off => some off
  | .writeOther off => some off
  | .reset => none

/-- The event is within the window: an offset below 0x30000, or the reset event (rule R30). -/
def eventInWindow (e : HostEvent) : Bool := (eventOffset e).all fun off => decide (off < windowBytes)

/-- What an event within the window does (rules R32 to R34 and R180). -/
def performEvent (e : HostEvent) (s : State) : Host.Outcome State Fault Refusal :=
  match e with
  | .read32 off =>
    match readWord off s with
    | some v => .next (answerRead v s)
    | none => .next (refuseRead s)
  | .write32 off v => writeWord off v s
  | .read8 off =>
    match readByte off s with
    | some v => .next (answerRead (v.setWidth 32) s)
    | none => .next (refuseRead s)
  | .write8 off v => .next (writeByte off v s)
  | .readOther _ => .next (refuseRead s)
  | .writeOther _ => .next (refuseAccess s)
  | .reset => .next (resetEvent s)

/-- What an event does; an access at or above offset 0x30000 is outside the spec and stops the model by name (rule R30,
notes/assumptions/5.md). -/
def hostEvent (e : HostEvent) (s : State) : Host.Outcome State Fault Refusal :=
  if eventInWindow e then performEvent e s else .fault .outsideWindow

end Sys2Proof.Machine
end

