-- ==== Sys2Proof/Machine/Step.lean ====
section
/-! DEFINITION. One step of the machine: the next event of the total order of host accesses and resets
(spec/20_memory.md rule R38, spec/70_reset_and_hazards.md rules R184 and R191). -/

namespace Sys2Proof.Machine

/-- The step: the first pending event is taken and performed. With none pending the engine is idle and holds its state
(spec/60_exceptions.md rule R176). -/
def step (s : State) : Host.Outcome State Fault Refusal :=
  match s.script with
  | [] => .next s
  | e :: rest => hostEvent e { s with script := rest }

/-- The state in which the next event is the host's write to CMD of the word whose low `nbits` bits are w. The engine
fetches nothing: a command is the data of that write (spec/10_state.md rule R20, notes/assumptions/2.md). -/
def State.withFetchWord (s : State) (nbits w : Nat) : State :=
  { s with script := .write32 0x00000 (BitVec.ofNat 32 (w % 2 ^ nbits)) :: s.script }

end Sys2Proof.Machine
end

