-- ==== Sys2Proof/Safety.lean ====
section
/-! DEFINITION. The terms claims are stated in: what a success and a refusal leave (spec/60_exceptions.md rules R161 and
R170), the invariant of every reachable state (spec/10_state.md rule R23), and what a safe run is. -/

namespace Sys2Proof.Machine

/-- What no command changes: the operand registers and buffers, and what is not the engine's (rules R11 to R13, R84, R95,
R102, R108 and R116); memory byte by byte. -/
structure OperandsKept (s t : State) : Prop where
  key1 : t.key1 = s.key1
  key2 : t.key2 = s.key2
  iv : t.iv = s.iv
  ibuf : ∀ a, t.ibuf.read a = s.ibuf.read a
  ilen : t.ilen = s.ilen
  params : t.params = s.params
  script : t.script = s.script
  lastRead : t.lastRead = s.lastRead

/-- The bits of STATUS that no command writes: ACCERR and the reserved bits (rule R17). -/
def OtherStatusKept (s t : State) : Prop :=
  statusAccerr t.status = statusAccerr s.status ∧ t.status &&& reservedBits = s.status &&& reservedBits

/-- The effects of a success with a result of `len` bytes, but for the result bytes themselves (rule R161): OLEN, the zero
bytes after the result, the flags, and everything that stays. -/
structure SuccessOf (len : Nat) (s t : State) : Prop where
  olen : t.olen.toNat = len
  rest_zero : ∀ a, len ≤ a → t.obuf.read a = 0x00
  done : statusDone t.status = true
  err : statusErr t.status = false
  errcode : statusErrcode t.status = 0
  sticky : statusSticky t.status = statusSticky s.status
  others : OtherStatusKept s t
  operands : OperandsKept s t

/-- The effects of a refusal with an error code (rule R170). -/
structure RefusalOf (code : BitVec 4) (s t : State) : Prop where
  olen : t.olen = 0
  obuf_zero : ∀ a, t.obuf.read a = 0x00
  done : statusDone t.status = false
  err : statusErr t.status = true
  errcode : statusErrcode t.status = code
  sticky : statusSticky t.status = true
  others : OtherStatusKept s t
  operands : OperandsKept s t

/-- The invariant of every reachable state: the clauses of rule R23 that speak of one state, the ranges of rule R4, and the
canonical form and the size of the two buffers. -/
structure EngineInv (s : State) : Prop where
  params_legal : s.params.legal
  ibuf_wf : s.ibuf.wf = true
  ibuf_within : s.ibuf.within s.params.ibufBytes = true
  obuf_wf : s.obuf.wf = true
  olen_le : s.olen.toNat ≤ s.params.obufBytes
  obuf_within_olen : s.obuf.within s.olen.toNat = true
  reserved_zero : s.status &&& reservedBits = 0
  not_done_and_err : ¬(statusDone s.status = true ∧ statusErr s.status = true)
  err_iff_code : statusErr s.status = true ↔ statusErrcode s.status ≠ 0
  err_no_result : statusErr s.status = true → s.olen = 0
  code_assigned : (statusErrcode s.status).toNat ≤ 7

/-- All events to come are within the window: no access at or above offset 0x30000 (rule R30). -/
def ScriptInWindow (s : State) : Prop := ∀ e ∈ s.script, eventInWindow e = true

/-- A safe run: k steps that meet no fault and no refusal. -/
def RunsSafely (k : Nat) (s : State) : Prop := ∃ t, Sys2Proof.core.run k s = .next t

/-- Two states a command cannot tell apart: they agree on every operand register and buffer byte and on the parameters
(rules R17 and R41); STATUS, OBUF, OLEN and what is not the engine's may differ. -/
structure SameOperands (s s' : State) : Prop where
  key1 : s'.key1 = s.key1
  key2 : s'.key2 = s.key2
  iv : s'.iv = s.iv
  ibuf : ∀ a, s'.ibuf.read a = s.ibuf.read a
  ilen : s'.ilen = s.ilen
  params : s'.params = s.params

/-- The chain form of CBC-MAC (rule R100): `H_0 = zeros(n)`, `H_i = E(alg, K, xor(M_i, H_(i-1)))` over the blocks of the
padded string; the value is the last `H_k`. -/
def macChain (alg : Alg) (key padded : Bytes) : Bytes :=
  (blocks (blockSize alg) padded).foldl (fun h m => encryptBlock alg key (xorBytes m h)) (zeros (blockSize alg))

/-- The CMAC doubling on the block read as one big-endian number of 8n bits (rules R7 and R114): twice the number, the top
bit lost, with the constant in the low byte where the top bit was set. -/
def doubledNumber (n constant v : Nat) : Nat :=
  (2 * v % 2 ^ (8 * n)) ^^^ (if 2 ^ (8 * n - 1) ≤ v then constant else 0)

/-- The length of the string under scheme 1 (rule R94). -/
def pad1Length (len n : Nat) : Nat := if len = 0 then n else (len + n - 1) / n * n

/-- The accesses rule R34 refuses: a 32-bit access off the six register offsets (this covers misaligned ones and those into
a byte region), a write to a read-only register, an 8-bit access off the byte regions, an 8-bit write to OBUF, and any
access of another width. The reset event is no access. -/
def accessRefused (p : Params) : HostEvent → Prop
  | .read32 off => off ∉ [0x00000, 0x00004, 0x00008, 0x0000C, 0x00010, 0x00014]
  | .write32 off _ => off ∉ [0x00000, 0x00004, 0x00008]
  | .read8 off =>
    ¬(0x00040 ≤ off ∧ off < 0x00090) ∧ ¬(0x10000 ≤ off ∧ off < 0x10000 + p.ibufBytes)
      ∧ ¬(0x20000 ≤ off ∧ off < 0x20000 + p.obufBytes)
  | .write8 off _ => ¬(0x00040 ≤ off ∧ off < 0x00090) ∧ ¬(0x10000 ≤ off ∧ off < 0x10000 + p.ibufBytes)
  | .readOther _ => True
  | .writeOther _ => True
  | .reset => False

/-- The event is a read of the host. -/
def isRead : HostEvent → Bool
  | .read32 _ => true
  | .read8 _ => true
  | .readOther _ => true
  | .write32 _ _ => false
  | .write8 _ _ => false
  | .writeOther _ => false
  | .reset => false

/-- The commands that take a key, each with its family and the lengths of the keys it names (rule R163). -/
def keysNamed : Instr → List (Alg × Nat)
  | .ecbenc alg klen => [(alg, klenBytes klen)]
  | .ecbdec alg klen => [(alg, klenBytes klen)]
  | .cbcenc alg klen => [(alg, klenBytes klen)]
  | .cbcdec alg klen => [(alg, klenBytes klen)]
  | .pad1 _ _ => []
  | .pad2 _ _ => []
  | .pad3 _ _ => []
  | .cbcmac1 alg klen _ => [(alg, klenBytes klen)]
  | .cbcmac2 alg klen _ => [(alg, klenBytes klen)]
  | .cbcmac3 alg klen _ => [(alg, klenBytes klen)]
  | .rmac1 klen klen2 _ => [(.des, klenBytes klen), (.des, klenBytes klen2)]
  | .rmac2 klen klen2 _ => [(.des, klenBytes klen), (.des, klenBytes klen2)]
  | .rmac3 klen klen2 _ => [(.des, klenBytes klen), (.des, klenBytes klen2)]
  | .cmacsk alg klen => [(alg, klenBytes klen)]

/-- The j-th block of n bytes of a string. -/
def blockAt (n : Nat) (s : Bytes) (j : Nat) : Bytes := (s.drop (j * n)).take n

end Sys2Proof.Machine
end

