-- ==== Sys2Proof/Certificates/Slice0/Obligations.lean ====
section
/-! DEFINITION. The statements for the provers, from the numbered rules of spec/. A statement that speaks of a next state
says where it exists; a frame is said through `OperandsKept` (every operand register, IBUF byte by byte) and
`OtherStatusKept`, OBUF and OLEN being what every command writes whole (spec/20_memory.md rule R41). -/

open Sys2Proof Sys2Proof.Machine

/-! ## Encoding -/

/-- Rules R58, R61 and R65: decoding the word of a well-formed command gives the command back, every operand kept. -/
def Obligations.DecodeOfEncodeIsTheCommand : Prop :=
  ∀ i : Instr, i.wellFormed = true → decode (encode i) = .ok i

/-- Rules R58, R61 and R65, the other direction: a word that decodes is the word of the command it decodes to, and that
command is well-formed: one word, one command. -/
def Obligations.EncodeOfDecodeIsTheWord : Prop :=
  ∀ (w : Word) (i : Instr), decode w = .ok i → i.wellFormed = true ∧ encode i = w

/-- Rule R59: the illegal words are those that match no row, they are exactly those of the list (a) to (g), and writing one
to CMD is refused with ERR_ILLEGAL, code 1; it computes nothing. -/
def Obligations.IllegalWordsAreExactlyTheListed : Prop :=
  ∀ w : Word,
    let op := w.extractLsb' 0 8
    let alg := w.getLsbD 8
    let pad := w.extractLsb' 10 2
    let klen := w.extractLsb' 12 2
    let klen2 := w.extractLsb' 14 2
    let maclen := w.extractLsb' 16 8
    let blksz := w.extractLsb' 24 8
    ((∃ e, decode w = .error e) ↔ ∀ r ∈ opcodeMap, w &&& r.mask ≠ r.pattern)
    ∧ ((∃ e, decode w = .error e) ↔
      (op = 0x00 ∨ 0x09 ≤ op.toNat)
      ∨ w.getLsbD 9 = true
      ∨ ((op = 5 ∨ op = 6 ∨ op = 7) ∧ pad = 0)
      ∨ ((op = 1 ∨ op = 2 ∨ op = 3 ∨ op = 4 ∨ op = 8) ∧ (pad ≠ 0 ∨ klen2 ≠ 0 ∨ maclen ≠ 0 ∨ blksz ≠ 0))
      ∨ (op = 5 ∧ (klen ≠ 0 ∨ klen2 ≠ 0 ∨ maclen ≠ 0))
      ∨ (op = 6 ∧ (klen2 ≠ 0 ∨ blksz ≠ 0))
      ∨ (op = 7 ∧ (alg = true ∨ blksz ≠ 0)))
    ∧ ∀ e s, decode w = .error e → ∃ t, issueCommand w s = .next t ∧ RefusalOf 1 s t

/-- Rule R58: at most one row of the opcode map matches a word. -/
def Obligations.OpcodeRowsArePairwiseDisjoint : Prop :=
  opcodeMap.Pairwise fun r r' => ∀ w : Word, ¬(w &&& r.mask = r.pattern ∧ w &&& r'.mask = r'.pattern)

/-- Rule R61: the assembled words of the rule's examples decode to the commands they stand for. -/
def Obligations.WordsOfTheSpecDecode : Prop :=
  decode 0x00001001 = .ok (.ecbenc .des .k16) ∧ decode 0x00001004 = .ok (.cbcdec .des .k16)
  ∧ decode 0x00041406 = .ok (.cbcmac1 .des .k16 4) ∧ decode 0x00003906 = .ok (.cbcmac2 .aes .k32 0)
  ∧ decode 0x00000C05 = .ok (.pad3 .des 0) ∧ decode 0x04000505 = .ok (.pad1 .aes 4)
  ∧ decode 0x00000407 = .ok (.rmac1 .k8 .k8 0) ∧ decode 0x00001108 = .ok (.cmacsk .aes .k16)

/-! ## The step -/

/-- A step runs the decoded command: where the next event is the write of a word to CMD and the word decodes to i, the step
is `exec i` on the state with that event taken. -/
def Obligations.StepRunsTheWrittenCommand : Prop :=
  ∀ (s : State) (w : Word) (rest : List HostEvent) (i : Instr),
    s.script = .write32 0x00000 w :: rest → decode w = .ok i → step s = exec i { s with script := rest }

/-- Rule R162: a word that matches no row, written to CMD, is refused with code 1 in the same way whatever the operand
registers hold. -/
def Obligations.UnmatchedWordIsRefusedWithCodeOne : Prop :=
  ∀ (s : State) (w : Word) (rest : List HostEvent),
    s.script = .write32 0x00000 w :: rest → (∀ r ∈ opcodeMap, w &&& r.mask ≠ r.pattern) →
    ∃ t, step s = .next t ∧ RefusalOf 1 { s with script := rest } t

/-- No step refuses, and a step faults exactly where the next event is an access at or above offset 0x30000: a step that
does not answer next is that fault at such an access, and every such access faults. The fault is the model's choice
(notes/assumptions/5.md): the spec says only that such an offset is outside it. -/
def Obligations.StepStopsOnlyOutsideTheWindow : Prop :=
  (∀ s : State,
    (∃ t, step s = .next t) ∨ (step s = .fault .outsideWindow ∧
      ∃ e rest off, s.script = e :: rest ∧ eventOffset e = some off ∧ 0x30000 ≤ off))
  ∧ ∀ (s : State) (e : HostEvent) (rest : List HostEvent) (off : Nat),
      s.script = e :: rest → eventOffset e = some off → 0x30000 ≤ off → step s = .fault .outsideWindow

/-- A run whose events all lie in the window meets no fault and no refusal, however long it is; the fault it speaks of is
the model's choice (notes/assumptions/5.md). -/
def Obligations.RunsInTheWindowAreSafe : Prop :=
  ∀ (k : Nat) (s : State), ScriptInWindow s → RunsSafely k s

/-! ## Results of the commands -/

/-- ECBENC: with a legal key length, a whole number of blocks and room for the result, every block of OBUF is the
encryption of the same block of IBUF (rules R80, R84 and R85). -/
def Obligations.EcbencEnciphersEveryBlock : Prop :=
  ∀ (alg : Alg) (klen : KLen) (s : State),
    keyOK alg (klenBytes klen) = true → s.ilen.toNat ≤ s.params.ibufBytes → s.ilen.toNat % blockSize alg = 0 →
    s.ilen.toNat ≤ s.params.obufBytes →
    ∃ t, exec (.ecbenc alg klen) s = .next t ∧ SuccessOf s.ilen.toNat s t ∧
      ∀ j, j < s.ilen.toNat / blockSize alg →
        t.obuf.readBytes (j * blockSize alg) (blockSize alg)
          = encryptBlock alg (s.key1.toList.take (klenBytes klen))
              (s.ibuf.readBytes (j * blockSize alg) (blockSize alg))

/-- ECBDEC: every block of OBUF is the decryption of the same block of IBUF (rules R81, R84 and R86). -/
def Obligations.EcbdecDeciphersEveryBlock : Prop :=
  ∀ (alg : Alg) (klen : KLen) (s : State),
    keyOK alg (klenBytes klen) = true → s.ilen.toNat ≤ s.params.ibufBytes → s.ilen.toNat % blockSize alg = 0 →
    s.ilen.toNat ≤ s.params.obufBytes →
    ∃ t, exec (.ecbdec alg klen) s = .next t ∧ SuccessOf s.ilen.toNat s t ∧
      ∀ j, j < s.ilen.toNat / blockSize alg →
        t.obuf.readBytes (j * blockSize alg) (blockSize alg)
          = decryptBlock alg (s.key1.toList.take (klenBytes klen))
              (s.ibuf.readBytes (j * blockSize alg) (blockSize alg))

/-- CBCENC: every block of OBUF is the encryption of the same block of IBUF exclusive-ored with the block of OBUF before
it, the first with the IV register, which is kept (rules R82, R84 and R87). -/
def Obligations.CbcencChainsFromTheIV : Prop :=
  ∀ (alg : Alg) (klen : KLen) (s : State),
    keyOK alg (klenBytes klen) = true → s.ilen.toNat ≤ s.params.ibufBytes → s.ilen.toNat % blockSize alg = 0 →
    s.ilen.toNat ≤ s.params.obufBytes →
    ∃ t, exec (.cbcenc alg klen) s = .next t ∧ SuccessOf s.ilen.toNat s t ∧
      ∀ j, j < s.ilen.toNat / blockSize alg →
        t.obuf.readBytes (j * blockSize alg) (blockSize alg)
          = encryptBlock alg (s.key1.toList.take (klenBytes klen))
              (xorBytes (s.ibuf.readBytes (j * blockSize alg) (blockSize alg))
                (if j = 0 then s.iv.toList.take (blockSize alg)
                 else t.obuf.readBytes ((j - 1) * blockSize alg) (blockSize alg)))

/-- CBCDEC: every block of OBUF is the decryption of the same block of IBUF exclusive-ored with the block of IBUF before
it, the first with the IV register, which is kept (rules R83, R84 and R88). -/
def Obligations.CbcdecUnchainsFromTheIV : Prop :=
  ∀ (alg : Alg) (klen : KLen) (s : State),
    keyOK alg (klenBytes klen) = true → s.ilen.toNat ≤ s.params.ibufBytes → s.ilen.toNat % blockSize alg = 0 →
    s.ilen.toNat ≤ s.params.obufBytes →
    ∃ t, exec (.cbcdec alg klen) s = .next t ∧ SuccessOf s.ilen.toNat s t ∧
      ∀ j, j < s.ilen.toNat / blockSize alg →
        t.obuf.readBytes (j * blockSize alg) (blockSize alg)
          = xorBytes
              (decryptBlock alg (s.key1.toList.take (klenBytes klen))
                (s.ibuf.readBytes (j * blockSize alg) (blockSize alg)))
              (if j = 0 then s.iv.toList.take (blockSize alg)
               else s.ibuf.readBytes ((j - 1) * blockSize alg) (blockSize alg))

/-- PAD1: the input, then zero bytes to the next block boundary, one block of zeros for the empty input (rules R90, R94,
R95 and R96). -/
def Obligations.Pad1ZeroPadsTheInput : Prop :=
  ∀ (alg : Alg) (blksz : Nat) (s : State),
    let n := if blksz = 0 then blockSize alg else blksz
    let len := s.ilen.toNat
    s.params.legal → len ≤ s.params.ibufBytes → pad1Length len n ≤ s.params.obufBytes →
    ∃ t, exec (.pad1 alg blksz) s = .next t ∧ SuccessOf (pad1Length len n) s t ∧
      ∀ a, t.obuf.read a = if a < len then s.ibuf.read a else 0x00

/-- PAD2: the input, one 0x80 byte, zero bytes to the next block boundary (rules R91, R94, R95 and R97). -/
def Obligations.Pad2MarksTheEndOfTheInput : Prop :=
  ∀ (alg : Alg) (blksz : Nat) (s : State),
    let n := if blksz = 0 then blockSize alg else blksz
    let len := s.ilen.toNat
    s.params.legal → len ≤ s.params.ibufBytes → (len / n + 1) * n ≤ s.params.obufBytes →
    ∃ t, exec (.pad2 alg blksz) s = .next t ∧ SuccessOf ((len / n + 1) * n) s t ∧
      ∀ a, t.obuf.read a = if a < len then s.ibuf.read a else if a = len then 0x80 else 0x00

/-- PAD3: the bit length of the input as a big-endian prefix of p(n) bytes, then the input under scheme 1 (rules R92, R94,
R95 and R98). -/
def Obligations.Pad3PrefixesTheBitLength : Prop :=
  ∀ (alg : Alg) (blksz : Nat) (s : State),
    let n := if blksz = 0 then blockSize alg else blksz
    let p := if n ≥ 8 then 8 else if n ≥ 4 then 4 else n
    let len := s.ilen.toNat
    s.params.legal → len ≤ s.params.ibufBytes → 8 * len < 2 ^ (8 * p) → p + pad1Length len n ≤ s.params.obufBytes →
    ∃ t, exec (.pad3 alg blksz) s = .next t ∧ SuccessOf (p + pad1Length len n) s t ∧
      ∀ a, t.obuf.read a =
        if a < p then BitVec.ofNat 8 (8 * len / 256 ^ (p - 1 - a))
        else if a - p < len then s.ibuf.read (a - p) else 0x00

/-- CBCMAC1 and CBCMAC2: the first bytes of the last link of the chain over the padded input under the all-zero IV, for
either cipher family; the IV register plays no part (rules R100 to R104). -/
def Obligations.CbcmacOneAndTwoTruncateTheChain : Prop :=
  ∀ (alg : Alg) (klen : KLen) (maclen : Nat) (s : State),
    let m := if maclen = 0 then blockSize alg else maclen
    let key := s.key1.toList.take (klenBytes klen)
    let inp := s.ibuf.readBytes 0 s.ilen.toNat
    keyOK alg (klenBytes klen) = true → m ≤ blockSize alg → s.ilen.toNat ≤ s.params.ibufBytes →
    (∃ t, exec (.cbcmac1 alg klen maclen) s = .next t ∧ SuccessOf m s t ∧
      t.obuf.readBytes 0 m = (macChain alg key (pad1 inp (blockSize alg))).take m)
    ∧ (∃ t, exec (.cbcmac2 alg klen maclen) s = .next t ∧ SuccessOf m s t ∧
      t.obuf.readBytes 0 m = (macChain alg key (pad1 (inp ++ [0x80]) (blockSize alg))).take m)

/-- CBCMAC3 with ALG = DES: the same over the 8-byte bit length and the zero-padded input (rules R100 to R102 and R105). -/
def Obligations.CbcmacThreeOfDesTruncatesTheChain : Prop :=
  ∀ (klen : KLen) (maclen : Nat) (s : State),
    let m := if maclen = 0 then 8 else maclen
    let key := s.key1.toList.take (klenBytes klen)
    let inp := s.ibuf.readBytes 0 s.ilen.toNat
    keyOK .des (klenBytes klen) = true → m ≤ 8 → s.ilen.toNat ≤ s.params.ibufBytes →
    ∃ t, exec (.cbcmac3 .des klen maclen) s = .next t ∧ SuccessOf m s t ∧
      t.obuf.readBytes 0 m = (macChain .des key (be (8 * s.ilen.toNat) 8 ++ pad1 inp 8)).take m

/-- CBCMAC3 with ALG = AES is refused with ERR_DATALEN for every input once the first three checks pass (rules R102 and
R105). -/
def Obligations.CbcmacThreeOfAesIsAlwaysRefused : Prop :=
  ∀ (klen : KLen) (maclen : Nat) (s : State),
    keyOK .aes (klenBytes klen) = true → maclen ≤ 16 → s.ilen.toNat ≤ s.params.ibufBytes →
    ∃ t, exec (.cbcmac3 .aes klen maclen) s = .next t ∧ RefusalOf 6 s t

/-- RMAC1, RMAC2 and RMAC3: the first bytes of the zero block enciphered under key 2, whatever the data, key 1 and the
scheme (rules R106 to R111). -/
def Obligations.RetailMacCommandsEncipherTheZeroBlock : Prop :=
  ∀ (klen klen2 : KLen) (maclen : Nat) (s : State),
    ∀ i ∈ [Instr.rmac1 klen klen2 maclen, .rmac2 klen klen2 maclen, .rmac3 klen klen2 maclen],
    let m := if maclen = 0 then 8 else maclen
    keyOK .des (klenBytes klen) = true → keyOK .des (klenBytes klen2) = true → m ≤ 8 →
    s.ilen.toNat ≤ s.params.ibufBytes →
    ∃ t, exec i s = .next t ∧ SuccessOf m s t ∧
      t.obuf.readBytes 0 m = (encryptBlock .des (s.key2.toList.take (klenBytes klen2)) (zeros 8)).take m

/-- CMACSK: k1 is the doubling of the enciphered zero block and k2 the doubling of k1, as big-endian numbers, k1 first; ILEN
may hold any value (rules R114 to R116). -/
def Obligations.CmacskReturnsTheSubkeyPair : Prop :=
  ∀ (alg : Alg) (klen : KLen) (s : State),
    let n := blockSize alg
    let constant := match alg with | .des => 0x1B | .aes => 0x87
    let l := int (encryptBlock alg (s.key1.toList.take (klenBytes klen)) (zeros n))
    keyOK alg (klenBytes klen) = true →
    ∃ t, exec (.cmacsk alg klen) s = .next t ∧ SuccessOf (2 * n) s t ∧
      int (t.obuf.readBytes 0 n) = doubledNumber n constant l ∧
      int (t.obuf.readBytes n n) = doubledNumber n constant (doubledNumber n constant l)

/-! ## Which error a command reports -/

/-- ECBENC, ECBDEC, CBCENC and CBCDEC report the first of ERR_KEYLEN, ERR_ILEN, ERR_DATALEN and ERR_OVERFLOW that applies
(rules R84 and R169). -/
def Obligations.ModeCommandsReportTheFirstError : Prop :=
  ∀ (alg : Alg) (klen : KLen) (s : State),
    ∀ i ∈ [Instr.ecbenc alg klen, .ecbdec alg klen, .cbcenc alg klen, .cbcdec alg klen],
    ∃ t, exec i s = .next t ∧ statusErrcode t.status =
      if keyOK alg (klenBytes klen) = false then 2
      else if s.ilen.toNat > s.params.ibufBytes then 4
      else if s.ilen.toNat % blockSize alg ≠ 0 then 6
      else if s.ilen.toNat > s.params.obufBytes then 7
      else 0

/-- PAD1, PAD2 and PAD3 report the first of ERR_ILEN, ERR_PADLEN (PAD3 only) and ERR_OVERFLOW that applies (rules R95 and
R169). -/
def Obligations.PadCommandsReportTheFirstError : Prop :=
  ∀ (alg : Alg) (blksz : Nat) (s : State),
    let n := if blksz = 0 then blockSize alg else blksz
    let p := if n ≥ 8 then 8 else if n ≥ 4 then 4 else n
    let len := s.ilen.toNat
    (∃ t, exec (.pad1 alg blksz) s = .next t ∧ statusErrcode t.status =
      if len > s.params.ibufBytes then 4 else if pad1Length len n > s.params.obufBytes then 7 else 0)
    ∧ (∃ t, exec (.pad2 alg blksz) s = .next t ∧ statusErrcode t.status =
      if len > s.params.ibufBytes then 4 else if (len / n + 1) * n > s.params.obufBytes then 7 else 0)
    ∧ (∃ t, exec (.pad3 alg blksz) s = .next t ∧ statusErrcode t.status =
      if len > s.params.ibufBytes then 4
      else if 8 * len ≥ 2 ^ (8 * p) then 5
      else if p + pad1Length len n > s.params.obufBytes then 7 else 0)

/-- CBCMAC1, CBCMAC2 and CBCMAC3 report the first of ERR_KEYLEN, ERR_MACLEN, ERR_ILEN and ERR_DATALEN (CBCMAC3 with AES
only) that applies (rules R102 and R169). -/
def Obligations.CbcmacCommandsReportTheFirstError : Prop :=
  ∀ (alg : Alg) (klen : KLen) (maclen : Nat) (s : State),
    ∀ i ∈ [Instr.cbcmac1 alg klen maclen, .cbcmac2 alg klen maclen, .cbcmac3 alg klen maclen],
    ∃ t, exec i s = .next t ∧ statusErrcode t.status =
      if keyOK alg (klenBytes klen) = false then 2
      else if maclen > blockSize alg then 3
      else if s.ilen.toNat > s.params.ibufBytes then 4
      else if i = .cbcmac3 .aes klen maclen then 6
      else 0

/-- RMAC1, RMAC2 and RMAC3 report the first of ERR_KEYLEN (for either key), ERR_MACLEN and ERR_ILEN that applies (rules
R108 and R169). -/
def Obligations.RetailMacCommandsReportTheFirstError : Prop :=
  ∀ (klen klen2 : KLen) (maclen : Nat) (s : State),
    ∀ i ∈ [Instr.rmac1 klen klen2 maclen, .rmac2 klen klen2 maclen, .rmac3 klen klen2 maclen],
    ∃ t, exec i s = .next t ∧ statusErrcode t.status =
      if klen = .k32 ∨ klen2 = .k32 then 2
      else if maclen > 8 then 3
      else if s.ilen.toNat > s.params.ibufBytes then 4
      else 0

/-- CMACSK reports ERR_KEYLEN and nothing else, whatever ILEN holds (rules R116 and R169). -/
def Obligations.CmacskReportsOnlyTheKeyLength : Prop :=
  ∀ (alg : Alg) (klen : KLen) (s : State),
    ∃ t, exec (.cmacsk alg klen) s = .next t ∧ statusErrcode t.status =
      if keyOK alg (klenBytes klen) = false then 2 else 0

/-- Rule R71: the legal key lengths of the two families, and the refusal with ERR_KEYLEN of every command that names
another. -/
def Obligations.KeyLengthsOutsideTheFamilyAreRefused : Prop :=
  (∀ n, keyOK .des n = true ↔ n = 8 ∨ n = 16 ∨ n = 24) ∧ (∀ n, keyOK .aes n = true ↔ n = 16 ∨ n = 24 ∨ n = 32) ∧
  ∀ (i : Instr) (s : State), (∃ k ∈ keysNamed i, keyOK k.1 k.2 = false) → ∃ t, exec i s = .next t ∧ RefusalOf 2 s t

/-! ## What every command does and leaves -/

/-- Every command ends in exactly one of two ways: success, or refusal with a code of 2 to 7 (1 belongs to words that name
no command) (rules R160, R161 and R170). -/
def Obligations.EveryCommandSucceedsOrIsRefused : Prop :=
  ∀ (i : Instr) (s : State), s.params.legal →
    ∃ t, exec i s = .next t ∧
      (((∃ len, len ≤ s.params.obufBytes ∧ SuccessOf len s t) ∧ statusErr t.status = false)
        ∨ (∃ code : BitVec 4, 2 ≤ code.toNat ∧ code.toNat ≤ 7 ∧ RefusalOf code s t))

/-- The frame of all fourteen commands: every operand register, every byte of IBUF, ILEN and the bits of STATUS that no
command writes are unchanged (rules R11 to R13, R17, R41 and R170). -/
def Obligations.CommandsKeepTheirOperands : Prop :=
  ∀ (i : Instr) (s t : State), exec i s = .next t → OperandsKept s t ∧ OtherStatusKept s t

/-- Rule R161: the effects of a success with result string r. -/
def Obligations.FinishLeavesTheResultAndZeros : Prop :=
  ∀ (r : Bytes) (s : State), s.params.legal → r.length ≤ s.params.obufBytes →
    SuccessOf r.length s (finish r s) ∧ (finish r s).obuf.readBytes 0 r.length = r

/-- Rule R170: the effects of a refusal, for each of the seven codes. -/
def Obligations.RefusalLeavesNoResult : Prop :=
  ∀ (code : ErrCode) (s : State),
    RefusalOf
      (match code with
        | .illegal => 1 | .keylen => 2 | .maclen => 3 | .ilen => 4 | .padlen => 5 | .datalen => 6 | .overflow => 7)
      s (raiseCmdError code s)

/-- Whether a command is refused, and with which code, never depends on a key, the IV or a data byte: two states that agree
on ILEN and the parameters have the same outcome (rule R169). -/
def Obligations.RefusalDependsOnNoSecret : Prop :=
  ∀ (i : Instr) (s s' : State), s.ilen = s'.ilen → s.params = s'.params →
    ∃ t t', exec i s = .next t ∧ exec i s' = .next t' ∧ statusErr t.status = statusErr t'.status
      ∧ statusErrcode t.status = statusErrcode t'.status

/-- No command reads STATUS, OBUF or OLEN: two states with the same operands have the same result and the same outcome
(rules R17, R41 and R14). -/
def Obligations.OutcomeDependsOnTheOperandsAlone : Prop :=
  ∀ (i : Instr) (s s' : State), SameOperands s s' →
    ∃ t t', exec i s = .next t ∧ exec i s' = .next t' ∧ t'.obuf = t.obuf ∧ t'.olen = t.olen
      ∧ statusDone t'.status = statusDone t.status ∧ statusErr t'.status = statusErr t.status
      ∧ statusErrcode t'.status = statusErrcode t.status

/-- The same command issued again with no operand change between leaves the whole state as it is (rule R35). -/
def Obligations.RepeatedCommandChangesNothing : Prop :=
  ∀ (i : Instr) (s t : State), exec i s = .next t → exec i t = .next t

/-! ## The functions behind the commands -/

/-- Rule R74: for each family, each legal key and each block, E and D give blocks of the family's size and undo each
other. -/
def Obligations.BlockFunctionsAreInverse : Prop :=
  ∀ (alg : Alg) (key b : Bytes), keyOK alg key.length = true → b.length = blockSize alg →
    (encryptBlock alg key b).length = blockSize alg ∧ (decryptBlock alg key b).length = blockSize alg
    ∧ decryptBlock alg key (encryptBlock alg key b) = b ∧ encryptBlock alg key (decryptBlock alg key b) = b

/-- Rule R131: single DES decryption undoes encryption and the reverse; the lowest bit of every key byte has no effect; and
the rule's example, with its first and last subkey. -/
def Obligations.SingleDesInvertsAndIgnoresParity : Prop :=
  (∀ k b : Bytes, k.length = 8 → b.length = 8 → desDecrypt k (desEncrypt k b) = b ∧ desEncrypt k (desDecrypt k b) = b)
  ∧ (∀ k k' : Bytes, k.length = 8 → k'.length = 8 →
      k.map (fun x => x &&& 0xFE) = k'.map (fun x => x &&& 0xFE) →
      ∀ b : Bytes, desEncrypt k b = desEncrypt k' b ∧ desDecrypt k b = desDecrypt k' b)
  ∧ (∀ k b : Bytes, desDecrypt k b = be (desCore (desSubkeys (bits64 k)).reverse (bits64 b)).toNat 8)
  ∧ desEncrypt (be 0x133457799BBCDFF1 8) (be 0x0123456789ABCDEF 8) = be 0x85E813540F0AB405 8
  ∧ desEncrypt (be 0x123456789ABCDEF0 8) (be 0x0123456789ABCDEF 8) = be 0x85E813540F0AB405 8
  ∧ (desSubkeys 0x133457799BBCDFF1)[0]? = some 0x1B02EFFC7072 ∧ (desSubkeys 0x133457799BBCDFF1)[15]? = some 0xCB3D8B0E17F5

/-- Rule R72: the DES-family block functions for the three key lengths. A 24-byte key is K1, K2, K3 in the order
encrypt, decrypt, encrypt, and the reverse for D; a 16-byte key uses its first half as the third key; an 8-byte key is
single DES, and so is a 24-byte key with three equal thirds; each said of E and of D. -/
def Obligations.TripleDesKeyingOptions : Prop :=
  ∀ k1 k2 k3 b : Bytes, k1.length = 8 → k2.length = 8 → k3.length = 8 → b.length = 8 →
    (encryptBlock .des (k1 ++ k2 ++ k3) b = desEncrypt k3 (desDecrypt k2 (desEncrypt k1 b))
      ∧ decryptBlock .des (k1 ++ k2 ++ k3) b = desDecrypt k1 (desEncrypt k2 (desDecrypt k3 b)))
    ∧ (encryptBlock .des (k1 ++ k2) b = desEncrypt k1 (desDecrypt k2 (desEncrypt k1 b))
      ∧ decryptBlock .des (k1 ++ k2) b = desDecrypt k1 (desEncrypt k2 (desDecrypt k1 b)))
    ∧ (encryptBlock .des k1 b = desEncrypt k1 b ∧ decryptBlock .des k1 b = desDecrypt k1 b)
    ∧ encryptBlock .des (k1 ++ k1 ++ k1) b = desEncrypt k1 b ∧ decryptBlock .des (k1 ++ k1 ++ k1) b = desDecrypt k1 b

/-- The printed S-box is the one rule R142 defines: the inverse in GF(2^8), 0 for 0, then the affine map; and the printed
inverse S-box undoes it (rule R143). -/
def Obligations.AesSBoxIsInverseThenAffine : Prop :=
  (∀ a : Byte, ∃ x : Byte, (a = 0 → x = 0) ∧ (a ≠ 0 → gfMul x.toNat a = 1) ∧
    subByte a = x ^^^ x.rotateLeft 1 ^^^ x.rotateLeft 2 ^^^ x.rotateLeft 3 ^^^ x.rotateLeft 4 ^^^ 0x63)
  ∧ ∀ a : Byte, invSubByte (subByte a) = a ∧ subByte (invSubByte a) = a

/-- Rule R81: ECB decryption deciphers each block on its own and undoes ECB encryption. -/
def Obligations.EcbDecryptionUndoesEncryption : Prop :=
  ∀ (alg : Alg) (key s : Bytes), keyOK alg key.length = true → s.length % blockSize alg = 0 →
    (ecbDec alg key s).length = s.length
    ∧ (∀ i, i < s.length / blockSize alg →
        blockAt (blockSize alg) (ecbDec alg key s) i = decryptBlock alg key (blockAt (blockSize alg) s i))
    ∧ ecbDec alg key (ecbEnc alg key s) = s

/-- Rule R83: CBC decryption deciphers each block and exclusive-ors the cipher block before it, the IV for the first; it
undoes CBC encryption under the same IV; and a wrong IV damages only the first plaintext block. -/
def Obligations.CbcDecryptionUndoesEncryption : Prop :=
  ∀ (alg : Alg) (key iv s : Bytes), keyOK alg key.length = true → iv.length = blockSize alg →
    s.length % blockSize alg = 0 →
    (cbcDec alg key iv s).length = s.length
    ∧ (∀ i, i < s.length / blockSize alg →
        blockAt (blockSize alg) (cbcDec alg key iv s) i
          = xorBytes (decryptBlock alg key (blockAt (blockSize alg) s i))
              (if i = 0 then iv else blockAt (blockSize alg) s (i - 1)))
    ∧ cbcDec alg key iv (cbcEnc alg key iv s) = s
    ∧ ∀ iv' : Bytes, iv'.length = blockSize alg →
        (cbcDec alg key iv' s).drop (blockSize alg) = (cbcDec alg key iv s).drop (blockSize alg)

/-- Rule R94: the lengths of the padded strings and their bounds; the result of every command is at most 263 bytes for an
empty input and at most L + 262 bytes for a non-empty one, and PAD3 with block size 255 reaches the 263. -/
def Obligations.PaddedLengths : Prop :=
  (∀ (s : Bytes) (n : Nat), 1 ≤ n →
    let len := s.length
    let p := if n ≥ 8 then 8 else if n ≥ 4 then 4 else n
    ((pad1 s n).length = if len = 0 then n else (len + n - 1) / n * n)
    ∧ (0 < len → len ≤ (pad1 s n).length ∧ (pad1 s n).length ≤ len + n - 1)
    ∧ (pad2 s n).length = (len / n + 1) * n ∧ len + 1 ≤ (pad2 s n).length ∧ (pad2 s n).length ≤ len + n
    ∧ (pad3 s n).length = p + (pad1 s n).length
    ∧ (n ≤ 255 → ∀ q, (pad q s n).length ≤ if len = 0 then 263 else len + 262)
    ∧ (n = 255 → len = 0 → (pad3 s n).length = 263)
    ∧ (n ≤ 255 → len ≤ 65536 → ∀ q, (pad q s n).length < 2 ^ 32))
  ∧ (∀ (i : Instr) (s t : State), i.wellFormed = true → exec i s = .next t →
      t.olen.toNat ≤ if s.ilen.toNat = 0 then 263 else s.ilen.toNat + 262)
  ∧ ∀ (alg : Alg) (s : State), s.ilen = 0 → 263 ≤ s.params.obufBytes →
      ∃ t, exec (.pad3 alg 255) s = .next t ∧ t.olen.toNat = 263

/-- Rule R107: the retail MAC is the first bytes of the zero block enciphered under key 2, for every data string, every
scheme and every key 1. -/
def Obligations.RetailMacIgnoresDataAndKeyOne : Prop :=
  ∀ (k1 k2 s : Bytes) (q : PadScheme) (m : Nat),
    retailmac k1 k2 s q m = (encryptBlock .des k2 (zeros 8)).take m

/-! ## Round trips through the machine -/

/-- A host that gives the result of a successful ECBENC or CBCENC back as input, with the same key and IV, and issues ECBDEC
or CBCDEC with the same ALG and KLEN, reads the original input in OBUF (rules R83, R86 and R88). -/
def Obligations.DecryptingTheResultReturnsTheInput : Prop :=
  ∀ (alg : Alg) (klen : KLen) (s t u : State),
    ∀ p ∈ [(Instr.ecbenc alg klen, Instr.ecbdec alg klen), (.cbcenc alg klen, .cbcdec alg klen)],
    exec p.1 s = .next t → statusDone t.status = true →
    u.key1 = s.key1 → u.iv = s.iv → u.ilen = s.ilen → u.params = s.params →
    (∀ a, a < s.ilen.toNat → u.ibuf.read a = t.obuf.read a) →
    ∃ v, exec p.2 u = .next v ∧ SuccessOf s.ilen.toNat u v ∧ ∀ a, a < s.ilen.toNat → v.obuf.read a = s.ibuf.read a

/-! ## The host port -/

/-- Rule R32 and the read column of rule R31: what a 32-bit read returns at each offset of the window; an accepted read
changes no state of the engine, any other is refused. -/
def Obligations.WordReads : Prop :=
  ∀ (s : State) (off : Nat) (rest : List HostEvent), off < 0x30000 → s.script = .read32 off :: rest →
    step s = .next
      (if off = 0x00000 then { s with script := rest, lastRead := some 0 }
       else if off = 0x00004 then { s with script := rest, lastRead := some s.status }
       else if off = 0x00008 then { s with script := rest, lastRead := some s.ilen }
       else if off = 0x0000C then { s with script := rest, lastRead := some s.olen }
       else if off = 0x00010 then { s with script := rest, lastRead := some (BitVec.ofNat 32 s.params.ibufBytes) }
       else if off = 0x00014 then { s with script := rest, lastRead := some (BitVec.ofNat 32 s.params.obufBytes) }
       else { s with script := rest, lastRead := some 0, status := s.status ||| 0x00000200 })

/-- Rule R33: what a 32-bit write does at each offset of the window. -/
def Obligations.WordWrites : Prop :=
  ∀ (s : State) (off : Nat) (v : Word) (rest : List HostEvent), off < 0x30000 → s.script = .write32 off v :: rest →
    step s =
      (if off = 0x00000 then issueCommand v { s with script := rest }
       else if off = 0x00004 then .next { s with script := rest, status := s.status &&& ~~~(v &&& 0x00000300) }
       else if off = 0x00008 then .next { s with script := rest, ilen := v }
       else .next { s with script := rest, status := s.status ||| 0x00000200 })

/-- The 8-bit reads of the byte regions: 0x00 from a key register, the byte from IV, IBUF and OBUF; the engine is unchanged
(rules R11, R12, R31 and R34). -/
def Obligations.ByteReads : Prop :=
  ∀ (s : State) (rest : List HostEvent), s.params.legal →
    (∀ off, 0x40 ≤ off → off < 0x80 → s.script = .read8 off :: rest →
      step s = .next { s with script := rest, lastRead := some 0 })
    ∧ (∀ i : Fin 16, s.script = .read8 (0x80 + i.val) :: rest →
      step s = .next { s with script := rest, lastRead := some (s.iv[i].setWidth 32) })
    ∧ (∀ a, a < s.params.ibufBytes → s.script = .read8 (0x10000 + a) :: rest →
      step s = .next { s with script := rest, lastRead := some ((s.ibuf.read a).setWidth 32) })
    ∧ (∀ a, a < s.params.obufBytes → s.script = .read8 (0x20000 + a) :: rest →
      step s = .next { s with script := rest, lastRead := some ((s.obuf.read a).setWidth 32) })

/-- The 8-bit writes of the key registers and the IV: the one byte takes the value, every other byte and all else of the
state stays (rules R11, R12, R31 and R34). -/
def Obligations.KeyAndIVByteWrites : Prop :=
  ∀ (s : State) (v : Byte) (rest : List HostEvent),
    (∀ i : Fin 32, s.script = .write8 (0x40 + i.val) v :: rest →
      ∃ k, step s = .next { s with script := rest, key1 := k } ∧ ∀ j : Fin 32, k[j] = if j = i then v else s.key1[j])
    ∧ (∀ i : Fin 32, s.script = .write8 (0x60 + i.val) v :: rest →
      ∃ k, step s = .next { s with script := rest, key2 := k } ∧ ∀ j : Fin 32, k[j] = if j = i then v else s.key2[j])
    ∧ (∀ i : Fin 16, s.script = .write8 (0x80 + i.val) v :: rest →
      ∃ k, step s = .next { s with script := rest, iv := k } ∧ ∀ j : Fin 16, k[j] = if j = i then v else s.iv[j])

/-- The 8-bit write of an IBUF byte: that byte takes the value, every other address of IBUF reads as before, all else of the
state stays (rules R13, R31 and R34). -/
def Obligations.InputBufferByteWrite : Prop :=
  ∀ (s : State) (a : Nat) (v : Byte) (rest : List HostEvent),
    s.ibuf.wf = true → s.params.legal → a < s.params.ibufBytes → s.script = .write8 (0x10000 + a) v :: rest →
    ∃ m, step s = .next { s with script := rest, ibuf := m } ∧ m.read a = v ∧ ∀ b, b ≠ a → m.read b = s.ibuf.read b

/-- Rule R173: the whole effect of a refused access is ACCERR = 1, a refused read returns zero; ACCERR, once set, stays
until the host writes a word with bit 9 set to STATUS, or reset; and reads of key bytes are accepted. -/
def Obligations.RefusedAccessOnlySetsAccerr : Prop :=
  (∀ (s : State) (e : HostEvent) (rest : List HostEvent), eventInWindow e = true →
    s.script = e :: rest → accessRefused s.params e →
    step s = .next { s with
      script := rest, status := s.status ||| 0x00000200, lastRead := if isRead e then some 0 else s.lastRead })
  ∧ (∀ (s t : State), step s = .next t → statusAccerr s.status = true → statusAccerr t.status = false →
      ∃ e rest, s.script = e :: rest ∧ (e = .reset ∨ ∃ v : Word, e = .write32 0x00004 v ∧ v.getLsbD 9 = true))
  ∧ (∀ (s : State) (off : Nat) (rest : List HostEvent), 0x40 ≤ off → off < 0x80 → s.script = .read8 off :: rest →
      step s = .next { s with script := rest, lastRead := some 0 })

/-- Who writes STICKY: a refused command sets it, a host write of STATUS with bit 8 set and the reset event clear it, and no
other event changes it (rules R16, R17 and R171). -/
def Obligations.StickyTracksRefusedCommands : Prop :=
  ∀ (s t : State) (e : HostEvent) (rest : List HostEvent), s.script = e :: rest → step s = .next t →
    statusSticky t.status =
      match e with
      | .reset => false
      | .write32 off v =>
        if off = 0x00000 then statusSticky s.status || statusErr t.status
        else if off = 0x00004 then statusSticky s.status && !v.getLsbD 8
        else statusSticky s.status
      | .read32 _ => statusSticky s.status
      | .read8 _ => statusSticky s.status
      | .write8 _ _ => statusSticky s.status
      | .readOther _ => statusSticky s.status
      | .writeOther _ => statusSticky s.status

/-- A host write of v to STATUS clears bit 8 where v[8] = 1 and bit 9 where v[9] = 1, and changes nothing else of the state,
bit by bit (rule R16). -/
def Obligations.StatusWriteClearsOnlyTheStickyBits : Prop :=
  ∀ (s : State) (v : Word) (rest : List HostEvent), s.script = .write32 0x00004 v :: rest →
    ∃ st : Word, step s = .next { s with script := rest, status := st } ∧
      ∀ i, i < 32 → st.getLsbD i = if i = 8 ∨ i = 9 then (s.status.getLsbD i && !v.getLsbD i) else s.status.getLsbD i

/-- Rule R18: IBUFSZ and OBUFSZ read as the parameters, a host write to either is refused, and no step, the reset event
among them, changes them. -/
def Obligations.SizeRegistersReadTheParameters : Prop :=
  (∀ (s : State) (rest : List HostEvent), s.params.legal → s.script = .read32 0x00010 :: rest →
    ∃ v : Word, step s = .next { s with script := rest, lastRead := some v } ∧ v.toNat = s.params.ibufBytes)
  ∧ (∀ (s : State) (rest : List HostEvent), s.params.legal → s.script = .read32 0x00014 :: rest →
    ∃ v : Word, step s = .next { s with script := rest, lastRead := some v } ∧ v.toNat = s.params.obufBytes)
  ∧ (∀ (s : State) (rest : List HostEvent) (off : Nat) (v : Word), off = 0x00010 ∨ off = 0x00014 →
    s.script = .write32 off v :: rest →
    step s = .next { s with script := rest, status := s.status ||| 0x00000200 })
  ∧ (∀ s t : State, step s = .next t → t.params = s.params)

/-! ## Reset -/

/-- Rules R19 and R181: after the reset event, whatever the state before it, every register and every buffer byte is 0; the
constants are as always. -/
def Obligations.ResetEventZeroesTheEngine : Prop :=
  ∀ (s : State) (rest : List HostEvent), s.script = .reset :: rest →
    ∃ t, step s = .next t ∧ (∀ i : Fin 32, t.key1[i] = 0 ∧ t.key2[i] = 0) ∧ (∀ i : Fin 16, t.iv[i] = 0)
      ∧ (∀ a, t.ibuf.read a = 0) ∧ t.ilen = 0 ∧ (∀ a, t.obuf.read a = 0) ∧ t.olen = 0 ∧ t.status = 0
      ∧ t.params = s.params

/-- The reset event leaves the events to come and the value last read as they are: these two fields are the model's, not the
engine's, and that they stay is the model's choice (notes/assumptions/4.md). -/
def Obligations.ResetEventKeepsTheHostsFields : Prop :=
  ∀ (s : State) (rest : List HostEvent), s.script = .reset :: rest →
    ∃ t, step s = .next t ∧ t.script = rest ∧ t.lastRead = s.lastRead

/-- The state every run starts from has every bit of the engine 0 (rules R19, R180 and R181). -/
def Obligations.ResetStateIsAllZero : Prop :=
  (∀ i : Fin 32, State.reset.key1[i] = 0 ∧ State.reset.key2[i] = 0) ∧ (∀ i : Fin 16, State.reset.iv[i] = 0)
    ∧ (∀ a, State.reset.ibuf.read a = 0) ∧ State.reset.ilen = 0 ∧ (∀ a, State.reset.obuf.read a = 0)
    ∧ State.reset.olen = 0 ∧ State.reset.status = 0

/-! ## The invariant -/

/-- The state after reset meets the invariant, in every configuration rule R4 allows. -/
def Obligations.ResetMeetsTheInvariant : Prop :=
  EngineInv State.reset ∧ ∀ p : Params, p.legal → EngineInv (State.resetFor p)

/-- Every step keeps the invariant of rule R23: OLEN within OBUF, zero bytes at and after OLEN, reserved bits zero, never
DONE with ERR, ERR exactly when ERRCODE is not 0, no result with ERR; with it the canonical form of both buffers. -/
def Obligations.StepKeepsTheInvariant : Prop :=
  ∀ s t : State, EngineInv s → step s = .next t → EngineInv t

/-- ERR = 1 implies STICKY = 1 unless the host cleared STICKY: a step that leaves ERR without STICKY either was a host write
of STATUS with bit 8 set, or found the state so (rule R23). -/
def Obligations.ErrImpliesStickyUntilTheHostClearsIt : Prop :=
  ∀ s t : State, step s = .next t → statusErr t.status = true → statusSticky t.status = false →
    (∃ (v : Word) (rest : List HostEvent), s.script = .write32 0x00004 v :: rest ∧ v.getLsbD 8 = true)
    ∨ (statusErr s.status = true ∧ statusSticky s.status = false)
end

