-- ==== Sys2Proof/Laws/Bytes.lean ====
section
/-! SUPPORT. The laws of byte strings: lengths, the big-endian encoding and its inverse, exclusive-or, and the split into
blocks (spec/00_scope.md rules R6 and R7). -/

namespace Sys2Proof.Machine

@[simp] theorem length_zeros (n : Nat) : (zeros n).length = n := by simp [zeros]

@[simp] theorem length_be (v n : Nat) : (be v n).length = n := by
  induction n with
  | zero => rfl
  | succ n ih => simp [be, ih]

@[simp] theorem length_xorBytes (s t : Bytes) : (xorBytes s t).length = min s.length t.length := by
  simp [xorBytes]

theorem xorBytes_comm (s t : Bytes) : xorBytes s t = xorBytes t s := by
  simp [xorBytes, List.zipWith_comm_of_comm (BitVec.xor_comm)]

/-- The exclusive-or of a string with itself is the zero string. -/
theorem xorBytes_self (s : Bytes) : xorBytes s s = zeros s.length := by
  induction s with
  | nil => rfl
  | cons b s ih =>
    simp only [xorBytes, zeros, List.zipWith_cons_cons, BitVec.xor_self, List.length_cons, List.replicate_succ] at ih ⊢
    rw [ih]
    rfl

/-- Exclusive-or with the same string twice gives the string back. -/
theorem xorBytes_cancel (s t : Bytes) (h : s.length = t.length) : xorBytes (xorBytes s t) t = s := by
  induction s generalizing t with
  | nil => rfl
  | cons b s ih =>
    cases t with
    | nil => simp at h
    | cons c t =>
      have := ih t (by simpa using h)
      simp only [xorBytes, List.zipWith_cons_cons] at this ⊢
      rw [this, BitVec.xor_assoc, BitVec.xor_self, BitVec.xor_zero]

theorem int_append (s : Bytes) (b : Byte) : int (s ++ [b]) = int s * 256 + b.toNat := by
  simp [int, List.foldl_append]

theorem foldl_int (s : Bytes) (v : Nat) :
    s.foldl (fun v b => v * 256 + b.toNat) v = v * 256 ^ s.length + int s := by
  induction s generalizing v with
  | nil => simp [int]
  | cons b s ih =>
    simp only [List.foldl_cons, List.length_cons, int]
    rw [ih, ih (0 * 256 + b.toNat)]
    ring

theorem int_cons (b : Byte) (s : Bytes) : int (b :: s) = b.toNat * 256 ^ s.length + int s := by
  rw [int, List.foldl_cons, foldl_int]
  ring

/-- The number of a string of n bytes is below 2^(8n). -/
theorem int_lt (s : Bytes) : int s < 256 ^ s.length := by
  induction s with
  | nil => simp [int]
  | cons b s ih =>
    rw [int_cons, List.length_cons, pow_succ]
    have hb : b.toNat ≤ 255 := by have := b.isLt; omega
    have := Nat.mul_le_mul_right (256 ^ s.length) hb
    omega

/-- The number of the n-byte encoding of v is v modulo 2^(8n). -/
theorem int_be (v n : Nat) : int (be v n) = v % 256 ^ n := by
  induction n with
  | zero => simp [be, int, Nat.mod_one]
  | succ n ih =>
    have split : v % (256 ^ n * 256) = v % 256 ^ n + 256 ^ n * (v / 256 ^ n % 256) := Nat.mod_mul
    rw [be, int_cons, ih, length_be, BitVec.toNat_ofNat, Nat.pow_succ 256 n, split, Nat.add_comm, Nat.mul_comm]

theorem be_add_mul (x w n : Nat) : be (x + 256 ^ n * w) n = be x n := by
  induction n generalizing w with
  | zero => rfl
  | succ n ih =>
    rw [be, be, show x + 256 ^ (n + 1) * w = x + 256 ^ n * (256 * w) by rw [pow_succ, mul_assoc], ih,
      Nat.add_mul_div_left _ _ (by positivity)]
    congr 1
    apply BitVec.eq_of_toNat_eq
    simp only [BitVec.toNat_ofNat]
    omega

/-- The encoding of a string's number in as many bytes as it has is the string. -/
theorem be_int (s : Bytes) : be (int s) s.length = s := by
  induction s with
  | nil => rfl
  | cons b s ih =>
    have hpos : 0 < 256 ^ s.length := by positivity
    rw [int_cons, List.length_cons, be]
    have hd : (b.toNat * 256 ^ s.length + int s) / 256 ^ s.length = b.toNat := by
      rw [Nat.mul_comm, Nat.mul_add_div hpos, Nat.div_eq_of_lt (int_lt s), Nat.add_zero]
    rw [hd, BitVec.ofNat_toNat, BitVec.setWidth_eq, Nat.add_comm, Nat.mul_comm, be_add_mul, ih]

/-- A string has as many blocks as its length has whole multiples of n. -/
@[simp] theorem length_blocks (n : Nat) (s : Bytes) : (blocks n s).length = s.length / n := by simp [blocks]

/-- Every block has n bytes. -/
theorem length_of_mem_blocks (n : Nat) (s b : Bytes) (h : b ∈ blocks n s) : b.length = n := by
  simp only [blocks, List.mem_map, List.mem_range] at h
  obtain ⟨i, hi, rfl⟩ := h
  have : (i + 1) * n ≤ s.length := le_trans (Nat.mul_le_mul_right n hi) (Nat.div_mul_le_self _ _)
  rw [Nat.add_mul] at this
  rw [List.length_take, List.length_drop]
  omega

theorem blocks_append (n : Nat) (b s : Bytes) (hb : b.length = n) (hn : 0 < n) :
    blocks n (b ++ s) = b :: blocks n s := by
  subst hb
  rw [blocks, List.length_append, Nat.add_div_left _ hn, List.range_succ_eq_map, List.map_cons, List.map_map, blocks]
  congr 1
  · simp
  · apply List.map_congr_left
    intro i _
    simp only [Function.comp]
    rw [show (i + 1) * b.length = b.length + i * b.length by ring, List.drop_length_add_append]

/-- The blocks of a joined list of n-byte blocks are the list. -/
theorem blocks_flatten (n : Nat) (bs : List Bytes) (h : ∀ b ∈ bs, b.length = n) (hn : 0 < n) :
    blocks n bs.flatten = bs := by
  induction bs with
  | nil => simp [blocks]
  | cons b bs ih =>
    rw [List.flatten_cons, blocks_append n b _ (h b (by simp)) hn, ih fun c hc => h c (List.mem_cons_of_mem _ hc)]

/-- The blocks of a string of whole blocks, joined, are the string. -/
theorem flatten_blocks (n : Nat) (s : Bytes) (hn : 0 < n) (h : s.length % n = 0) : (blocks n s).flatten = s := by
  obtain ⟨k, hk⟩ := Nat.dvd_of_mod_eq_zero h
  induction k generalizing s with
  | zero =>
    have : s = [] := List.length_eq_zero_iff.mp (by simpa using hk)
    subst this
    simp [blocks]
  | succ k ih =>
    have hlen : n ≤ s.length := by rw [hk]; exact Nat.le_mul_of_pos_right n (Nat.succ_pos k)
    have h1 : (s.take n).length = n := by rw [List.length_take]; omega
    have h2 : (s.drop n).length = n * k := by rw [List.length_drop, hk, Nat.mul_succ]; omega
    have hs : blocks n s = s.take n :: blocks n (s.drop n) := by
      rw [← blocks_append n (s.take n) (s.drop n) h1 hn, List.take_append_drop]
    rw [hs, List.flatten_cons, ih _ (by rw [h2]; exact Nat.mul_mod_right n k) h2, List.take_append_drop]

theorem length_flatten_const (n : Nat) (bs : List Bytes) (h : ∀ b ∈ bs, b.length = n) :
    bs.flatten.length = bs.length * n := by
  induction bs with
  | nil => simp
  | cons b bs ih =>
    rw [List.flatten_cons, List.length_append, h b (by simp), ih fun c hc => h c (List.mem_cons_of_mem _ hc),
      List.length_cons]
    ring

@[simp] theorem length_shl1 (b : Bytes) : (shl1 b).length = b.length := by simp [shl1]

end Sys2Proof.Machine
end

