-- ==== Sys2Proof/Laws/Cipher.lean ====
section
/-! SUPPORT. The bits of a table permutation, the lengths of what single DES gives, and the linearity of the AES field
arithmetic: the small facts the block functions' laws rest on. -/

namespace Sys2Proof.Machine

theorem foldl_shiftConcat_getLsbD (m : Nat) (bits : List Bool) (y : BitVec m) (i : Nat) (hi : i < m) :
    (bits.foldl (fun y b => y.shiftConcat b) y).getLsbD i
      = if i < bits.length then bits.getD (bits.length - 1 - i) false else y.getLsbD (i - bits.length) := by
  induction bits generalizing y with
  | nil => simp
  | cons b bits ih =>
    rw [List.foldl_cons, ih, List.length_cons]
    by_cases h1 : i < bits.length
    · rw [if_pos h1, if_pos (by omega), show bits.length + 1 - 1 - i = (bits.length - 1 - i) + 1 by omega,
        List.getD_cons_succ]
    · rw [if_neg h1]
      by_cases h2 : i = bits.length
      · subst h2
        rw [if_pos (by omega)]
        simp [BitVec.getLsbD_shiftConcat]
        omega
      · rw [if_neg (by omega), BitVec.getLsbD_shiftConcat]
        rw [if_neg (by omega), show i - bits.length - 1 = i - (bits.length + 1) by omega]
        simp
        omega

/-- Bit i, from the low end, of a permuted string is the source bit the table names for it (rule R120). -/
theorem getLsbD_permute (m : Nat) (table : List Nat) {n : Nat} (x : BitVec n) (i : Nat) (hm : table.length = m)
    (hi : i < m) : (permute m table x).getLsbD i = x.getLsbD (n - table.getD (m - 1 - i) 0) := by
  have h : permute m table x
      = (table.map fun p => x.getLsbD (n - p)).foldl (fun y b => y.shiftConcat b) 0 := by
    rw [permute, List.foldl_map]
  rw [h, foldl_shiftConcat_getLsbD _ _ _ _ hi, List.length_map, hm, if_pos hi]
  have hlt : m - 1 - i < table.length := by omega
  rw [List.getD_eq_getElem _ _ (by simpa using hlt), List.getD_eq_getElem _ _ hlt]
  simp

@[simp] theorem length_desEncrypt (k b : Bytes) : (desEncrypt k b).length = 8 := by simp [desEncrypt]

@[simp] theorem length_desDecrypt (k b : Bytes) : (desDecrypt k b).length = 8 := by simp [desDecrypt]

/-- The bytes of a 64-bit number give the number back (rule R120). -/
theorem bits64_be (x : BitVec 64) : bits64 (be x.toNat 8) = x := by
  apply BitVec.eq_of_toNat_eq
  rw [bits64, int_be, BitVec.toNat_ofNat]
  have := x.isLt
  omega

/-- An 8-byte string is the encoding of its 64 bits (rule R120). -/
theorem be_bits64 (s : Bytes) (h : s.length = 8) : be (bits64 s).toNat 8 = s := by
  have hlt := int_lt s
  rw [h] at hlt
  rw [bits64, BitVec.toNat_ofNat, Nat.mod_eq_of_lt (by omega)]
  conv_lhs => rw [← h]
  exact be_int s

/-- Multiplication by x is additive (rule R141). -/
theorem xtime_xor (a b : Byte) : xtime (a ^^^ b) = xtime a ^^^ xtime b := by
  unfold xtime
  rw [BitVec.msb_xor]
  cases a.msb <;> cases b.msb <;> simp [BitVec.shiftLeft_xor_distrib, BitVec.xor_assoc]
  · rw [BitVec.xor_comm]

theorem xtimeIter_xor (k : Nat) (a b : Byte) : xtimeIter k (a ^^^ b) = xtimeIter k a ^^^ xtimeIter k b := by
  induction k with
  | zero => rfl
  | succ k ih => rw [xtimeIter, ih, xtime_xor, xtimeIter, xtimeIter]

end Sys2Proof.Machine
end

