-- ==== Sys2Proof/Laws/Flags.lean ====
section
/-! SUPPORT. What each update of STATUS does to each of its fields (spec/10_state.md rules R16 and R17). -/

namespace Sys2Proof.Machine

@[simp] theorem statusDone_success (st : Word) : statusDone (statusSuccess st) = true := by
  simp [statusDone, statusSuccess]

@[simp] theorem statusErr_success (st : Word) : statusErr (statusSuccess st) = false := by
  simp [statusErr, statusSuccess, commandBits]

@[simp] theorem statusErrcode_success (st : Word) : statusErrcode (statusSuccess st) = 0 := by
  apply BitVec.eq_of_getLsbD_eq
  intro i hi
  interval_cases i <;> simp [statusErrcode, statusSuccess, commandBits]

@[simp] theorem statusSticky_success (st : Word) : statusSticky (statusSuccess st) = statusSticky st := by
  simp [statusSticky, statusSuccess, commandBits]

@[simp] theorem statusAccerr_success (st : Word) : statusAccerr (statusSuccess st) = statusAccerr st := by
  simp [statusAccerr, statusSuccess, commandBits]

@[simp] theorem reserved_success (st : Word) : statusSuccess st &&& reservedBits = st &&& reservedBits := by
  apply BitVec.eq_of_getLsbD_eq
  intro i hi
  interval_cases i <;> simp [statusSuccess, commandBits, reservedBits]

@[simp] theorem statusDone_refusal (c : ErrCode) (st : Word) : statusDone (statusRefusal c st) = false := by
  cases c <;> simp [statusDone, statusRefusal, commandBits, errNumber]

@[simp] theorem statusErr_refusal (c : ErrCode) (st : Word) : statusErr (statusRefusal c st) = true := by
  cases c <;> simp [statusErr, statusRefusal]

@[simp] theorem statusErrcode_refusal (c : ErrCode) (st : Word) :
    statusErrcode (statusRefusal c st) = BitVec.ofNat 4 (errNumber c) := by
  apply BitVec.eq_of_getLsbD_eq
  intro i hi
  cases c <;> interval_cases i <;> simp [statusErrcode, statusRefusal, commandBits, errNumber]

@[simp] theorem statusSticky_refusal (c : ErrCode) (st : Word) : statusSticky (statusRefusal c st) = true := by
  simp [statusSticky, statusRefusal]

@[simp] theorem statusAccerr_refusal (c : ErrCode) (st : Word) :
    statusAccerr (statusRefusal c st) = statusAccerr st := by
  cases c <;> simp [statusAccerr, statusRefusal, commandBits, errNumber]

@[simp] theorem reserved_refusal (c : ErrCode) (st : Word) :
    statusRefusal c st &&& reservedBits = st &&& reservedBits := by
  apply BitVec.eq_of_getLsbD_eq
  intro i hi
  cases c <;> interval_cases i <;> simp [statusRefusal, commandBits, reservedBits, errNumber]

@[simp] theorem statusDone_accessRefused (st : Word) : statusDone (statusAccessRefused st) = statusDone st := by
  simp [statusDone, statusAccessRefused]

@[simp] theorem statusErr_accessRefused (st : Word) : statusErr (statusAccessRefused st) = statusErr st := by
  simp [statusErr, statusAccessRefused]

@[simp] theorem statusErrcode_accessRefused (st : Word) :
    statusErrcode (statusAccessRefused st) = statusErrcode st := by
  apply BitVec.eq_of_getLsbD_eq
  intro i hi
  interval_cases i <;> simp [statusErrcode, statusAccessRefused]

@[simp] theorem statusSticky_accessRefused (st : Word) :
    statusSticky (statusAccessRefused st) = statusSticky st := by
  simp [statusSticky, statusAccessRefused]

@[simp] theorem statusAccerr_accessRefused (st : Word) : statusAccerr (statusAccessRefused st) = true := by
  simp [statusAccerr, statusAccessRefused]

@[simp] theorem reserved_accessRefused (st : Word) :
    statusAccessRefused st &&& reservedBits = st &&& reservedBits := by
  apply BitVec.eq_of_getLsbD_eq
  intro i hi
  interval_cases i <;> simp [statusAccessRefused, reservedBits]

@[simp] theorem statusDone_write (v st : Word) : statusDone (statusWrite v st) = statusDone st := by
  simp [statusDone, statusWrite]

@[simp] theorem statusErr_write (v st : Word) : statusErr (statusWrite v st) = statusErr st := by
  simp [statusErr, statusWrite]

@[simp] theorem statusErrcode_write (v st : Word) : statusErrcode (statusWrite v st) = statusErrcode st := by
  apply BitVec.eq_of_getLsbD_eq
  intro i hi
  interval_cases i <;> simp [statusErrcode, statusWrite]

@[simp] theorem statusSticky_write (v st : Word) :
    statusSticky (statusWrite v st) = (statusSticky st && !v.getLsbD 8) := by
  simp [statusSticky, statusWrite]

@[simp] theorem statusAccerr_write (v st : Word) :
    statusAccerr (statusWrite v st) = (statusAccerr st && !v.getLsbD 9) := by
  simp [statusAccerr, statusWrite]

@[simp] theorem reserved_write (v st : Word) : statusWrite v st &&& reservedBits = st &&& reservedBits := by
  apply BitVec.eq_of_getLsbD_eq
  intro i hi
  interval_cases i <;> simp [statusWrite, reservedBits]

end Sys2Proof.Machine
end

