-- ==== Sys2Proof/Laws/Memory.lean ====
section
/-! SUPPORT. The laws of the buffers: what is read after a write, what a written string reads as, and that every memory
operation keeps the canonical form and the bound on the addresses. -/

namespace Sys2Proof.Machine

@[simp] theorem Memory.read_nil (a : Nat) : Memory.read [] a = 0 := rfl

theorem Memory.read_cons (k : Nat) (b : Byte) (m : Memory) (a : Nat) :
    Memory.read ((k, b) :: m) a = if k = a then b else Memory.read m a := rfl

theorem Memory.wf_iff (m : Memory) :
    m.wf = true ↔ m.Pairwise (fun x y => x.1 < y.1) ∧ ∀ c ∈ m, c.2 ≠ Memory.unlisted := by
  simp [Memory.wf, List.all_eq_true]

theorem Memory.within_iff (m : Memory) (bound : Nat) : m.within bound = true ↔ ∀ c ∈ m, c.1 < bound := by
  simp [Memory.within, List.all_eq_true]

/-- An address below every listed one reads as unlisted. -/
theorem Memory.read_of_lt (m : Memory) (a : Nat) (h : ∀ c ∈ m, a < c.1) : m.read a = Memory.unlisted := by
  induction m with
  | nil => rfl
  | cons c rest ih =>
    obtain ⟨k, b⟩ := c
    have hk : a < k := h (k, b) (by simp)
    rw [Memory.read_cons, if_neg (by omega)]
    exact ih fun c hc => h c (List.mem_cons_of_mem _ hc)

/-- An address at or above the bound reads as unlisted. -/
theorem Memory.read_of_within (m : Memory) (bound a : Nat) (h : m.within bound = true) (ha : bound ≤ a) :
    m.read a = Memory.unlisted := by
  rw [Memory.within_iff] at h
  induction m with
  | nil => rfl
  | cons c rest ih =>
    obtain ⟨k, b⟩ := c
    have hk : k < bound := h (k, b) (by simp)
    rw [Memory.read_cons, if_neg (by omega)]
    exact ih fun c hc => h c (List.mem_cons_of_mem _ hc)

/-- Every entry after a write is an old entry or the one written. -/
theorem Memory.mem_write (m : Memory) (a : Nat) (b : Byte) (c : Host.Cell) (h : c ∈ m.write a b) :
    c ∈ m ∨ (c = (a, b) ∧ b ≠ Memory.unlisted) := by
  induction m with
  | nil =>
    unfold Memory.write at h
    split at h
    · simp at h
    · exact .inr ⟨by simpa using h, by assumption⟩
  | cons d rest ih =>
    obtain ⟨k, e⟩ := d
    unfold Memory.write at h
    split at h
    · split at h
      · exact .inl h
      · rcases List.mem_cons.mp h with h | h
        · exact .inr ⟨h, by assumption⟩
        · exact .inl h
    · split at h
      · split at h
        · exact .inl (List.mem_cons_of_mem _ h)
        · rcases List.mem_cons.mp h with h | h
          · exact .inr ⟨h, by assumption⟩
          · exact .inl (List.mem_cons_of_mem _ h)
      · rcases List.mem_cons.mp h with h | h
        · exact .inl (by simp [h])
        · exact (ih h).imp (List.mem_cons_of_mem _) id

/-- A write keeps the addresses strictly rising. -/
theorem Memory.write_pairwise (m : Memory) (a : Nat) (b : Byte) (h : m.Pairwise (fun x y => x.1 < y.1)) :
    (m.write a b).Pairwise (fun x y => x.1 < y.1) := by
  induction m with
  | nil =>
    unfold Memory.write
    split <;> simp
  | cons d rest ih =>
    obtain ⟨k, e⟩ := d
    have hrest := (List.pairwise_cons.mp h).2
    have hhead := (List.pairwise_cons.mp h).1
    unfold Memory.write
    split
    · split
      · exact h
      · refine List.pairwise_cons.mpr ⟨?_, h⟩
        intro c hc
        rcases List.mem_cons.mp hc with rfl | hc
        · assumption
        · have := hhead c hc
          simp only at this ⊢
          omega
    · split
      · subst a
        split
        · exact hrest
        · exact List.pairwise_cons.mpr ⟨hhead, hrest⟩
      · refine List.pairwise_cons.mpr ⟨?_, ih hrest⟩
        intro c hc
        rcases Memory.mem_write rest a b c hc with hc | ⟨rfl, -⟩
        · exact hhead c hc
        · simp only
          omega

/-- A write keeps the canonical form. -/
theorem Memory.write_wf (m : Memory) (a : Nat) (b : Byte) (h : m.wf = true) : (m.write a b).wf = true := by
  rw [Memory.wf_iff] at h ⊢
  refine ⟨Memory.write_pairwise m a b h.1, fun c hc => ?_⟩
  rcases Memory.mem_write m a b c hc with hc | ⟨rfl, hb⟩
  · exact h.2 c hc
  · exact hb

/-- A write below the bound keeps the addresses below it. -/
theorem Memory.write_within (m : Memory) (a bound : Nat) (b : Byte) (h : m.within bound = true) (ha : a < bound) :
    (m.write a b).within bound = true := by
  rw [Memory.within_iff] at h ⊢
  intro c hc
  rcases Memory.mem_write m a b c hc with hc | ⟨rfl, -⟩
  · exact h c hc
  · exact ha

/-- What is read after a write, on a memory whose addresses rise: the byte written at its address, the old byte at every
other. -/
theorem Memory.read_write (m : Memory) (a : Nat) (b : Byte) (x : Nat) (h : m.wf = true) :
    (m.write a b).read x = if x = a then b else m.read x := by
  rw [Memory.wf_iff] at h
  obtain ⟨h, -⟩ := h
  induction m with
  | nil =>
    unfold Memory.write
    split
    · subst b
      simp [Memory.unlisted]
    · rw [Memory.read_cons]
      simp [eq_comm]
  | cons d rest ih =>
    obtain ⟨k, e⟩ := d
    have hhead := (List.pairwise_cons.mp h).1
    unfold Memory.write
    split
    · rename_i hlt
      split
      · rename_i hb
        by_cases hx : x = a
        · subst x
          rw [if_pos rfl, hb]
          refine Memory.read_of_lt _ _ fun c hc => ?_
          rcases List.mem_cons.mp hc with rfl | hc
          · exact hlt
          · exact lt_trans hlt (hhead c hc)
        · rw [if_neg hx]
      · rw [Memory.read_cons]
        simp [eq_comm]
    · split
      · subst a
        split
        · rename_i hb
          by_cases hx : x = k
          · subst x
            rw [if_pos rfl, hb]
            exact Memory.read_of_lt _ _ hhead
          · rw [if_neg hx, Memory.read_cons, if_neg (Ne.symm hx)]
        · simp only [Memory.read_cons, eq_comm (a := x)]
          split <;> rfl
      · simp only [Memory.read_cons, ih (List.pairwise_cons.mp h).2]
        split
        · rw [if_neg (by omega)]
        · rfl

theorem Memory.mem_ofBytesFrom (s : Bytes) (a : Nat) (c : Host.Cell) (h : c ∈ Memory.ofBytesFrom a s) :
    a ≤ c.1 ∧ c.1 < a + s.length ∧ c.2 ≠ Memory.unlisted := by
  induction s generalizing a with
  | nil => simp [Memory.ofBytesFrom] at h
  | cons b rest ih =>
    unfold Memory.ofBytesFrom at h
    rw [List.length_cons]
    split at h
    · obtain ⟨h1, h2, h3⟩ := ih _ h
      exact ⟨by omega, by omega, h3⟩
    · rcases List.mem_cons.mp h with rfl | h
      · exact ⟨le_refl _, by simp only; omega, by assumption⟩
      · obtain ⟨h1, h2, h3⟩ := ih _ h
        exact ⟨by omega, by omega, h3⟩

theorem Memory.ofBytesFrom_wf (s : Bytes) (a : Nat) : (Memory.ofBytesFrom a s).wf = true := by
  rw [Memory.wf_iff]
  refine ⟨?_, fun c hc => (Memory.mem_ofBytesFrom s a c hc).2.2⟩
  induction s generalizing a with
  | nil => simp [Memory.ofBytesFrom]
  | cons b rest ih =>
    unfold Memory.ofBytesFrom
    split
    · exact ih _
    · refine List.pairwise_cons.mpr ⟨fun c hc => ?_, ih _⟩
      have := Memory.mem_ofBytesFrom rest (a + 1) c hc
      simp only
      omega

/-- A string written whole is in canonical form. -/
@[simp] theorem Memory.ofBytes_wf (s : Bytes) : (Memory.ofBytes s).wf = true := Memory.ofBytesFrom_wf s 0

/-- A string written whole lists no address at or above its length. -/
@[simp] theorem Memory.ofBytes_within (s : Bytes) : (Memory.ofBytes s).within s.length = true := by
  rw [Memory.within_iff]
  intro c hc
  have := Memory.mem_ofBytesFrom s 0 c hc
  omega

theorem Memory.read_ofBytesFrom (s : Bytes) (a x : Nat) :
    (Memory.ofBytesFrom a s).read (a + x) = s.getD x 0 := by
  induction s generalizing a x with
  | nil => simp [Memory.ofBytesFrom]
  | cons b rest ih =>
    unfold Memory.ofBytesFrom
    cases x with
    | zero =>
      split
      · rename_i hb
        rw [Memory.read_of_lt _ _ fun c hc => ?_]
        · simp [hb]
        · have := Memory.mem_ofBytesFrom rest (a + 1) c hc
          omega
      · simp [Memory.read_cons]
    | succ x =>
      have h := ih (a + 1) x
      have e : a + (x + 1) = a + 1 + x := by omega
      rw [e]
      split
      · simpa using h
      · rw [Memory.read_cons, if_neg (by omega)]
        simpa using h

/-- A string written whole reads back byte by byte, and as 0x00 after its end. -/
@[simp] theorem Memory.read_ofBytes (s : Bytes) (x : Nat) : (Memory.ofBytes s).read x = s.getD x 0 := by
  simpa [Memory.ofBytes] using Memory.read_ofBytesFrom s 0 x

@[simp] theorem Memory.length_readBytes (m : Memory) (a n : Nat) : (m.readBytes a n).length = n := by
  induction n generalizing a with
  | zero => rfl
  | succ n ih => simp [Memory.readBytes, ih]

theorem Memory.getD_readBytes (m : Memory) (a n i : Nat) (h : i < n) : (m.readBytes a n).getD i 0 = m.read (a + i) := by
  induction n generalizing a i with
  | zero => omega
  | succ n ih =>
    cases i with
    | zero => simp [Memory.readBytes]
    | succ i =>
      have := ih (a + 1) i (by omega)
      rw [show a + (i + 1) = a + 1 + i by omega]
      simpa [Memory.readBytes] using this

/-- Two reads of a string agree where the bytes agree. -/
theorem Memory.readBytes_congr (m m' : Memory) (a n : Nat) (h : ∀ x, a ≤ x → x < a + n → m.read x = m'.read x) :
    m.readBytes a n = m'.readBytes a n := by
  induction n generalizing a with
  | zero => rfl
  | succ n ih =>
    simp only [Memory.readBytes]
    rw [h a (le_refl a) (by omega), ih (a + 1) fun x hx hx' => h x (by omega) (by omega)]

/-- A part of a string read is the string read there. -/
theorem Memory.readBytes_slice (m : Memory) (a n i k : Nat) (h : i + k ≤ n) :
    ((m.readBytes a n).drop i).take k = m.readBytes (a + i) k := by
  induction i generalizing a n with
  | zero =>
    induction k generalizing a n with
    | zero => simp [Memory.readBytes]
    | succ k ih =>
      obtain ⟨n, rfl⟩ : ∃ n', n = n' + 1 := ⟨n - 1, by omega⟩
      simpa [Memory.readBytes] using ih (a + 1) n (by omega)
  | succ i ih =>
    obtain ⟨n, rfl⟩ : ∃ n', n = n' + 1 := ⟨n - 1, by omega⟩
    rw [show a + (i + 1) = a + 1 + i by omega]
    simpa [Memory.readBytes] using ih (a + 1) n (by omega)

/-- Reading a part of a string written whole gives the part. -/
theorem Memory.readBytes_ofBytes (s : Bytes) (i k : Nat) (h : i + k ≤ s.length) :
    (Memory.ofBytes s).readBytes i k = (s.drop i).take k := by
  apply List.ext_getElem
  · simp
    omega
  · intro j hj hj'
    have hj0 : j < k := by simpa using hj
    have hr := Memory.getD_readBytes (Memory.ofBytes s) i k j hj0
    rw [List.getD_eq_getElem _ _ hj, Memory.read_ofBytes, List.getD_eq_getElem _ _ (by omega)] at hr
    simp [hr]

end Sys2Proof.Machine
end

