-- ==== Sys2Proof/Laws/State.lean ====
section
/-! SUPPORT. One lemma per field per update of the state, true by rfl, so that no later proof unfolds a record update. -/

namespace Sys2Proof.Machine

@[simp] theorem finish_key1 (r : Bytes) (s : State) : (finish r s).key1 = s.key1 := rfl
@[simp] theorem finish_key2 (r : Bytes) (s : State) : (finish r s).key2 = s.key2 := rfl
@[simp] theorem finish_iv (r : Bytes) (s : State) : (finish r s).iv = s.iv := rfl
@[simp] theorem finish_ibuf (r : Bytes) (s : State) : (finish r s).ibuf = s.ibuf := rfl
@[simp] theorem finish_ilen (r : Bytes) (s : State) : (finish r s).ilen = s.ilen := rfl
@[simp] theorem finish_obuf (r : Bytes) (s : State) : (finish r s).obuf = Memory.ofBytes r := rfl
@[simp] theorem finish_olen (r : Bytes) (s : State) : (finish r s).olen = BitVec.ofNat 32 r.length := rfl
@[simp] theorem finish_status (r : Bytes) (s : State) : (finish r s).status = statusSuccess s.status := rfl
@[simp] theorem finish_params (r : Bytes) (s : State) : (finish r s).params = s.params := rfl
@[simp] theorem finish_script (r : Bytes) (s : State) : (finish r s).script = s.script := rfl
@[simp] theorem finish_lastRead (r : Bytes) (s : State) : (finish r s).lastRead = s.lastRead := rfl

@[simp] theorem raiseCmdError_key1 (code : ErrCode) (s : State) : (raiseCmdError code s).key1 = s.key1 := rfl
@[simp] theorem raiseCmdError_key2 (code : ErrCode) (s : State) : (raiseCmdError code s).key2 = s.key2 := rfl
@[simp] theorem raiseCmdError_iv (code : ErrCode) (s : State) : (raiseCmdError code s).iv = s.iv := rfl
@[simp] theorem raiseCmdError_ibuf (code : ErrCode) (s : State) : (raiseCmdError code s).ibuf = s.ibuf := rfl
@[simp] theorem raiseCmdError_ilen (code : ErrCode) (s : State) : (raiseCmdError code s).ilen = s.ilen := rfl
@[simp] theorem raiseCmdError_obuf (code : ErrCode) (s : State) : (raiseCmdError code s).obuf = [] := rfl
@[simp] theorem raiseCmdError_olen (code : ErrCode) (s : State) : (raiseCmdError code s).olen = 0 := rfl
@[simp] theorem raiseCmdError_status (code : ErrCode) (s : State) : (raiseCmdError code s).status = statusRefusal code s.status := rfl
@[simp] theorem raiseCmdError_params (code : ErrCode) (s : State) : (raiseCmdError code s).params = s.params := rfl
@[simp] theorem raiseCmdError_script (code : ErrCode) (s : State) : (raiseCmdError code s).script = s.script := rfl
@[simp] theorem raiseCmdError_lastRead (code : ErrCode) (s : State) : (raiseCmdError code s).lastRead = s.lastRead := rfl

@[simp] theorem refuseAccess_key1 (s : State) : (refuseAccess s).key1 = s.key1 := rfl
@[simp] theorem refuseAccess_key2 (s : State) : (refuseAccess s).key2 = s.key2 := rfl
@[simp] theorem refuseAccess_iv (s : State) : (refuseAccess s).iv = s.iv := rfl
@[simp] theorem refuseAccess_ibuf (s : State) : (refuseAccess s).ibuf = s.ibuf := rfl
@[simp] theorem refuseAccess_ilen (s : State) : (refuseAccess s).ilen = s.ilen := rfl
@[simp] theorem refuseAccess_obuf (s : State) : (refuseAccess s).obuf = s.obuf := rfl
@[simp] theorem refuseAccess_olen (s : State) : (refuseAccess s).olen = s.olen := rfl
@[simp] theorem refuseAccess_status (s : State) : (refuseAccess s).status = statusAccessRefused s.status := rfl
@[simp] theorem refuseAccess_params (s : State) : (refuseAccess s).params = s.params := rfl
@[simp] theorem refuseAccess_script (s : State) : (refuseAccess s).script = s.script := rfl
@[simp] theorem refuseAccess_lastRead (s : State) : (refuseAccess s).lastRead = s.lastRead := rfl

@[simp] theorem answerRead_key1 (v : Word) (s : State) : (answerRead v s).key1 = s.key1 := rfl
@[simp] theorem answerRead_key2 (v : Word) (s : State) : (answerRead v s).key2 = s.key2 := rfl
@[simp] theorem answerRead_iv (v : Word) (s : State) : (answerRead v s).iv = s.iv := rfl
@[simp] theorem answerRead_ibuf (v : Word) (s : State) : (answerRead v s).ibuf = s.ibuf := rfl
@[simp] theorem answerRead_ilen (v : Word) (s : State) : (answerRead v s).ilen = s.ilen := rfl
@[simp] theorem answerRead_obuf (v : Word) (s : State) : (answerRead v s).obuf = s.obuf := rfl
@[simp] theorem answerRead_olen (v : Word) (s : State) : (answerRead v s).olen = s.olen := rfl
@[simp] theorem answerRead_status (v : Word) (s : State) : (answerRead v s).status = s.status := rfl
@[simp] theorem answerRead_params (v : Word) (s : State) : (answerRead v s).params = s.params := rfl
@[simp] theorem answerRead_script (v : Word) (s : State) : (answerRead v s).script = s.script := rfl
@[simp] theorem answerRead_lastRead (v : Word) (s : State) : (answerRead v s).lastRead = some v := rfl

@[simp] theorem refuseRead_key1 (s : State) : (refuseRead s).key1 = s.key1 := rfl
@[simp] theorem refuseRead_key2 (s : State) : (refuseRead s).key2 = s.key2 := rfl
@[simp] theorem refuseRead_iv (s : State) : (refuseRead s).iv = s.iv := rfl
@[simp] theorem refuseRead_ibuf (s : State) : (refuseRead s).ibuf = s.ibuf := rfl
@[simp] theorem refuseRead_ilen (s : State) : (refuseRead s).ilen = s.ilen := rfl
@[simp] theorem refuseRead_obuf (s : State) : (refuseRead s).obuf = s.obuf := rfl
@[simp] theorem refuseRead_olen (s : State) : (refuseRead s).olen = s.olen := rfl
@[simp] theorem refuseRead_status (s : State) : (refuseRead s).status = statusAccessRefused s.status := rfl
@[simp] theorem refuseRead_params (s : State) : (refuseRead s).params = s.params := rfl
@[simp] theorem refuseRead_script (s : State) : (refuseRead s).script = s.script := rfl
@[simp] theorem refuseRead_lastRead (s : State) : (refuseRead s).lastRead = some 0 := rfl

@[simp] theorem resetEvent_key1 (s : State) : (resetEvent s).key1 = Vector.replicate 32 0 := rfl
@[simp] theorem resetEvent_key2 (s : State) : (resetEvent s).key2 = Vector.replicate 32 0 := rfl
@[simp] theorem resetEvent_iv (s : State) : (resetEvent s).iv = Vector.replicate 16 0 := rfl
@[simp] theorem resetEvent_ibuf (s : State) : (resetEvent s).ibuf = [] := rfl
@[simp] theorem resetEvent_ilen (s : State) : (resetEvent s).ilen = 0 := rfl
@[simp] theorem resetEvent_obuf (s : State) : (resetEvent s).obuf = [] := rfl
@[simp] theorem resetEvent_olen (s : State) : (resetEvent s).olen = 0 := rfl
@[simp] theorem resetEvent_status (s : State) : (resetEvent s).status = 0 := rfl
@[simp] theorem resetEvent_params (s : State) : (resetEvent s).params = s.params := rfl
@[simp] theorem resetEvent_script (s : State) : (resetEvent s).script = s.script := rfl
@[simp] theorem resetEvent_lastRead (s : State) : (resetEvent s).lastRead = s.lastRead := rfl

@[simp] theorem withFetchWord_script (s : State) (nbits w : Nat) :
    (s.withFetchWord nbits w).script = .write32 0x00000 (BitVec.ofNat 32 (w % 2 ^ nbits)) :: s.script := rfl

@[simp] theorem reset_params : State.reset.params = Params.reference := rfl

end Sys2Proof.Machine
end

