-- ==== Sys2Proof/Laws/Ops.lean ====
section
/-! SUPPORT. What each shared operation can do, said once: a command's checks and its two endings, the form every meaning
has, and the engine's reading of its operands. -/

namespace Sys2Proof.Machine

/-- No error is reported exactly where no check fails. -/
theorem firstError_eq_none (checks : List Check) : firstError checks = none ↔ ∀ c ∈ checks, c.1 = false := by
  induction checks with
  | nil => simp [firstError]
  | cons c rest ih =>
    obtain ⟨failed, code⟩ := c
    cases failed <;> simp [firstError, ih]

/-- A reported error is that of a check that fails. -/
theorem firstError_mem (checks : List Check) (code : ErrCode) (h : firstError checks = some code) :
    (true, code) ∈ checks := by
  induction checks with
  | nil => simp [firstError] at h
  | cons c rest ih =>
    obtain ⟨failed, code'⟩ := c
    cases failed
    · exact List.mem_cons_of_mem _ (ih (by simpa [firstError] using h))
    · simp [firstError] at h
      simp [h]

@[simp] theorem firstError_cons_true (code : ErrCode) (rest : List Check) :
    firstError ((true, code) :: rest) = some code := rfl

@[simp] theorem firstError_cons_false (code : ErrCode) (rest : List Check) :
    firstError ((false, code) :: rest) = firstError rest := rfl

/-- A command ends in the refusal of its first failing check, or in success with its result. -/
theorem runCommand_cases (checks : List Check) (result : State → Bytes) (s : State) :
    (∃ code, firstError checks = some code ∧ runCommand checks result s = raiseCmdError code s)
    ∨ (firstError checks = none ∧ runCommand checks result s = finish (result s) s) := by
  unfold runCommand
  cases h : firstError checks with
  | none => exact .inr ⟨rfl, rfl⟩
  | some code => exact .inl ⟨code, rfl, rfl⟩

theorem runCommand_of_pass (checks : List Check) (result : State → Bytes) (s : State)
    (h : ∀ c ∈ checks, c.1 = false) : runCommand checks result s = finish (result s) s := by
  unfold runCommand
  rw [(firstError_eq_none checks).mpr h]

theorem runCommand_of_error (checks : List Check) (result : State → Bytes) (s : State) (code : ErrCode)
    (h : firstError checks = some code) : runCommand checks result s = raiseCmdError code s := by
  unfold runCommand
  rw [h]

/-- Every meaning is a list of checks and a result, run as a command. -/
theorem exec_eq_runCommand (i : Instr) (s : State) :
    ∃ checks result, exec i s = .next (runCommand checks result s) := by
  cases i <;> exact ⟨_, _, rfl⟩

/-- Every command answers a next state, by a refusal or by a success. -/
theorem exec_cases (i : Instr) (s : State) :
    (∃ code, exec i s = .next (raiseCmdError code s)) ∨ (∃ r, exec i s = .next (finish r s)) := by
  obtain ⟨checks, result, h⟩ := exec_eq_runCommand i s
  rcases runCommand_cases checks result s with ⟨code, -, e⟩ | ⟨-, e⟩
  · exact .inl ⟨code, by rw [h, e]⟩
  · exact .inr ⟨result s, by rw [h, e]⟩

@[simp] theorem length_input (s : State) : (input s).length = min s.ilen.toNat s.params.ibufBytes := by
  simp [input]

/-- Within the buffer the input is ILEN bytes of IBUF (spec/10_state.md rule R13). -/
theorem input_eq (s : State) (h : s.ilen.toNat ≤ s.params.ibufBytes) :
    input s = s.ibuf.readBytes 0 s.ilen.toNat := by
  simp [input, Nat.min_eq_left h]

@[simp] theorem length_key1Operand (k : KLen) (s : State) : (key1Operand k s).length = klenBytes k := by
  cases k <;> simp [key1Operand, klenBytes]

@[simp] theorem length_key2Operand (k : KLen) (s : State) : (key2Operand k s).length = klenBytes k := by
  cases k <;> simp [key2Operand, klenBytes]

@[simp] theorem length_ivOperand (alg : Alg) (s : State) : (ivOperand alg s).length = blockSize alg := by
  cases alg <;> simp [ivOperand, blockSize]

theorem blockSize_pos (alg : Alg) : 0 < blockSize alg := by cases alg <;> decide

end Sys2Proof.Machine
end

