-- ==== Sys2Proof/Laws/HostPort.lean ====
section
/-! SUPPORT. What the host port and the step can do, said once. -/

namespace Sys2Proof.Machine

theorem step_of_idle (s : State) (h : s.script = []) : step s = .next s := by simp [step, h]

theorem step_of_event (s : State) (e : HostEvent) (rest : List HostEvent) (h : s.script = e :: rest) :
    step s = hostEvent e { s with script := rest } := by simp [step, h]

theorem hostEvent_of_inWindow (e : HostEvent) (s : State) (h : eventInWindow e = true) :
    hostEvent e s = performEvent e s := by simp [hostEvent, h]

theorem hostEvent_of_outside (e : HostEvent) (s : State) (h : eventInWindow e = false) :
    hostEvent e s = .fault .outsideWindow := by simp [hostEvent, h]

/-- A word written to CMD runs the command it decodes to, or is refused with ERR_ILLEGAL. -/
theorem issueCommand_cases (w : Word) (s : State) :
    (∃ i, decode w = .ok i ∧ issueCommand w s = exec i s)
    ∨ (∃ e, decode w = .error e ∧ issueCommand w s = .next (raiseCmdError .illegal s)) := by
  unfold issueCommand
  cases h : decode w with
  | error e => exact .inr ⟨e, rfl, rfl⟩
  | ok i => exact .inl ⟨i, rfl, rfl⟩

/-- A word written to CMD always gives a next state, by a refusal or by a success. -/
theorem issueCommand_next (w : Word) (s : State) :
    (∃ code, issueCommand w s = .next (raiseCmdError code s)) ∨ (∃ r, issueCommand w s = .next (finish r s)) := by
  rcases issueCommand_cases w s with ⟨i, -, e⟩ | ⟨-, -, e⟩
  · rw [e]
    exact exec_cases i s
  · exact .inl ⟨_, e⟩

/-- What a 32-bit write can do. -/
theorem writeWord_cases (off : Nat) (v : Word) (s : State) :
    (off = 0x00000 ∧ writeWord off v s = issueCommand v s)
    ∨ (off = 0x00004 ∧ writeWord off v s = .next { s with status := statusWrite v s.status })
    ∨ (off = 0x00008 ∧ writeWord off v s = .next { s with ilen := v })
    ∨ (off ≠ 0x00000 ∧ off ≠ 0x00004 ∧ off ≠ 0x00008 ∧ writeWord off v s = .next (refuseAccess s)) := by
  unfold writeWord wordPlace
  by_cases h0 : off = 0x00000
  · exact .inl ⟨h0, by simp [h0]⟩
  by_cases h4 : off = 0x00004
  · exact .inr (.inl ⟨h4, by simp [h4]⟩)
  by_cases h8 : off = 0x00008
  · exact .inr (.inr (.inl ⟨h8, by simp [h8]⟩))
  refine .inr (.inr (.inr ⟨h0, h4, h8, ?_⟩))
  rw [if_neg h0, if_neg h4, if_neg h8]
  split_ifs <;> rfl

/-- What an 8-bit write can do. -/
theorem writeByte_cases (off : Nat) (v : Byte) (s : State) :
    (∃ i, i < 32 ∧ off = 0x40 + i ∧ writeByte off v s = { s with key1 := s.key1.setIfInBounds i v })
    ∨ (∃ i, i < 32 ∧ off = 0x60 + i ∧ writeByte off v s = { s with key2 := s.key2.setIfInBounds i v })
    ∨ (∃ i, i < 16 ∧ off = 0x80 + i ∧ writeByte off v s = { s with iv := s.iv.setIfInBounds i v })
    ∨ (∃ i, i < s.params.ibufBytes ∧ off = 0x10000 + i ∧ writeByte off v s = { s with ibuf := s.ibuf.write i v })
    ∨ writeByte off v s = refuseAccess s := by
  unfold writeByte bytePlace
  split_ifs with h1 h2 h3 h4 h5
  · exact .inl ⟨off - 0x40, by omega, by omega, rfl⟩
  · exact .inr (.inl ⟨off - 0x60, by omega, by omega, rfl⟩)
  · exact .inr (.inr (.inl ⟨off - 0x80, by omega, by omega, rfl⟩))
  · exact .inr (.inr (.inr (.inl ⟨off - 0x10000, by omega, by omega, rfl⟩)))
  · exact .inr (.inr (.inr (.inr rfl)))
  · exact .inr (.inr (.inr (.inr rfl)))

/-- What an event within the window can do: a read answers a value or is refused, a write to CMD ends a command one way or
the other, another write stores or is refused, the reset event resets. -/
theorem performEvent_cases (e : HostEvent) (s : State) :
    (∃ v, performEvent e s = .next (answerRead v s))
    ∨ performEvent e s = .next (refuseRead s)
    ∨ (∃ off v, e = .write32 off v ∧ performEvent e s = writeWord off v s)
    ∨ (∃ off v, e = .write8 off v ∧ performEvent e s = .next (writeByte off v s))
    ∨ (∃ off, e = .writeOther off ∧ performEvent e s = .next (refuseAccess s))
    ∨ (e = .reset ∧ performEvent e s = .next (resetEvent s)) := by
  cases e with
  | read32 off =>
    simp only [performEvent]
    cases readWord off s with
    | none => exact .inr (.inl rfl)
    | some v => exact .inl ⟨v, rfl⟩
  | write32 off v => exact .inr (.inr (.inl ⟨off, v, rfl, rfl⟩))
  | read8 off =>
    simp only [performEvent]
    cases readByte off s with
    | none => exact .inr (.inl rfl)
    | some v => exact .inl ⟨_, rfl⟩
  | write8 off v => exact .inr (.inr (.inr (.inl ⟨off, v, rfl, rfl⟩)))
  | readOther off => exact .inr (.inl rfl)
  | writeOther off => exact .inr (.inr (.inr (.inr (.inl ⟨off, rfl, rfl⟩))))
  | reset => exact .inr (.inr (.inr (.inr (.inr ⟨rfl, rfl⟩))))

end Sys2Proof.Machine
end

