-- ==== Sys2Proof/Laws/Modes.lean ====
section
/-! SUPPORT. What the shared functions of the modes and the paddings give: how many blocks a chain has and how long they
are, and the one form a string has under scheme 1 (spec/41_ecb_cbc_modes.md, spec/42_padding.md). -/

namespace Sys2Proof.Machine

@[simp] theorem length_cbcEncChain (e : Bytes → Bytes) (prev : Bytes) (l : List Bytes) :
    (cbcEncChain e prev l).length = l.length := by
  induction l generalizing prev with
  | nil => rfl
  | cons p rest ih => simp [cbcEncChain, ih]

@[simp] theorem length_cbcDecChain (d : Bytes → Bytes) (prev : Bytes) (l : List Bytes) :
    (cbcDecChain d prev l).length = l.length := by
  induction l generalizing prev with
  | nil => rfl
  | cons c rest ih => simp [cbcDecChain, ih]

/-- Every cipher block of a chain is a value of the block function. -/
theorem exists_of_mem_cbcEncChain (e : Bytes → Bytes) (prev c : Bytes) (l : List Bytes)
    (h : c ∈ cbcEncChain e prev l) : ∃ b, c = e b := by
  induction l generalizing prev with
  | nil => simp [cbcEncChain] at h
  | cons p rest ih =>
    rcases List.mem_cons.mp h with h | h
    · exact ⟨_, h⟩
    · exact ih _ h

/-- Under scheme 1 a string is followed by zero bytes: a whole block of them where it is empty, else fewer than a block. -/
theorem pad1_form (s : Bytes) (n : Nat) (hn : 1 ≤ n) :
    ∃ k, pad1 s n = s ++ zeros k ∧ (s.length + k) % n = 0 ∧ (s.length = 0 → k = n) ∧ (s.length ≠ 0 → k < n) := by
  have hm := Nat.mod_lt s.length hn
  have hd := Nat.div_add_mod s.length n
  unfold pad1
  by_cases h0 : s.length = 0
  · exact ⟨n, by simp [List.length_eq_zero_iff.mp h0], by simp [h0], fun _ => rfl, fun h => absurd h0 h⟩
  rw [if_neg h0]
  by_cases h1 : s.length % n = 0
  · exact ⟨0, by simp [h1, zeros], by simpa using h1, fun h => absurd h h0, fun _ => hn⟩
  rw [if_neg h1]
  refine ⟨n - s.length % n, rfl, ?_, fun h => absurd h h0, fun _ => by omega⟩
  rw [show s.length + (n - s.length % n) = n * (s.length / n) + n by omega]
  simp

theorem prefixBytes_le (n : Nat) : prefixBytes n ≤ 8 := by
  unfold prefixBytes
  split_ifs <;> omega

theorem padSize_pos (alg : Alg) (blksz : Nat) : 1 ≤ padSize alg blksz := by
  unfold padSize
  split
  · exact blockSize_pos alg
  · omega

/-- The error code after a command is that of its first check that fails, 0 where none does. -/
theorem errcode_runCommand (checks : List Check) (result : State → Bytes) (s : State) :
    statusErrcode (runCommand checks result s).status
      = match firstError checks with
        | none => 0
        | some code => BitVec.ofNat 4 (errNumber code) := by
  unfold runCommand
  cases firstError checks <;> simp

end Sys2Proof.Machine
end

