-- ==== Sys2Proof/Laws/PerInstr.lean ====
section
/-! SUPPORT. The families proved command by command. `FitsRow`: the word of a well-formed command fits the row of the opcode
map its mnemonic names (spec/30_encoding.md rule R58): under the row's mask it is the row's match. -/

namespace Sys2Proof.Laws

/-- The match of the command's row of spec/opcode_table.json. -/
def rowMatch : Instr → Word
  | .ecbenc _ _ => 0x00000001
  | .ecbdec _ _ => 0x00000002
  | .cbcenc _ _ => 0x00000003
  | .cbcdec _ _ => 0x00000004
  | .pad1 _ _ => 0x00000405
  | .pad2 _ _ => 0x00000805
  | .pad3 _ _ => 0x00000C05
  | .cbcmac1 _ _ _ => 0x00000406
  | .cbcmac2 _ _ _ => 0x00000806
  | .cbcmac3 _ _ _ => 0x00000C06
  | .rmac1 _ _ _ => 0x00000407
  | .rmac2 _ _ _ => 0x00000807
  | .rmac3 _ _ _ => 0x00000C07
  | .cmacsk _ _ => 0x00000008

/-- The mask of the command's row of spec/opcode_table.json. -/
def rowMask : Instr → Word
  | .ecbenc _ _ => 0xFFFFCEFF
  | .ecbdec _ _ => 0xFFFFCEFF
  | .cbcenc _ _ => 0xFFFFCEFF
  | .cbcdec _ _ => 0xFFFFCEFF
  | .pad1 _ _ => 0x00FFFEFF
  | .pad2 _ _ => 0x00FFFEFF
  | .pad3 _ _ => 0x00FFFEFF
  | .cbcmac1 _ _ _ => 0xFF00CEFF
  | .cbcmac2 _ _ _ => 0xFF00CEFF
  | .cbcmac3 _ _ _ => 0xFF00CEFF
  | .rmac1 _ _ _ => 0xFF000FFF
  | .rmac2 _ _ _ => 0xFF000FFF
  | .rmac3 _ _ _ => 0xFF000FFF
  | .cmacsk _ _ => 0xFFFFCEFF

/-- The word of the command, if well-formed, fits its row. -/
def FitsRow.Statement (i : Instr) : Prop := i.wellFormed = true → encode i &&& rowMask i = rowMatch i

/-- A field value of a well-formed command is one of the 256 an 8-bit field holds. -/
theorem lt_of_fitsField (v : Nat) (h : fitsField v = true) : v < 256 := by
  simp [fitsField] at h
  omega

theorem FitsRow.ecbenc (alg : Alg) (klen : KLen) : FitsRow.Statement (.ecbenc alg klen) := by
  intro _
  cases alg <;> cases klen <;> decide

theorem FitsRow.ecbdec (alg : Alg) (klen : KLen) : FitsRow.Statement (.ecbdec alg klen) := by
  intro _
  cases alg <;> cases klen <;> decide

theorem FitsRow.cbcenc (alg : Alg) (klen : KLen) : FitsRow.Statement (.cbcenc alg klen) := by
  intro _
  cases alg <;> cases klen <;> decide

theorem FitsRow.cbcdec (alg : Alg) (klen : KLen) : FitsRow.Statement (.cbcdec alg klen) := by
  intro _
  cases alg <;> cases klen <;> decide

theorem FitsRow.cmacsk (alg : Alg) (klen : KLen) : FitsRow.Statement (.cmacsk alg klen) := by
  intro _
  cases alg <;> cases klen <;> decide

/-- Every BLKSZ value of an assembled padding word lies above the bits the row fixes. -/
theorem assemble_blksz_fits :
    ∀ (q : Fin 3) (alg : Fin 2) (v : Fin 256),
      assemble (0x00000405 + 0x400 * q.val) alg.val 0 0 0 v.val &&& 0x00FFFEFF
        = BitVec.ofNat 32 (0x00000405 + 0x400 * q.val) := by decide +kernel

/-- Every MACLEN value of an assembled CBC-MAC word lies in the bits the row leaves open. -/
theorem assemble_maclen_fits :
    ∀ (q : Fin 3) (alg : Fin 2) (klen : Fin 4) (v : Fin 256),
      assemble (0x00000406 + 0x400 * q.val) alg.val klen.val 0 v.val 0 &&& 0xFF00CEFF
        = BitVec.ofNat 32 (0x00000406 + 0x400 * q.val) := by decide +kernel

/-- The same for the retail MAC words. -/
theorem assemble_rmac_fits :
    ∀ (q : Fin 3) (klen klen2 : Fin 4) (v : Fin 256),
      assemble (0x00000407 + 0x400 * q.val) 0 klen.val klen2.val v.val 0 &&& 0xFF000FFF
        = BitVec.ofNat 32 (0x00000407 + 0x400 * q.val) := by decide +kernel

theorem alg_code_lt (a : Alg) : a.code < 2 := by cases a <;> decide

theorem klen_code_lt (k : KLen) : k.code < 4 := by cases k <;> decide

theorem FitsRow.pad1 (alg : Alg) (blksz : Nat) : FitsRow.Statement (.pad1 alg blksz) := fun h =>
  assemble_blksz_fits 0 ⟨_, alg_code_lt alg⟩ ⟨_, lt_of_fitsField _ h⟩

theorem FitsRow.pad2 (alg : Alg) (blksz : Nat) : FitsRow.Statement (.pad2 alg blksz) := fun h =>
  assemble_blksz_fits 1 ⟨_, alg_code_lt alg⟩ ⟨_, lt_of_fitsField _ h⟩

theorem FitsRow.pad3 (alg : Alg) (blksz : Nat) : FitsRow.Statement (.pad3 alg blksz) := fun h =>
  assemble_blksz_fits 2 ⟨_, alg_code_lt alg⟩ ⟨_, lt_of_fitsField _ h⟩

theorem FitsRow.cbcmac1 (alg : Alg) (klen : KLen) (maclen : Nat) : FitsRow.Statement (.cbcmac1 alg klen maclen) :=
  fun h => assemble_maclen_fits 0 ⟨_, alg_code_lt alg⟩ ⟨_, klen_code_lt klen⟩ ⟨_, lt_of_fitsField _ h⟩

theorem FitsRow.cbcmac2 (alg : Alg) (klen : KLen) (maclen : Nat) : FitsRow.Statement (.cbcmac2 alg klen maclen) :=
  fun h => assemble_maclen_fits 1 ⟨_, alg_code_lt alg⟩ ⟨_, klen_code_lt klen⟩ ⟨_, lt_of_fitsField _ h⟩

theorem FitsRow.cbcmac3 (alg : Alg) (klen : KLen) (maclen : Nat) : FitsRow.Statement (.cbcmac3 alg klen maclen) :=
  fun h => assemble_maclen_fits 2 ⟨_, alg_code_lt alg⟩ ⟨_, klen_code_lt klen⟩ ⟨_, lt_of_fitsField _ h⟩

theorem FitsRow.rmac1 (klen klen2 : KLen) (maclen : Nat) : FitsRow.Statement (.rmac1 klen klen2 maclen) :=
  fun h => assemble_rmac_fits 0 ⟨_, klen_code_lt klen⟩ ⟨_, klen_code_lt klen2⟩ ⟨_, lt_of_fitsField _ h⟩

theorem FitsRow.rmac2 (klen klen2 : KLen) (maclen : Nat) : FitsRow.Statement (.rmac2 klen klen2 maclen) :=
  fun h => assemble_rmac_fits 1 ⟨_, klen_code_lt klen⟩ ⟨_, klen_code_lt klen2⟩ ⟨_, lt_of_fitsField _ h⟩

theorem FitsRow.rmac3 (klen klen2 : KLen) (maclen : Nat) : FitsRow.Statement (.rmac3 klen klen2 maclen) :=
  fun h => assemble_rmac_fits 2 ⟨_, klen_code_lt klen⟩ ⟨_, klen_code_lt klen2⟩ ⟨_, lt_of_fitsField _ h⟩

end Sys2Proof.Laws
end

