-- ==== Sys2Proof/Tests/Slice0.lean ====
section
/-! SUPPORT. The tests: the well-formedness smoke, the decoding of words written out from spec/30_encoding.md rules R51 to
R61, single steps on vectors of spec/95_test_vectors.md, and a witness for the hypotheses of every obligation. Every
expected value is the spec's. -/

open Sys2Proof Sys2Proof.Machine

section

-- The kernel evaluates these theorems, some for seconds: one at a time keeps few threads waiting.
set_option Elab.async false

/-! ## Well-formedness: an ill-formed term for each check -/

theorem test_wellFormed_accepts_the_bounds :
    (Instr.pad1 .des 255).wellFormed = true ∧ (Instr.pad2 .aes 0).wellFormed = true
    ∧ (Instr.cbcmac3 .des .k16 255).wellFormed = true ∧ (Instr.rmac2 .k8 .k32 255).wellFormed = true := by decide

theorem test_wellFormed_refuses_blksz_256 :
    (Instr.pad1 .des 256).wellFormed = false ∧ (Instr.pad2 .des 256).wellFormed = false
    ∧ (Instr.pad3 .aes 256).wellFormed = false := by decide

theorem test_wellFormed_refuses_cbcmac_maclen_256 :
    (Instr.cbcmac1 .des .k8 256).wellFormed = false ∧ (Instr.cbcmac2 .aes .k16 256).wellFormed = false
    ∧ (Instr.cbcmac3 .des .k8 256).wellFormed = false := by decide

theorem test_wellFormed_refuses_rmac_maclen_256 :
    (Instr.rmac1 .k8 .k8 256).wellFormed = false ∧ (Instr.rmac2 .k8 .k8 256).wellFormed = false
    ∧ (Instr.rmac3 .k8 .k8 256).wellFormed = false := by decide

/-! ## Decoding: a word for every command, its fields written out in the order of rule R51 (BLKSZ, MACLEN, KLEN2, KLEN, PAD,
bit 9, ALG, OP) -/

/-- The word of eight fields, most significant first (rule R51). -/
def fields (blksz maclen : BitVec 8) (klen2 klen pad : BitVec 2) (bit9 alg : BitVec 1) (op : BitVec 8) : Word :=
  blksz ++ maclen ++ klen2 ++ klen ++ pad ++ bit9 ++ alg ++ op

theorem test_decode_ecbenc : decode (fields 0 0 0b00 0b11 0b00 0 1 0x01) = .ok (.ecbenc .aes .k32) := by decide
theorem test_decode_ecbdec : decode (fields 0 0 0b00 0b10 0b00 0 0 0x02) = .ok (.ecbdec .des .k24) := by decide
theorem test_decode_cbcenc : decode (fields 0 0 0b00 0b01 0b00 0 1 0x03) = .ok (.cbcenc .aes .k16) := by decide
theorem test_decode_cbcdec : decode (fields 0 0 0b00 0b00 0b00 0 0 0x04) = .ok (.cbcdec .des .k8) := by decide
theorem test_decode_pad1 : decode (fields 0xFF 0 0b00 0b00 0b01 0 0 0x05) = .ok (.pad1 .des 255) := by decide
theorem test_decode_pad2 : decode (fields 0x01 0 0b00 0b00 0b10 0 1 0x05) = .ok (.pad2 .aes 1) := by decide
theorem test_decode_pad3 : decode (fields 0x80 0 0b00 0b00 0b11 0 0 0x05) = .ok (.pad3 .des 128) := by decide
theorem test_decode_cbcmac1 : decode (fields 0 0x04 0b00 0b01 0b01 0 0 0x06) = .ok (.cbcmac1 .des .k16 4) := by decide
theorem test_decode_cbcmac2 : decode (fields 0 0xFF 0b00 0b11 0b10 0 1 0x06) = .ok (.cbcmac2 .aes .k32 255) := by decide
theorem test_decode_cbcmac3 : decode (fields 0 0x08 0b00 0b10 0b11 0 0 0x06) = .ok (.cbcmac3 .des .k24 8) := by decide
theorem test_decode_rmac1 : decode (fields 0 0x05 0b01 0b10 0b01 0 0 0x07) = .ok (.rmac1 .k24 .k16 5) := by decide
theorem test_decode_rmac2 : decode (fields 0 0x00 0b11 0b00 0b10 0 0 0x07) = .ok (.rmac2 .k8 .k32 0) := by decide
theorem test_decode_rmac3 : decode (fields 0 0x80 0b10 0b01 0b11 0 0 0x07) = .ok (.rmac3 .k16 .k24 128) := by decide
theorem test_decode_cmacsk : decode (fields 0 0 0b00 0b01 0b00 0 1 0x08) = .ok (.cmacsk .aes .k16) := by decide

/-- Rule R59, cases (a) to (c), one word for each bound. -/
theorem test_decode_illegal_opcode_bit9_pad :
    decode 0x00000000 = .error .reservedOpcode ∧ decode 0x00000009 = .error .reservedOpcode
    ∧ decode 0x000000FF = .error .reservedOpcode ∧ decode 0x00000606 = .error .reservedBit9
    ∧ decode 0x00000005 = .error .missingPadScheme ∧ decode 0x00000006 = .error .missingPadScheme
    ∧ decode 0x00000007 = .error .missingPadScheme := by decide

/-- Rule R59, case (d): a PAD, KLEN2, MACLEN or BLKSZ that is no operand; T140 the first. -/
theorem test_decode_illegal_d :
    decode 0x00000408 = .error .nonOperandField ∧ decode 0x00004001 = .error .nonOperandField
    ∧ decode 0x00010002 = .error .nonOperandField ∧ decode 0x01000003 = .error .nonOperandField
    ∧ decode 0x00000804 = .error .nonOperandField := by decide

/-- Rule R59, cases (e), (f) and (g): T133, T135, T134, T136, T137, T138 and T139. -/
theorem test_decode_illegal_e_f_g :
    decode 0x00001405 = .error .nonOperandField ∧ decode 0x00004405 = .error .nonOperandField
    ∧ decode 0x00010405 = .error .nonOperandField ∧ decode 0x08000406 = .error .nonOperandField
    ∧ decode 0x00004406 = .error .nonOperandField ∧ decode 0x00000507 = .error .nonOperandField
    ∧ decode 0x08000407 = .error .nonOperandField := by decide

theorem test_encode_of_spec_words :
    encode (.cbcmac2 .aes .k32 0) = 0x00003906 ∧ encode (.rmac3 .k8 .k16 4) = 0x00044C07
    ∧ encode (.pad1 .aes 8) = 0x08000505 := by decide +kernel

theorem test_decodeTableWord :
    decodeTableWord 32 0x00041406 = some (.cbcmac1 .des .k16 4) ∧ decodeTableWord 32 0 = none := by decide

/-! ## Small states, and what a host sees after one step -/

/-- A register loaded with the first bytes of a string, the rest 0x00 (rule R63). -/
def loadReg (n : Nat) (b : Bytes) : Vector Byte n := Vector.ofFn fun i => b.getD i.val 0

/-- The state after reset with operands loaded (rule R63). -/
def loaded (key1 key2 iv inp : Bytes) : State :=
  { State.reset with
    key1 := loadReg 32 key1, key2 := loadReg 32 key2, iv := loadReg 16 iv, ibuf := Memory.ofBytes inp,
    ilen := BitVec.ofNat 32 inp.length }

/-- What the host reads after the step that runs a word: the bytes of OBUF up to OLEN, OLEN and STATUS. -/
def outcome (w : Nat) (s : State) : Option (Bytes × Nat × Nat) :=
  match step (s.withFetchWord 32 w) with
  | .next t => some (t.obuf.readBytes 0 t.olen.toNat, t.olen.toNat, t.status.toNat)
  | _ => none

/-! ## One access -/

/-- A state of a small configuration (section 2.9 of the vectors) with ILEN = n. -/
def small (n : Nat) : State := { State.resetFor ⟨64, 32⟩ with ilen := BitVec.ofNat 32 n }

/-- The state whose host is about to do the events of a list. -/
def about (s : State) (script : List HostEvent) : State := { s with script := script }

/-- STATUS and the value last read, after one step. -/
def seen (s : State) : Option (Nat × Option Word) :=
  match step s with
  | .next t => some (t.status.toNat, t.lastRead)
  | _ => none

/-- A1, A5, A6 and an unexpressed width: refused reads return zero and set ACCERR. -/
theorem test_refused_reads_A1_A5_A6 :
    ∀ e ∈ [HostEvent.read32 0x00018, .read32 0x00040, .read32 0x00002, .read8 0x00004, .read8 (0x20000 + 10512),
        .readOther 0x00004], seen (about State.reset [e]) = some (0x00000200, some 0) := by decide +kernel

/-- A3, A4, A9, A13. -/
theorem test_refused_writes_A3_A4_A9 :
    ∀ e ∈ [HostEvent.write32 0x0000C 5, .write8 0x20000 0xAA, .write8 (0x10000 + 10240) 1, .write32 0x00010 5],
      seen (about State.reset [e]) = some (0x00000200, none) := by decide +kernel

/-- A7 and A8: a key byte reads as 0x00, an IV byte as it is. -/
theorem test_key_and_iv_reads_A7_A8 :
    let s := { State.reset with key1 := loadReg 32 [0x13], iv := loadReg 16 [0x5A] }
    seen (about s [.read8 0x00040]) = some (0, some 0) ∧ seen (about s [.read8 0x00080]) = some (0, some 0x5A) := by
  decide +kernel

/-- A14 and A15. -/
theorem test_status_writes_A14_A15 :
    let s := { State.reset with status := 0x00000200 }
    seen (about s [.write32 0x00004 0xFFFFFCFF]) = some (0x00000200, none)
    ∧ seen (about s [.write32 0x00004 0xFFFFFFFF]) = some (0, none) := by decide +kernel

/-- A13 and A17. -/
theorem test_constant_reads_A13_A17 :
    seen (about State.reset [.read32 0x00010]) = some (0, some 10240)
    ∧ seen (about State.reset [.read32 0x00014]) = some (0, some 10512)
    ∧ seen (about State.reset [.read32 0x00000]) = some (0, some 0) := by decide +kernel

/-- T155 and T157: overflow in the small configuration. -/
theorem test_overflow_T155_T157 :
    outcome 0x00000001 (small 40) = some ([], 0, 0x00000172) ∧ outcome 0x00000805 (small 32) = some ([], 0, 0x00000172) := by
  decide +kernel

/-! ## Witnesses: for every obligation with hypotheses, concrete values that meet all of them together, for each clause and
at the bounds -/

theorem witness_DecodeOfEncodeIsTheCommand :
    (Instr.pad3 .des 255).wellFormed = true ∧ (Instr.cbcmac1 .aes .k32 0).wellFormed = true := by decide

theorem witness_EncodeOfDecodeIsTheWord :
    decode 0xFF000C05 = .ok (.pad3 .des 255) ∧ decode 0x00FFFC07 = .ok (.rmac3 .k32 .k32 255) := by decide

theorem witness_IllegalWordsAreExactlyTheListed :
    (∃ e, decode 0x00000000 = .error e) ∧ (∃ e, decode 0x00000009 = .error e) ∧ (∃ e, decode 0x00000606 = .error e)
    ∧ (∃ e, decode 0x00000005 = .error e) ∧ (∃ e, decode 0x01000008 = .error e) ∧ (∃ e, decode 0x00004405 = .error e)
    ∧ (∃ e, decode 0x01000406 = .error e) ∧ (∃ e, decode 0x00000507 = .error e) := by
  refine ⟨⟨_, rfl⟩, ⟨_, rfl⟩, ⟨_, rfl⟩, ⟨_, rfl⟩, ⟨_, rfl⟩, ⟨_, rfl⟩, ⟨_, rfl⟩, ⟨_, rfl⟩⟩

theorem witness_StepRunsTheWrittenCommand :
    let s := about (small 32) [.write32 0x00000 0x00003101, .read32 0x00004]
    s.script = .write32 0x00000 0x00003101 :: [.read32 0x00004] ∧ decode 0x00003101 = .ok (.ecbenc .aes .k32) :=
  ⟨rfl, by decide⟩

theorem witness_UnmatchedWordIsRefusedWithCodeOne :
    let s := about (small 32) [.write32 0x00000 0x00000009]
    s.script = [.write32 0x00000 0x00000009] ∧ ∀ r ∈ opcodeMap, (0x00000009 : Word) &&& r.mask ≠ r.pattern :=
  ⟨rfl, by decide⟩

/-- The first offset outside, for each kind of access; the last one inside gives a next state. -/
theorem witness_StepStopsOnlyOutsideTheWindow :
    (∀ e ∈ [HostEvent.read32 0x30000, .write32 0x30000 1, .read8 0x30000, .write8 0x30000 1, .readOther 0x30000,
        .writeOther 0x30000],
      (about (small 0) [e]).script = [e] ∧ eventOffset e = some 0x30000 ∧ 0x30000 ≤ 0x30000)
    ∧ ∃ t, step (about (small 0) [.read32 0x2FFFF]) = .next t :=
  ⟨by decide, ⟨_, rfl⟩⟩

theorem witness_RunsInTheWindowAreSafe : ScriptInWindow (about (small 0) [.write32 0 1, .read32 0x2FFFF, .reset]) := by
  intro e he
  fin_cases he <;> decide

/-- The hypotheses of the four mode statements, with j the first and the last block, at the full buffer. -/
theorem witness_EcbencEnciphersEveryBlock :
    let s := small 32
    keyOK .aes (klenBytes .k32) = true ∧ s.ilen.toNat ≤ s.params.ibufBytes ∧ s.ilen.toNat % blockSize .aes = 0
    ∧ s.ilen.toNat ≤ s.params.obufBytes ∧ 0 < s.ilen.toNat / blockSize .aes ∧ 1 < s.ilen.toNat / blockSize .aes := by decide

theorem witness_EcbdecDeciphersEveryBlock :
    let s := small 8
    keyOK .des (klenBytes .k8) = true ∧ s.ilen.toNat ≤ s.params.ibufBytes ∧ s.ilen.toNat % blockSize .des = 0
    ∧ s.ilen.toNat ≤ s.params.obufBytes ∧ 0 < s.ilen.toNat / blockSize .des := by decide

theorem witness_CbcencChainsFromTheIV :
    let s := small 16
    keyOK .des (klenBytes .k24) = true ∧ s.ilen.toNat ≤ s.params.ibufBytes ∧ s.ilen.toNat % blockSize .des = 0
    ∧ s.ilen.toNat ≤ s.params.obufBytes ∧ 0 < s.ilen.toNat / blockSize .des ∧ 1 < s.ilen.toNat / blockSize .des := by decide

theorem witness_CbcdecUnchainsFromTheIV :
    let s := small 32
    keyOK .aes (klenBytes .k16) = true ∧ s.ilen.toNat ≤ s.params.ibufBytes ∧ s.ilen.toNat % blockSize .aes = 0
    ∧ s.ilen.toNat ≤ s.params.obufBytes ∧ 0 < s.ilen.toNat / blockSize .aes ∧ 1 < s.ilen.toNat / blockSize .aes := by decide

/-- The empty input, and the result that just fits. -/
theorem witness_Pad1ZeroPadsTheInput :
    (small 0).params.legal ∧ (small 0).ilen.toNat ≤ (small 0).params.ibufBytes
    ∧ pad1Length (small 0).ilen.toNat 16 ≤ (small 0).params.obufBytes
    ∧ (small 32).ilen.toNat ≤ (small 32).params.ibufBytes
    ∧ pad1Length (small 32).ilen.toNat 1 ≤ (small 32).params.obufBytes := by decide

theorem witness_Pad2MarksTheEndOfTheInput :
    (small 31).params.legal ∧ (small 31).ilen.toNat ≤ (small 31).params.ibufBytes
    ∧ ((small 31).ilen.toNat / 8 + 1) * 8 ≤ (small 31).params.obufBytes := by decide

/-- A one-byte prefix with the longest input it can count, and an eight-byte prefix with the result that just fits. -/
theorem witness_Pad3PrefixesTheBitLength :
    (small 31).params.legal ∧ (small 31).ilen.toNat ≤ (small 31).params.ibufBytes
    ∧ 8 * (small 31).ilen.toNat < 2 ^ (8 * 1) ∧ 1 + pad1Length (small 31).ilen.toNat 1 ≤ (small 31).params.obufBytes
    ∧ 8 * (small 24).ilen.toNat < 2 ^ (8 * 8) ∧ 8 + pad1Length (small 24).ilen.toNat 8 ≤ (small 24).params.obufBytes := by
  decide

theorem witness_CbcmacOneAndTwoTruncateTheChain :
    keyOK .aes (klenBytes .k24) = true ∧ 16 ≤ blockSize .aes ∧ keyOK .des (klenBytes .k16) = true ∧ 1 ≤ blockSize .des
    ∧ (small 64).ilen.toNat ≤ (small 64).params.ibufBytes := by decide

theorem witness_CbcmacThreeOfDesTruncatesTheChain :
    keyOK .des (klenBytes .k24) = true ∧ (if 0 = 0 then 8 else 0) ≤ 8 ∧ (if 8 = 0 then 8 else 8) ≤ 8
    ∧ (small 64).ilen.toNat ≤ (small 64).params.ibufBytes := by decide

theorem witness_CbcmacThreeOfAesIsAlwaysRefused :
    keyOK .aes (klenBytes .k16) = true ∧ 16 ≤ 16 ∧ (small 64).ilen.toNat ≤ (small 64).params.ibufBytes := by decide

theorem witness_RetailMacCommandsEncipherTheZeroBlock :
    Instr.rmac3 .k8 .k24 8 ∈ [Instr.rmac1 .k8 .k24 8, .rmac2 .k8 .k24 8, .rmac3 .k8 .k24 8]
    ∧ keyOK .des (klenBytes .k8) = true ∧ keyOK .des (klenBytes .k24) = true ∧ (if 8 = 0 then 8 else 8) ≤ 8
    ∧ (small 64).ilen.toNat ≤ (small 64).params.ibufBytes := by decide

theorem witness_CmacskReturnsTheSubkeyPair :
    keyOK .des (klenBytes .k8) = true ∧ keyOK .aes (klenBytes .k32) = true := by decide

/-- A state of a given configuration with ILEN = n. -/
def sized (ibufBytes obufBytes n : Nat) : State :=
  { State.resetFor ⟨ibufBytes, obufBytes⟩ with ilen := BitVec.ofNat 32 n }

/-- The error code each command of a list leaves. -/
def codes (commands : List Instr) (s : State) : List (Option Nat) :=
  commands.map fun i => match exec i s with
    | .next t => some (statusErrcode t.status).toNat
    | _ => none

/-- The four mode commands. -/
def modeCommands (alg : Alg) (klen : KLen) : List Instr :=
  [.ecbenc alg klen, .ecbdec alg klen, .cbcenc alg klen, .cbcdec alg klen]

/-- A state for each branch: a key length outside the family (with every later check failing too), ILEN = IBUF_BYTES + 1
and IBUF_BYTES, a length off a block boundary, one block more than OBUF_BYTES and OBUF_BYTES itself; and the code each of
the four commands leaves there. -/
theorem witness_ModeCommandsReportTheFirstError :
    (keyOK .des (klenBytes .k32) = false ∧ codes (modeCommands .des .k32) (sized 64 32 65) = List.replicate 4 (some 2))
    ∧ (keyOK .aes (klenBytes .k8) = false ∧ codes (modeCommands .aes .k8) (sized 64 32 65) = List.replicate 4 (some 2))
    ∧ (keyOK .des (klenBytes .k8) = true ∧ (sized 64 32 65).ilen.toNat = (sized 64 32 65).params.ibufBytes + 1
      ∧ codes (modeCommands .des .k8) (sized 64 32 65) = List.replicate 4 (some 4))
    ∧ ((sized 64 64 64).ilen.toNat = (sized 64 64 64).params.ibufBytes
      ∧ codes (modeCommands .des .k8) (sized 64 64 64) = List.replicate 4 (some 0))
    ∧ ((sized 64 32 33).ilen.toNat % blockSize .des ≠ 0
      ∧ codes (modeCommands .des .k24) (sized 64 32 33) = List.replicate 4 (some 6))
    ∧ ((sized 64 32 40).ilen.toNat % blockSize .aes ≠ 0
      ∧ codes (modeCommands .aes .k16) (sized 64 32 40) = List.replicate 4 (some 6))
    ∧ ((sized 64 32 40).ilen.toNat % blockSize .des = 0 ∧ (sized 64 32 40).ilen.toNat > (sized 64 32 40).params.obufBytes
      ∧ codes (modeCommands .des .k16) (sized 64 32 40) = List.replicate 4 (some 7))
    ∧ ((sized 64 32 32).ilen.toNat = (sized 64 32 32).params.obufBytes
      ∧ codes (modeCommands .aes .k32) (sized 64 32 32) = List.replicate 4 (some 0)) := by decide +kernel

/-- A state for each branch: ILEN = IBUF_BYTES + 1 and IBUF_BYTES; a padded length just above OBUF_BYTES and equal to it,
for each scheme; a bit length just below and at 2^(8p), for the one-byte and the two-byte prefix; and the code left there. -/
theorem witness_PadCommandsReportTheFirstError :
    ((sized 64 32 65).ilen.toNat = (sized 64 32 65).params.ibufBytes + 1
      ∧ codes [.pad1 .des 0, .pad2 .aes 255, .pad3 .des 1] (sized 64 32 65) = [some 4, some 4, some 4])
    ∧ ((sized 64 128 64).ilen.toNat = (sized 64 128 64).params.ibufBytes
      ∧ codes [.pad1 .des 0, .pad2 .aes 0, .pad3 .des 0] (sized 64 128 64) = [some 0, some 0, some 0])
    ∧ (pad1Length 33 8 = 40 ∧ codes [.pad1 .des 0] (sized 64 32 33) = [some 7]
      ∧ pad1Length 32 8 = 32 ∧ codes [.pad1 .des 0] (sized 64 32 32) = [some 0])
    ∧ ((32 / 8 + 1) * 8 = 40 ∧ codes [.pad2 .des 0] (sized 64 32 32) = [some 7]
      ∧ (31 / 8 + 1) * 8 = 32 ∧ codes [.pad2 .des 0] (sized 64 32 31) = [some 0])
    ∧ (8 + pad1Length 25 8 = 40 ∧ codes [.pad3 .des 0] (sized 64 32 25) = [some 7]
      ∧ 8 + pad1Length 24 8 = 32 ∧ codes [.pad3 .des 0] (sized 64 32 24) = [some 0])
    ∧ (8 * 32 = 2 ^ (8 * 1) ∧ codes [.pad3 .des 1] (sized 64 64 32) = [some 5]
      ∧ 8 * 31 < 2 ^ (8 * 1) ∧ codes [.pad3 .des 1] (sized 64 32 31) = [some 0])
    ∧ (8 * 8192 = 2 ^ (8 * 2) ∧ codes [.pad3 .aes 2] (sized 10240 10512 8192) = [some 5]
      ∧ 8 * 8191 < 2 ^ (8 * 2) ∧ 2 + pad1Length 8191 2 ≤ 10512) := by decide +kernel

/-- The three CBC-MAC commands. -/
def cbcmacCommands (alg : Alg) (klen : KLen) (maclen : Nat) : List Instr :=
  [.cbcmac1 alg klen maclen, .cbcmac2 alg klen maclen, .cbcmac3 alg klen maclen]

/-- A state for each branch: a key length outside the family (with every later check failing too), MACLEN one above the
block size and equal to it, ILEN = IBUF_BYTES + 1 and IBUF_BYTES, and CBCMAC3 of AES; and the codes left there. -/
theorem witness_CbcmacCommandsReportTheFirstError :
    (keyOK .des (klenBytes .k32) = false ∧ codes (cbcmacCommands .des .k32 9) (sized 64 32 65) = [some 2, some 2, some 2])
    ∧ (keyOK .aes (klenBytes .k8) = false ∧ codes (cbcmacCommands .aes .k8 17) (sized 64 32 65) = [some 2, some 2, some 2])
    ∧ (blockSize .des + 1 = 9 ∧ codes (cbcmacCommands .des .k8 9) (sized 64 32 65) = [some 3, some 3, some 3])
    ∧ (blockSize .aes + 1 = 17 ∧ codes (cbcmacCommands .aes .k16 17) (sized 64 32 65) = [some 3, some 3, some 3])
    ∧ ((sized 64 32 65).ilen.toNat = (sized 64 32 65).params.ibufBytes + 1
      ∧ codes (cbcmacCommands .des .k8 8) (sized 64 32 65) = [some 4, some 4, some 4]
      ∧ codes (cbcmacCommands .aes .k16 16) (sized 64 32 65) = [some 4, some 4, some 4])
    ∧ ((sized 64 32 64).ilen.toNat = (sized 64 32 64).params.ibufBytes
      ∧ codes (cbcmacCommands .des .k24 8) (sized 64 32 64) = [some 0, some 0, some 0]
      ∧ codes (cbcmacCommands .aes .k32 16) (sized 64 32 64) = [some 0, some 0, some 6]) := by decide +kernel

/-- The three retail MAC commands. -/
def rmacCommands (klen klen2 : KLen) (maclen : Nat) : List Instr :=
  [.rmac1 klen klen2 maclen, .rmac2 klen klen2 maclen, .rmac3 klen klen2 maclen]

/-- A state for each branch: a first and a second key of 32 bytes (with every later check failing too), MACLEN 9 and 8,
ILEN = IBUF_BYTES + 1 and IBUF_BYTES; and the code left there. -/
theorem witness_RetailMacCommandsReportTheFirstError :
    codes (rmacCommands .k32 .k8 9) (sized 64 32 65) = [some 2, some 2, some 2]
    ∧ codes (rmacCommands .k8 .k32 9) (sized 64 32 65) = [some 2, some 2, some 2]
    ∧ codes (rmacCommands .k8 .k16 9) (sized 64 32 65) = [some 3, some 3, some 3]
    ∧ ((sized 64 32 65).ilen.toNat = (sized 64 32 65).params.ibufBytes + 1
      ∧ codes (rmacCommands .k8 .k16 8) (sized 64 32 65) = [some 4, some 4, some 4])
    ∧ ((sized 64 32 64).ilen.toNat = (sized 64 32 64).params.ibufBytes
      ∧ codes (rmacCommands .k24 .k24 8) (sized 64 32 64) = [some 0, some 0, some 0]) := by decide +kernel

/-- Both branches, with an ILEN no other command takes. -/
theorem witness_CmacskReportsOnlyTheKeyLength :
    codes [.cmacsk .des .k32, .cmacsk .aes .k8] (sized 64 32 0xFFFFFFFF) = [some 2, some 2]
    ∧ codes [.cmacsk .des .k8, .cmacsk .aes .k32] (sized 64 32 0xFFFFFFFF) = [some 0, some 0] := by decide +kernel

/-- A first key, a second key and a key of AES of a length the family does not have. -/
theorem witness_KeyLengthsOutsideTheFamilyAreRefused :
    (∃ k ∈ keysNamed (.ecbenc .des .k32), keyOK k.1 k.2 = false)
    ∧ (∃ k ∈ keysNamed (.rmac1 .k8 .k32 0), keyOK k.1 k.2 = false)
    ∧ (∃ k ∈ keysNamed (.cmacsk .aes .k8), keyOK k.1 k.2 = false) :=
  ⟨⟨(.des, 32), by decide, by decide⟩, ⟨(.des, 32), by decide, by decide⟩, ⟨(.aes, 8), by decide, by decide⟩⟩

theorem witness_EveryCommandSucceedsOrIsRefused :
    (State.resetFor ⟨16, 32⟩).params.legal ∧ (State.resetFor ⟨65536, 65536⟩).params.legal := by decide

theorem witness_CommandsKeepTheirOperands :
    (∃ t, exec (.pad2 .des 0) (small 5) = .next t) ∧ (∃ t, exec (.ecbenc .des .k8) (small 5) = .next t) :=
  ⟨⟨_, rfl⟩, ⟨_, rfl⟩⟩

theorem witness_FinishLeavesTheResultAndZeros :
    (small 0).params.legal ∧ (List.replicate 32 (0xAA : Byte)).length ≤ (small 0).params.obufBytes
    ∧ ([] : Bytes).length ≤ (small 0).params.obufBytes := by decide

theorem witness_RefusalDependsOnNoSecret :
    let s := small 8
    let s' := { small 8 with key1 := loadReg 32 [1], iv := loadReg 16 [2], ibuf := [(0, 3)] }
    s.ilen = s'.ilen ∧ s.params = s'.params := by decide

theorem witness_OutcomeDependsOnTheOperandsAlone :
    SameOperands (small 8) { small 8 with status := 0x00000302, obuf := [(0, 1)], olen := 1 } :=
  ⟨rfl, rfl, rfl, fun _ => rfl, rfl, rfl⟩

theorem witness_RepeatedCommandChangesNothing :
    (∃ t, exec (.pad1 .aes 0) (small 5) = .next t) ∧ (∃ t, exec (.cmacsk .aes .k8) (small 5) = .next t) :=
  ⟨⟨_, rfl⟩, ⟨_, rfl⟩⟩

theorem witness_BlockFunctionsAreInverse :
    keyOK .des (zeros 24).length = true ∧ (zeros 8).length = blockSize .des
    ∧ keyOK .aes (zeros 32).length = true ∧ (zeros 16).length = blockSize .aes := by decide

/-- Two keys that differ in every parity bit and nowhere else, and a block. -/
theorem witness_SingleDesInvertsAndIgnoresParity :
    let k := be 0x133457799BBCDFF1 8
    let k' := be 0x123556789ABDDEF0 8
    k.length = 8 ∧ k'.length = 8 ∧ (zeros 8).length = 8
    ∧ k.map (fun x => x &&& 0xFE) = k'.map (fun x => x &&& 0xFE) := by decide

/-- Three different keys and a block. -/
theorem witness_TripleDesKeyingOptions :
    (be 0x0123456789ABCDEF 8).length = 8 ∧ (be 0x23456789ABCDEF01 8).length = 8
    ∧ (be 0x456789ABCDEF0123 8).length = 8 ∧ (be 0x5468652071756963 8).length = 8 := by decide

/-- Both cases of the inverse: of 0, and of a byte whose inverse is not itself. -/
theorem witness_AesSBoxIsInverseThenAffine :
    ((0x00 : Byte) = 0) ∧ ((0x53 : Byte) ≠ 0) ∧ gfMul 0xCA 0x53 = 1 := by decide

theorem witness_EcbDecryptionUndoesEncryption :
    keyOK .des (zeros 16).length = true ∧ (zeros 16).length % blockSize .des = 0 ∧ 0 < (zeros 16).length / blockSize .des
    ∧ 1 < (zeros 16).length / blockSize .des ∧ ([] : Bytes).length % blockSize .des = 0 := by decide

theorem witness_CbcDecryptionUndoesEncryption :
    keyOK .aes (zeros 32).length = true ∧ (zeros 16).length = blockSize .aes
    ∧ (zeros 32).length % blockSize .aes = 0 ∧ 0 < (zeros 32).length / blockSize .aes
    ∧ 1 < (zeros 32).length / blockSize .aes ∧ (List.replicate 16 (0xFF : Byte)).length = blockSize .aes := by decide

/-- The empty string with the largest block size, a string of one byte with the smallest; a command with the largest block
size that succeeds, one that is refused; and the smallest OBUF that holds the longest result of an empty input. -/
theorem witness_PaddedLengths :
    (1 ≤ 255 ∧ 255 ≤ 255 ∧ 255 = 255 ∧ ([] : Bytes).length = 0 ∧ ([] : Bytes).length ≤ 65536)
    ∧ (1 ≤ 1 ∧ 1 ≤ 255 ∧ 0 < ([0x41] : Bytes).length ∧ ([0x41] : Bytes).length ≤ 65536)
    ∧ ((Instr.pad3 .des 255).wellFormed = true ∧ (∃ t, exec (.pad3 .des 255) (sized 64 263 0) = .next t)
      ∧ (∃ t, exec (.pad3 .des 255) (sized 64 263 1) = .next t))
    ∧ (sized 64 263 0).ilen = 0 ∧ 263 ≤ (sized 64 263 0).params.obufBytes :=
  ⟨by decide, by decide, ⟨rfl, ⟨_, rfl⟩, ⟨_, rfl⟩⟩, rfl, by decide⟩

/-- A state with the output buffer of another as its input. -/
def handedBack (s t : State) : State := { s with ibuf := t.obuf }

theorem handedBack_read (s t : State) (a : Nat) : (handedBack s t).ibuf.read a = t.obuf.read a := rfl

/-- One block of single DES: the result of ECBENC, or of CBCENC, handed back as input. -/
theorem witness_DecryptingTheResultReturnsTheInput :
    let s := small 8
    let key := key1Operand .k8 s
    (let t := finish (ecbEnc .des key (input s)) s
     let u := handedBack s t
     exec (.ecbenc .des .k8) s = .next t ∧ statusDone t.status = true ∧ u.key1 = s.key1 ∧ u.iv = s.iv ∧ u.ilen = s.ilen
      ∧ u.params = s.params ∧ ∀ a, a < s.ilen.toNat → u.ibuf.read a = t.obuf.read a)
    ∧ (let t := finish (cbcEnc .des key (ivOperand .des s) (input s)) s
     let u := handedBack s t
     exec (.cbcenc .des .k8) s = .next t ∧ statusDone t.status = true ∧ u.key1 = s.key1 ∧ u.iv = s.iv ∧ u.ilen = s.ilen
      ∧ u.params = s.params ∧ ∀ a, a < s.ilen.toNat → u.ibuf.read a = t.obuf.read a) :=
  ⟨⟨congrArg _ (runCommand_of_pass _ _ _ (by decide)), rfl, rfl, rfl, rfl, rfl, fun a _ => handedBack_read _ _ a⟩,
    ⟨congrArg _ (runCommand_of_pass _ _ _ (by decide)), rfl, rfl, rfl, rfl, rfl, fun a _ => handedBack_read _ _ a⟩⟩

/-- Every offset of the read column, the first one refused and the last one of the window. -/
theorem witness_WordReads :
    ∀ off ∈ [0x00000, 0x00004, 0x00008, 0x0000C, 0x00010, 0x00014, 0x00018, 0x00001, 0x2FFFF],
      off < 0x30000 ∧ (about (small 8) [.read32 off]).script = [.read32 off] := by decide

theorem witness_WordWrites :
    ∀ off ∈ [0x00000, 0x00004, 0x00008, 0x0000C, 0x00010, 0x00014, 0x00018, 0x00001, 0x2FFFF],
      off < 0x30000 ∧ (about (small 8) [.write32 off 0x00000405]).script = [.write32 off 0x00000405] := by decide

/-- The first and the last byte of each region. -/
theorem witness_ByteReads :
    (small 8).params.legal
    ∧ (∀ off ∈ [0x40, 0x7F], 0x40 ≤ off ∧ off < 0x80 ∧ (about (small 8) [.read8 off]).script = [.read8 off])
    ∧ (∀ i ∈ [(0 : Fin 16), 15], (about (small 8) [.read8 (0x80 + i.val)]).script = [.read8 (0x80 + i.val)])
    ∧ (∀ a ∈ [0, 63], a < (small 8).params.ibufBytes
      ∧ (about (small 8) [.read8 (0x10000 + a)]).script = [.read8 (0x10000 + a)])
    ∧ (∀ a ∈ [0, 31], a < (small 8).params.obufBytes
      ∧ (about (small 8) [.read8 (0x20000 + a)]).script = [.read8 (0x20000 + a)]) := by decide

theorem witness_KeyAndIVByteWrites :
    (∀ i ∈ [(0 : Fin 32), 31], (about (small 8) [.write8 (0x40 + i.val) 0xAB]).script = [.write8 (0x40 + i.val) 0xAB])
    ∧ (∀ i ∈ [(0 : Fin 32), 31], (about (small 8) [.write8 (0x60 + i.val) 0xAB]).script = [.write8 (0x60 + i.val) 0xAB])
    ∧ (∀ i ∈ [(0 : Fin 16), 15], (about (small 8) [.write8 (0x80 + i.val) 0xAB]).script = [.write8 (0x80 + i.val) 0xAB]) := by
  decide

theorem witness_InputBufferByteWrite :
    ∀ a ∈ [0, 63], (small 8).ibuf.wf = true ∧ (small 8).params.legal ∧ a < (small 8).params.ibufBytes
      ∧ (about (small 8) [.write8 (0x10000 + a) 0xAB]).script = [.write8 (0x10000 + a) 0xAB] := by decide

/-- A refused access of every kind at its bounds, and the two ways ACCERR is cleared. -/
theorem witness_RefusedAccessOnlySetsAccerr :
    (∀ e ∈ [HostEvent.read32 0x18, .read32 0x2FFFF, .write32 0x0C 1, .read8 0x3F, .read8 0x90, .read8 (0x10000 + 64),
        .read8 (0x20000 + 32), .write8 0x90 1, .write8 0x20000 1, .write8 (0x10000 + 64) 1, .readOther 0, .writeOther 0],
      eventInWindow e = true ∧ (about (small 8) [e]).script = [e])
    ∧ accessRefused ⟨64, 32⟩ (.read32 0x18) ∧ accessRefused ⟨64, 32⟩ (.write32 0x0C 1)
    ∧ accessRefused ⟨64, 32⟩ (.read8 0x90) ∧ accessRefused ⟨64, 32⟩ (.write8 0x20000 1)
    ∧ accessRefused ⟨64, 32⟩ (.readOther 0) ∧ accessRefused ⟨64, 32⟩ (.writeOther 0)
    ∧ (∀ e ∈ [HostEvent.reset, .write32 0x00004 0x00000200],
      ∃ t, step (about { small 8 with status := 0x00000200 } [e]) = .next t
        ∧ statusAccerr (about { small 8 with status := 0x00000200 } [e]).status = true
        ∧ statusAccerr t.status = false)
    ∧ ∀ off ∈ [0x40, 0x7F], 0x40 ≤ off ∧ off < 0x80 ∧ (about (small 8) [.read8 off]).script = [.read8 off] := by
  refine ⟨by decide, ?_, ?_, ?_, ?_, trivial, trivial, ?_, by decide⟩
  · simp [accessRefused]
  · simp [accessRefused]
  · simp [accessRefused]
  · simp [accessRefused]
  · intro e he
    fin_cases he <;> exact ⟨_, rfl, rfl, rfl⟩

/-- One event of every kind. -/
theorem witness_StickyTracksRefusedCommands :
    ∀ e ∈ [HostEvent.reset, .write32 0 0, .write32 4 0x100, .write32 8 1, .read32 0, .read8 0x40, .write8 0x40 1,
        .readOther 0, .writeOther 0],
      ∃ t, (about (small 8) [e]).script = [e] ∧ step (about (small 8) [e]) = .next t := by
  intro e he
  fin_cases he <;> exact ⟨_, rfl, rfl⟩

theorem witness_StatusWriteClearsOnlyTheStickyBits :
    (about { small 8 with status := 0x00000312 } [.write32 0x00004 0x00000100]).script
      = [.write32 0x00004 0x00000100] ∧ 8 < 32 ∧ 31 < 32 := by decide

theorem witness_SizeRegistersReadTheParameters :
    (State.resetFor ⟨65536, 32⟩).params.legal
    ∧ (about (State.resetFor ⟨65536, 32⟩) [.read32 0x00010]).script = [.read32 0x00010]
    ∧ (about (State.resetFor ⟨65536, 32⟩) [.read32 0x00014]).script = [.read32 0x00014]
    ∧ (about (small 8) [.write32 0x00010 1]).script = [.write32 0x00010 1]
    ∧ (about (small 8) [.write32 0x00014 1]).script = [.write32 0x00014 1]
    ∧ ∃ t, step (about (small 8) [.reset]) = .next t := by
  refine ⟨by decide, rfl, rfl, rfl, rfl, ⟨_, rfl⟩⟩

theorem witness_ResetEventZeroesTheEngine :
    (about { small 8 with status := 0x00000312, key1 := loadReg 32 [1] } [.reset, .read32 4]).script
      = .reset :: [.read32 4] := rfl

theorem witness_ResetEventKeepsTheHostsFields :
    (about { small 8 with lastRead := some 5 } [.reset, .read32 4]).script = .reset :: [.read32 4] := rfl

theorem witness_ResetMeetsTheInvariant : Params.legal ⟨16, 32⟩ ∧ Params.legal ⟨65536, 65536⟩ := by decide

/-- A state with a result, and the step of a command that is refused. -/
theorem witness_StepKeepsTheInvariant :
    let s := about { small 5 with obuf := [(7, 1)], olen := 8, status := 0x00000101 } [.write32 0 1]
    EngineInv s ∧ ∃ t, step s = .next t :=
  ⟨by constructor <;> decide, ⟨_, rfl⟩⟩

/-- A host write that clears STICKY, and a read where it was cleared before. -/
theorem witness_ErrImpliesStickyUntilTheHostClearsIt :
    (∃ t, step (about { small 5 with status := 0x00000112 } [.write32 0x00004 0x00000100]) = .next t
      ∧ statusErr t.status = true ∧ statusSticky t.status = false)
    ∧ (∃ t, step (about { small 5 with status := 0x00000012 } [.read32 0x00004]) = .next t
      ∧ statusErr t.status = true ∧ statusSticky t.status = false) :=
  ⟨⟨_, rfl, rfl, rfl⟩, ⟨_, rfl, rfl, rfl⟩⟩

/-! ## One command on a small state. The kernel runs a cipher in each. -/

/-- T1. -/
theorem test_ecbenc_des_T1 :
    outcome 0x00000001 (loaded (be 0x133457799BBCDFF1 8) [] [] (be 0x0123456789ABCDEF 8))
      = some (be 0x85E813540F0AB405 8, 8, 0x00000001) := by decide +kernel

/-- T11. -/
theorem test_ecbenc_aes_T11 :
    outcome 0x00002101 (loaded (be 0x000102030405060708090A0B0C0D0E0F1011121314151617 24) [] []
        (be 0x00112233445566778899AABBCCDDEEFF 16))
      = some (be 0xDDA97CA4864CDFE06EAF70A0EC0D7191 16, 16, 0x00000001) := by decide +kernel

/-- T13. -/
theorem test_ecbdec_aes_T13 :
    outcome 0x00003102 (loaded (be 0x000102030405060708090A0B0C0D0E0F101112131415161718191A1B1C1D1E1F 32) [] []
        (be 0x8EA2B7CA516745BFEAFC49904B496089 16))
      = some (be 0x00112233445566778899AABBCCDDEEFF 16, 16, 0x00000001) := by decide +kernel

/-- The first block of T7 and of T8: three different keys, encrypt, decrypt, encrypt, and its reverse. -/
theorem test_tdes_three_keys_T7_T8 :
    let key := be 0x0123456789ABCDEF23456789ABCDEF01456789ABCDEF0123 24
    encryptBlock .des key (be 0x5468652071756963 8) = be 0x1CCF23869D09333E 8
    ∧ decryptBlock .des key (be 0x1CCF23869D09333E 8) = be 0x5468652071756963 8 := by decide +kernel

/-- T16. -/
theorem test_ecbdec_des_T16 :
    outcome 0x00000002 (loaded (be 0x133457799BBCDFF1 8) [] [] []) = some ([], 0, 0x00000001) := by decide +kernel

/-- T17. -/
theorem test_cbcenc_aes_T17 :
    outcome 0x00001103 (loaded (be 0x2B7E151628AED2A6ABF7158809CF4F3C 16) [] (be 0x000102030405060708090A0B0C0D0E0F 16)
        (be 0x6BC1BEE22E409F96E93D7E117393172AAE2D8A571E03AC9C9EB76FAC45AF8E51 32))
      = some (be 0x7649ABAC8119B246CEE98E9B12E9197D5086CB9B507219EE95DB113A917678B2 32, 32, 0x00000001) := by
  decide +kernel

/-- T26. -/
theorem test_cbcenc_des_T26 :
    outcome 0x00001003 (loaded (be 0xAAAAAAAAAAAAAAAABBBBBBBBBBBBBBBB 16) [] (be 0x0DFA749D5F389223 8)
        (be 0x6B2062726F776E20 8))
      = some (be 0x734526EAF11F4B32 8, 8, 0x00000001) := by decide +kernel

/-- T18. -/
theorem test_cbcdec_aes_T18 :
    outcome 0x00001104 (loaded (be 0x2B7E151628AED2A6ABF7158809CF4F3C 16) [] (be 0x000102030405060708090A0B0C0D0E0F 16)
        (be 0x7649ABAC8119B246CEE98E9B12E9197D5086CB9B507219EE95DB113A917678B2 32))
      = some (be 0x6BC1BEE22E409F96E93D7E117393172AAE2D8A571E03AC9C9EB76FAC45AF8E51 32, 32, 0x00000001) := by
  decide +kernel

/-- The first block of T28, the decryption step of the source's known-answer vector V1. -/
theorem test_cbcdec_des_V1 :
    outcome 0x00001004 (loaded (be 0xEFEFEFEFEFEFEFEFFEFEFEFEFEFEFEFE 16) [] (be 0x41303038384D3354 8)
        (be 0x62C2C14D8785A01A 8))
      = some (be 0x0040EEEEEEEEEEEE 8, 8, 0x00000001) := by decide +kernel

/-- T30. -/
theorem test_pad1_T30 :
    outcome 0x00000405 (loaded [] [] [] (be 0x010203040506070809 9))
      = some (be 0x01020304050607080900000000000000 16, 16, 0x00000001) := by decide +kernel

/-- T32: the empty input becomes one block of zeros. -/
theorem test_pad1_empty_T32 :
    outcome 0x00000405 (loaded [] [] [] []) = some (be 0 8, 8, 0x00000001) := by decide +kernel

/-- T43: an aligned input gains a whole block. -/
theorem test_pad2_T43 :
    outcome 0x00000805 (loaded [] [] [] (be 0x0102030405060708 8))
      = some (be 0x01020304050607088000000000000000 16, 16, 0x00000001) := by decide +kernel

/-- T57: block size 16, prefix 8 bytes. -/
theorem test_pad3_T57 :
    outcome 0x00000D05 (loaded [] [] [] (be 0x010203 3))
      = some (be 0x000000000000001801020300000000000000000000000000 24, 24, 0x00000001) := by decide +kernel

/-- T60: 256 bits do not fit one byte. -/
theorem test_pad3_T60 :
    outcome 0x01000C05 (loaded [] [] [] (List.replicate 32 0x11)) = some ([], 0, 0x00000152) := by decide +kernel

/-- T73: the leftmost 4 bytes. -/
theorem test_cbcmac1_T73 :
    outcome 0x00041406 (loaded (be 0xAAAAAAAAAAAAAAAABBBBBBBBBBBBBBBB 16) [] [] (be 0x48656C6C6F 5))
      = some (be 0x3811D0E3 4, 4, 0x00000001) := by decide +kernel

/-- T88. -/
theorem test_cbcmac2_T88 :
    outcome 0x00003906 (loaded (be 0x000102030405060708090A0B0C0D0E0F101112131415161718191A1B1C1D1E1F 32) [] [] [])
      = some (be 0xE620F52FE75BBE87AB758C0624943D8B 16, 16, 0x00000001) := by decide +kernel

/-- T72: two zero blocks chained. -/
theorem test_cbcmac3_T72 :
    outcome 0x00001C06 (loaded (be 0xAAAAAAAAAAAAAAAABBBBBBBBBBBBBBBB 16) [] [] [])
      = some (be 0xBFE523E5E49FBF69 8, 8, 0x00000001) := by decide +kernel

/-- T91: scheme 3 with AES. -/
theorem test_cbcmac3_aes_T91 :
    outcome 0x00001D06 (loaded (be 0x2B7E151628AED2A6ABF7158809CF4F3C 16) [] [] []) = some ([], 0, 0x00000162) := by
  decide +kernel

/-- T98. -/
theorem test_rmac1_T98 :
    outcome 0x00000407 (loaded (be 0x0123456789ABCDEF 8) (be 0xFEDCBA9876543210 8) [] (be 0x48656C6C6F 5))
      = some (be 0xA68CDCA90C9021F9 8, 8, 0x00000001) := by decide +kernel

/-- T108: a 32-byte second key. -/
theorem test_rmac1_T108 :
    outcome 0x0000C407 (loaded (be 0x0123456789ABCDEF 8) (be 0xFEDCBA9876543210 8) [] (be 0x48656C6C6F 5))
      = some ([], 0, 0x00000122) := by decide +kernel

/-- Rule R107 on T98's keys under scheme 2: the same value. -/
theorem test_rmac2_R107 :
    outcome 0x00000807 (loaded (be 0x0123456789ABCDEF 8) (be 0xFEDCBA9876543210 8) [] [])
      = some (be 0xA68CDCA90C9021F9 8, 8, 0x00000001) := by decide +kernel

/-- T105: a 16-byte second key, 4 bytes kept. -/
theorem test_rmac3_T105 :
    outcome 0x00044C07 (loaded (be 0x0123456789ABCDEF 8) (be 0xAAAAAAAAAAAAAAAABBBBBBBBBBBBBBBB 16) []
        (be 0x48656C6C6F 5))
      = some (be 0xE1CC6934 4, 4, 0x00000001) := by decide +kernel

/-- T111. -/
theorem test_cmacsk_aes_T111 :
    outcome 0x00001108 (loaded (be 0x2B7E151628AED2A6ABF7158809CF4F3C 16) [] [] [])
      = some (be 0xFBEED618357133667C85E08F7236A8DEF7DDAC306AE266CCF90BC11EE46D513B 32, 32, 0x00000001) := by
  decide +kernel

/-- T117. -/
theorem test_cmacsk_des_T117 :
    outcome 0x00000008 (loaded (be 0x133457799BBCDFF1 8) [] [] [])
      = some (be 0x291487F315069EE752290FE62A0D3DCE 16, 16, 0x00000001) := by decide +kernel

/-- T147: an illegal word, whatever ILEN holds. -/
theorem test_illegal_word_T147 :
    outcome 0x00000000 { State.reset with ilen := 0xFFFFFFFF } = some ([], 0, 0x00000112) := by decide +kernel

end
end

section
/-! SUPPORT. The step taken apart event by event, the two constant registers of spec/10_state.md rule R18, and the parameters
that every step keeps. -/

namespace Sys2Proof.Machine

/-! ## The step on a pending event -/

theorem step_of_event_inWindow (s : State) (e : HostEvent) (rest : List HostEvent) (h : s.script = e :: rest)
    (hw : eventInWindow e = true) : step s = performEvent e { s with script := rest } := by
  rw [step_of_event s e rest h, hostEvent_of_inWindow e _ hw]

/-- A step that answers a next state is idle, or has performed the first pending event, which lies in the window. -/
theorem step_next_cases (s t : State) (h : step s = .next t) :
    (s.script = [] ∧ t = s)
    ∨ ∃ e rest, s.script = e :: rest ∧ eventInWindow e = true
        ∧ performEvent e { s with script := rest } = .next t := by
  cases hs : s.script with
  | nil =>
    rw [step_of_idle s hs] at h
    cases h
    exact .inl ⟨rfl, rfl⟩
  | cons e rest =>
    rw [step_of_event s e rest hs] at h
    cases hw : eventInWindow e with
    | false =>
      rw [hostEvent_of_outside e _ hw] at h
      cases h
    | true =>
      rw [hostEvent_of_inWindow e _ hw] at h
      exact .inr ⟨e, rest, rfl, hw, h⟩

/-! ## 32-bit accesses -/

/-- What a register reads as does not depend on the events still to come. -/
theorem readWord_with_script (off : Nat) (s : State) (rest : List HostEvent) :
    readWord off { s with script := rest } = readWord off s := rfl

/-- An accepted 32-bit read answers the register's value and changes nothing else (spec/20_memory.md rule R32). -/
theorem step_read32_accepted (s : State) (off : Nat) (v : Word) (rest : List HostEvent)
    (h : s.script = .read32 off :: rest) (hw : off < windowBytes) (hv : readWord off s = some v) :
    step s = .next { s with script := rest, lastRead := some v } := by
  rw [step_of_event_inWindow s _ rest h (by simpa [eventInWindow, eventOffset] using hw)]
  simp only [performEvent, readWord_with_script, hv]
  rfl

/-- A 32-bit write to anything but CMD, STATUS and ILEN sets ACCERR and changes nothing else (spec/20_memory.md rule R33). -/
theorem step_write32_refused (s : State) (off : Nat) (v : Word) (rest : List HostEvent)
    (h : s.script = .write32 off v :: rest) (hw : off < windowBytes)
    (hcmd : off ≠ 0x00000) (hstatus : off ≠ 0x00004) (hilen : off ≠ 0x00008) :
    step s = .next { s with script := rest, status := s.status ||| 0x00000200 } := by
  rw [step_of_event_inWindow s _ rest h (by simpa [eventInWindow, eventOffset] using hw)]
  rcases writeWord_cases off v { s with script := rest } with
    ⟨e, -⟩ | ⟨e, -⟩ | ⟨e, -⟩ | ⟨-, -, -, hrefused⟩
  · exact absurd e hcmd
  · exact absurd e hstatus
  · exact absurd e hilen
  · exact hrefused

theorem readWord_ibufsz (s : State) : readWord 0x00010 s = some (BitVec.ofNat 32 s.params.ibufBytes) := rfl

theorem readWord_obufsz (s : State) : readWord 0x00014 s = some (BitVec.ofNat 32 s.params.obufBytes) := rfl

/-- A capacity within the bound of spec/00_scope.md rule R4 is not truncated by the 32 bits of its register. -/
theorem toNat_ofNat_of_le_65536 (n : Nat) (h : n ≤ 65536) : (BitVec.ofNat 32 n).toNat = n :=
  (BitVec.toNat_ofNat n 32).trans (Nat.mod_eq_of_lt (by omega))

/-! ## The parameters are constant -/

theorem issueCommand_keeps_params (w : Word) (s t : State) (h : issueCommand w s = .next t) : t.params = s.params := by
  rcases issueCommand_next w s with ⟨code, e⟩ | ⟨r, e⟩
  · rw [e] at h
    cases h
    exact raiseCmdError_params code s
  · rw [e] at h
    cases h
    exact finish_params r s

theorem writeWord_keeps_params (off : Nat) (v : Word) (s t : State) (h : writeWord off v s = .next t) :
    t.params = s.params := by
  rcases writeWord_cases off v s with ⟨-, e⟩ | ⟨-, e⟩ | ⟨-, e⟩ | ⟨-, -, -, e⟩ <;> rw [e] at h
  · exact issueCommand_keeps_params v s t h
  all_goals
    cases h
    rfl

@[simp] theorem writeByte_params (off : Nat) (v : Byte) (s : State) : (writeByte off v s).params = s.params := by
  rcases writeByte_cases off v s with ⟨i, -, -, e⟩ | ⟨i, -, -, e⟩ | ⟨i, -, -, e⟩ | ⟨i, -, -, e⟩ | e <;> rw [e]
  exact refuseAccess_params s

theorem performEvent_keeps_params (ev : HostEvent) (s t : State) (h : performEvent ev s = .next t) :
    t.params = s.params := by
  rcases performEvent_cases ev s with
    ⟨v, e⟩ | e | ⟨off, v, -, e⟩ | ⟨off, v, -, e⟩ | ⟨off, -, e⟩ | ⟨-, e⟩ <;> rw [e] at h
  case inr.inr.inl => exact writeWord_keeps_params off v s t h
  all_goals
    cases h
    simp

theorem step_keeps_params (s t : State) (h : step s = .next t) : t.params = s.params := by
  rcases step_next_cases s t h with ⟨-, rfl⟩ | ⟨e, rest, -, -, hperf⟩
  · rfl
  · exact performEvent_keeps_params e { s with script := rest } t hperf

/-! ## The reset event -/

theorem step_of_reset (s : State) (rest : List HostEvent) (h : s.script = .reset :: rest) :
    step s = .next (resetEvent { s with script := rest }) := step_of_event_inWindow s .reset rest h rfl

end Sys2Proof.Machine

/-! The obligations of the family of spec/10_state.md. -/

namespace Sys2Proof.StateProofs

open Sys2Proof.Machine

/-- Settles O52: the two read-only registers by the rules of an accepted read and a refused write, their constancy by
inversion of the step. -/
theorem sizeRegistersReadTheParameters : Obligations.SizeRegistersReadTheParameters := by
  refine ⟨?ibufsz, ?obufsz, ?refused, step_keeps_params⟩
  case ibufsz =>
    intro s rest ⟨_, hmax, _⟩ h
    exact ⟨_, step_read32_accepted s 0x00010 _ rest h (by decide) (readWord_ibufsz s), toNat_ofNat_of_le_65536 _ hmax⟩
  case obufsz =>
    intro s rest ⟨_, _, _, hmax⟩ h
    exact ⟨_, step_read32_accepted s 0x00014 _ rest h (by decide) (readWord_obufsz s), toNat_ofNat_of_le_65536 _ hmax⟩
  case refused =>
    intro s rest off v hoff h
    have hw : off < windowBytes := by
      unfold windowBytes
      omega
    exact step_write32_refused s off v rest h hw (by omega) (by omega) (by omega)

/-- Settles O53: the next state is `resetEvent`'s, whose fields are zeros and empty buffers. -/
theorem resetEventZeroesTheEngine : Obligations.ResetEventZeroesTheEngine := by
  intro s rest h
  refine ⟨_, step_of_reset s rest h, fun i => ⟨?_, ?_⟩, fun i => ?_, Memory.read_nil, resetEvent_ilen _,
    Memory.read_nil, resetEvent_olen _, resetEvent_status _, resetEvent_params _⟩ <;> simp

end Sys2Proof.StateProofs
end

section
/-! SUPPORT. A 32-bit write, register by register (spec/20_memory.md rule R33). -/

namespace Sys2Proof.Machine

theorem writeWord_cmd (v : Word) (s : State) : writeWord 0x00000 v s = issueCommand v s := rfl

/-- A write to STATUS clears STICKY and ACCERR, bits 8 and 9, where v has a 1. -/
theorem writeWord_status (v : Word) (s : State) :
    writeWord 0x00004 v s = .next { s with status := s.status &&& ~~~(v &&& 0x00000300) } := rfl

theorem writeWord_ilen (v : Word) (s : State) : writeWord 0x00008 v s = .next { s with ilen := v } := rfl

/-- A pending 32-bit write within the window is taken from the script, and `writeWord` is all it does. -/
theorem step_write32 (s : State) (off : Nat) (v : Word) (rest : List HostEvent)
    (h : s.script = .write32 off v :: rest) (hw : off < windowBytes) :
    step s = writeWord off v { s with script := rest } :=
  step_of_event_inWindow s _ rest h (by simpa [eventInWindow, eventOffset] using hw)

end Sys2Proof.Machine

/-! The obligations of the family of spec/20_memory.md. -/

namespace Sys2Proof.MemoryProofs

open Sys2Proof.Machine

/-- Settles O45: one case per writable register, and every other offset is a refused write. -/
theorem wordWrites : Obligations.WordWrites := by
  intro s off v rest hw h
  have hstep := step_write32 s off v rest h hw
  split_ifs with hcmd hstatus hilen
  · subst hcmd
    exact hstep.trans (writeWord_cmd v _)
  · subst hstatus
    exact hstep.trans (writeWord_status v _)
  · subst hilen
    exact hstep.trans (writeWord_ilen v _)
  · exact step_write32_refused s off v rest h hw hcmd hstatus hilen

end Sys2Proof.MemoryProofs
end

section
/-! SUPPORT. A refused command's effects, and the words that fit a row of the opcode map, field by field
(spec/30_encoding.md rules R51, R58 and R59). -/

namespace Sys2Proof.Machine

/-- The one refusal of the model has the effects of spec/60_exceptions.md rule R170, whatever its code. -/
theorem raiseCmdError_refusalOf (code : ErrCode) (s : State) :
    RefusalOf (BitVec.ofNat 4 (errNumber code)) s (raiseCmdError code s) where
  olen := raiseCmdError_olen code s
  obuf_zero := Memory.read_nil
  done := by simp
  err := by simp
  errcode := by simp
  sticky := by simp
  others := by simp [OtherStatusKept]
  operands := by constructor <;> simp

/-- A word that does not decode, written to CMD, is refused with ERR_ILLEGAL in every state. -/
theorem issueCommand_of_decode_error (w : Word) (e : IllegalWord) (s : State) (h : decode w = .error e) :
    issueCommand w s = .next (raiseCmdError .illegal s) := by
  rcases issueCommand_cases w s with ⟨i, hok, -⟩ | ⟨-, -, hrefused⟩
  · cases h.symm.trans hok
  · exact hrefused

end Sys2Proof.Machine

namespace Sys2Proof.Laws

/-- The decoder rejects a word exactly where no row of the opcode map matches it. -/
theorem decode_error_iff (w : Word) :
    (∃ e, decode w = .error e) ↔ ∀ r ∈ opcodeMap, w &&& r.mask ≠ r.pattern := by
  have hnone : opcodeMap.find? (fun r => r.fits w) = none ↔ ∀ r ∈ opcodeMap, w &&& r.mask ≠ r.pattern := by
    simp [OpcodeRow.fits]
  rw [← hnone, decode]
  cases opcodeMap.find? (fun r => r.fits w) <;> simp

/-! ## A word and its fields -/

theorem getLsbD_eq_of_extractLsb'_eq {v w : Word} {start len : Nat}
    (h : v.extractLsb' start len = w.extractLsb' start len) (i : Nat) (hlo : start ≤ i) (hhi : i < start + len) :
    v.getLsbD i = w.getLsbD i := by
  have hbit := congrArg (fun x : BitVec len => x.getLsbD (i - start)) h
  have hlen : i - start < len := by omega
  simpa [BitVec.getLsbD_extractLsb', hlen, Nat.add_sub_cancel' hlo] using hbit

/-- The eight fields of rule R51 make up the word: two words are equal exactly where every field is. -/
theorem word_eq_iff_fields (v w : Word) :
    v = w ↔ v.extractLsb' 0 8 = w.extractLsb' 0 8 ∧ v.getLsbD 8 = w.getLsbD 8 ∧ v.getLsbD 9 = w.getLsbD 9
      ∧ v.extractLsb' 10 2 = w.extractLsb' 10 2 ∧ v.extractLsb' 12 2 = w.extractLsb' 12 2
      ∧ v.extractLsb' 14 2 = w.extractLsb' 14 2 ∧ v.extractLsb' 16 8 = w.extractLsb' 16 8
      ∧ v.extractLsb' 24 8 = w.extractLsb' 24 8 := by
  refine ⟨fun h => by simp [h], fun ⟨hop, halg, h9, hpad, hklen, hklen2, hmaclen, hblksz⟩ => ?_⟩
  refine BitVec.eq_of_getLsbD_eq fun i hi => ?_
  have hfield : i < 8 ∨ i = 8 ∨ i = 9 ∨ (10 ≤ i ∧ i < 12) ∨ (12 ≤ i ∧ i < 14) ∨ (14 ≤ i ∧ i < 16)
      ∨ (16 ≤ i ∧ i < 24) ∨ 24 ≤ i := by omega
  rcases hfield with h | rfl | rfl | ⟨hlo, hhi⟩ | ⟨hlo, hhi⟩ | ⟨hlo, hhi⟩ | ⟨hlo, hhi⟩ | h
  · exact getLsbD_eq_of_extractLsb'_eq hop i i.zero_le (by omega)
  · exact halg
  · exact h9
  · exact getLsbD_eq_of_extractLsb'_eq hpad i hlo hhi
  · exact getLsbD_eq_of_extractLsb'_eq hklen i hlo hhi
  · exact getLsbD_eq_of_extractLsb'_eq hklen2 i hlo hhi
  · exact getLsbD_eq_of_extractLsb'_eq hmaclen i hlo hhi
  · exact getLsbD_eq_of_extractLsb'_eq hblksz i h (by omega)

/-- A mask that covers an 8-bit field keeps its value. -/
@[simp] theorem and_fullByte (c : BitVec 8) : c &&& 255#8 = c := BitVec.and_allOnes

/-- A mask that covers a 2-bit field keeps its value. -/
@[simp] theorem and_fullPair (c : BitVec 2) : c &&& 3#2 = c := BitVec.and_allOnes

/-- The operation codes: reserved, one without a padding scheme, or one with (rules R52 and R55). -/
theorem opcode_cases (c : BitVec 8) :
    (c = 0 ∨ 9 ≤ c.toNat) ∨ (c = 1 ∨ c = 2 ∨ c = 3 ∨ c = 4 ∨ c = 8) ∨ (c = 5 ∨ c = 6 ∨ c = 7) := by
  by_contra h
  bv_omega

/-- The padding codes: 0, or one of the three schemes of rule R55. -/
theorem padCode_cases (q : BitVec 2) : q = 0 ∨ q = 1 ∨ q = 2 ∨ q = 3 := by
  by_contra h
  bv_omega

/-! ## The words that fit no row -/

/-- The list of rule R59, case by case: (a) a reserved operation code, (b) bit 9, (c) a missing padding scheme, (d) to (g) a
field that is not 0 and no operand of the operation. -/
def listedIllegal (w : Word) : Prop :=
  let op := w.extractLsb' 0 8
  let alg := w.getLsbD 8
  let pad := w.extractLsb' 10 2
  let klen := w.extractLsb' 12 2
  let klen2 := w.extractLsb' 14 2
  let maclen := w.extractLsb' 16 8
  let blksz := w.extractLsb' 24 8
  (op = 0x00 ∨ 0x09 ≤ op.toNat)
  ∨ w.getLsbD 9 = true
  ∨ ((op = 5 ∨ op = 6 ∨ op = 7) ∧ pad = 0)
  ∨ ((op = 1 ∨ op = 2 ∨ op = 3 ∨ op = 4 ∨ op = 8) ∧ (pad ≠ 0 ∨ klen2 ≠ 0 ∨ maclen ≠ 0 ∨ blksz ≠ 0))
  ∨ (op = 5 ∧ (klen ≠ 0 ∨ klen2 ≠ 0 ∨ maclen ≠ 0))
  ∨ (op = 6 ∧ (klen2 ≠ 0 ∨ blksz ≠ 0))
  ∨ (op = 7 ∧ (alg = true ∨ blksz ≠ 0))

/-- A word fits no row exactly where it is on the list: split on the operation code, which leaves the rows of that code,
and for a code with padding on the scheme, which leaves one of them. -/
theorem fits_no_row_iff_listedIllegal (w : Word) :
    (∀ r ∈ opcodeMap, w &&& r.mask ≠ r.pattern) ↔ listedIllegal w := by
  simp only [opcodeMap, List.forall_mem_cons, ne_eq, word_eq_iff_fields, BitVec.extractLsb'_and, BitVec.getLsbD_and,
    listedIllegal]
  generalize w.extractLsb' 0 8 = op, w.getLsbD 8 = alg, w.getLsbD 9 = reserved, w.extractLsb' 10 2 = pad,
    w.extractLsb' 12 2 = klen, w.extractLsb' 14 2 = klen2, w.extractLsb' 16 8 = maclen, w.extractLsb' 24 8 = blksz
  rcases opcode_cases op with hop | hmode | hpadded
  case inl =>
    have hne : ∀ c : BitVec 8, 1 ≤ c.toNat → c.toNat ≤ 8 → op ≠ c := by
      rintro c hlo hhi rfl
      bv_omega
    exact iff_of_true (by simp [hne]) (.inl hop)
  case inr.inl =>
    rcases hmode with rfl | rfl | rfl | rfl | rfl <;> simp [imp_iff_not_or]
  case inr.inr =>
    rcases hpadded with rfl | rfl | rfl
    · rcases padCode_cases pad with rfl | rfl | rfl | rfl <;> simp [imp_iff_not_or]
    · rcases padCode_cases pad with rfl | rfl | rfl | rfl <;> simp [imp_iff_not_or]
    · cases alg <;> rcases padCode_cases pad with rfl | rfl | rfl | rfl <;> simp [imp_iff_not_or]

end Sys2Proof.Laws

/-! The obligations of the family of spec/30_encoding.md. -/

namespace Sys2Proof.EncodingProofs

open Sys2Proof.Machine Sys2Proof.Laws

/-- Settles O3: the decoder rejects what no row matches, no row matches what the list names, and the port refuses what the
decoder rejects. -/
theorem illegalWordsAreExactlyTheListed : Obligations.IllegalWordsAreExactlyTheListed := fun w =>
  ⟨decode_error_iff w, (decode_error_iff w).trans (fits_no_row_iff_listedIllegal w),
    fun e s h => ⟨_, issueCommand_of_decode_error w e s h, raiseCmdError_refusalOf .illegal s⟩⟩

end Sys2Proof.EncodingProofs
end

section
/-! SUPPORT. Single DES and its inverse for any list of subkeys, the keys of the DES family by key length, and the refusal of
a command whose key length is not legal (spec/45_des_reference.md rules R121 and R131,
spec/40_block_cipher_primitives.md rules R71 and R72). -/

namespace Sys2Proof.Machine

/-! ## Single DES is undone by the subkeys in reverse order -/

/-- A table t undoes a table u where the entry of t at every position names the output of u that has its source there
(rule R120). -/
theorem permute_permute_of_inverse {m : Nat} (t u : List Nat) (x : BitVec m) (ht : t.length = m) (hu : u.length = m)
    (hinv : ∀ p < m, 1 ≤ t.getD p 0 ∧ t.getD p 0 ≤ m ∧ u.getD (t.getD p 0 - 1) 0 = p + 1) :
    permute m t (permute m u x) = x := by
  refine BitVec.eq_of_getLsbD_eq fun i hi => ?_
  obtain ⟨hlo, hhi, hsource⟩ := hinv (m - 1 - i) (by omega)
  rw [getLsbD_permute m t _ i ht hi, getLsbD_permute m u x _ hu (by omega),
    show m - 1 - (m - t.getD (m - 1 - i) 0) = t.getD (m - 1 - i) 0 - 1 by omega, hsource]
  congr 1
  omega

theorem permute_desIP_desFP (x : BitVec 64) : permute 64 desIP (permute 64 desFP x) = x :=
  permute_permute_of_inverse desIP desFP x rfl rfl (by decide)

theorem permute_desFP_desIP (x : BitVec 64) : permute 64 desFP (permute 64 desIP x) = x :=
  permute_permute_of_inverse desFP desIP x rfl rfl (by decide)

/-- A round undoes itself on the exchanged halves, whatever the round function gives. -/
theorem desRound_swap_desRound (lr : BitVec 32 × BitVec 32) (k : BitVec 48) :
    desRound (desRound lr k).swap k = lr.swap := by
  simp [desRound, Prod.swap]

/-- The rounds under the subkeys in reverse order undo the rounds, on the exchanged halves. -/
theorem foldl_desRound_reverse (keys : List (BitVec 48)) (lr : BitVec 32 × BitVec 32) :
    keys.reverse.foldl desRound (keys.foldl desRound lr).swap = lr.swap := by
  induction keys generalizing lr with
  | nil => rfl
  | cons k keys ih =>
    rw [List.reverse_cons, List.foldl_append, List.foldl_cons (l := keys), ih]
    exact desRound_swap_desRound lr k

/-- The halves of a 64-bit string, the left one first (rule R121). -/
def desHalves (x : BitVec 64) : BitVec 32 × BitVec 32 := (x.extractLsb' 32 32, x.extractLsb' 0 32)

theorem desHalves_append (l r : BitVec 32) : desHalves (l ++ r) = (l, r) :=
  Prod.ext BitVec.extractLsb'_append_eq_left BitVec.extractLsb'_append_eq_right

theorem append_desHalves (x : BitVec 64) : ((desHalves x).1 ++ (desHalves x).2 : BitVec 64) = x :=
  BitVec.extractLsb'_append_extractLsb'

/-- `desCore` on halves: the rounds, and the exchange of the halves after the last (rule R121). -/
theorem desCore_eq (keys : List (BitVec 48)) (b : BitVec 64) :
    desCore keys b =
      permute 64 desFP ((keys.foldl desRound (desHalves (permute 64 desIP b))).swap.1
        ++ (keys.foldl desRound (desHalves (permute 64 desIP b))).swap.2) := rfl

/-- The sixteen rounds between IP and FP are undone by the same under the subkeys in reverse order (rule R131). -/
theorem desCore_reverse_desCore (keys : List (BitVec 48)) (b : BitVec 64) :
    desCore keys.reverse (desCore keys b) = b := by
  rw [desCore_eq keys.reverse, desCore_eq keys, permute_desIP_desFP, desHalves_append, Prod.mk.eta,
    foldl_desRound_reverse, Prod.swap_swap, append_desHalves, permute_desFP_desIP]

theorem desDecrypt_desEncrypt (k b : Bytes) (hb : b.length = 8) : desDecrypt k (desEncrypt k b) = b := by
  rw [desDecrypt, desEncrypt, bits64_be, desCore_reverse_desCore, be_bits64 b hb]

theorem desEncrypt_desDecrypt (k b : Bytes) (hb : b.length = 8) : desEncrypt k (desDecrypt k b) = b := by
  have h := desCore_reverse_desCore (desSubkeys (bits64 k)).reverse (bits64 b)
  rw [List.reverse_reverse] at h
  rw [desEncrypt, desDecrypt, bits64_be, h, be_bits64 b hb]

/-! ## The three keys of the DES family -/

theorem tdesKeys_of_one (k : Bytes) (hk : k.length = 8) : tdesKeys k = (k, k, k) := by
  rw [tdesKeys, if_pos hk]

theorem tdesKeys_of_two (k1 k2 : Bytes) (h1 : k1.length = 8) (h2 : k2.length = 8) :
    tdesKeys (k1 ++ k2) = (k1, k2, k1) := by
  simp [tdesKeys, h1, h2]

theorem tdesKeys_of_three (k1 k2 k3 : Bytes) (h1 : k1.length = 8) (h2 : k2.length = 8) (h3 : k3.length = 8) :
    tdesKeys (k1 ++ k2 ++ k3) = (k1, k2, k3) := by
  simp [tdesKeys, List.drop_append, h1, h2, h3]

/-- E of the DES family: encrypt, decrypt, encrypt under the key's three keys (rule R72). -/
theorem encryptBlock_des (key b k1 k2 k3 : Bytes) (h : tdesKeys key = (k1, k2, k3)) :
    encryptBlock .des key b = desEncrypt k3 (desDecrypt k2 (desEncrypt k1 b)) := by
  simp only [encryptBlock, tdesEncrypt, h]

/-- D of the DES family: decrypt, encrypt, decrypt, the three keys from the last to the first (rule R72). -/
theorem decryptBlock_des (key b k1 k2 k3 : Bytes) (h : tdesKeys key = (k1, k2, k3)) :
    decryptBlock .des key b = desDecrypt k1 (desEncrypt k2 (desDecrypt k3 b)) := by
  simp only [decryptBlock, tdesDecrypt, h]

/-- Three equal keys make single DES: the inner two steps undo each other. -/
theorem encryptBlock_des_of_equal_keys (key k b : Bytes) (h : tdesKeys key = (k, k, k)) (hb : b.length = 8) :
    encryptBlock .des key b = desEncrypt k b := by
  rw [encryptBlock_des key b k k k h, desDecrypt_desEncrypt k b hb]

theorem decryptBlock_des_of_equal_keys (key k b : Bytes) (h : tdesKeys key = (k, k, k)) (hb : b.length = 8) :
    decryptBlock .des key b = desDecrypt k b := by
  rw [decryptBlock_des key b k k k h, desEncrypt_desDecrypt k b hb]

/-! ## Legal key lengths, and the refusal of every other -/

theorem keyOK_des_iff (n : Nat) : keyOK .des n = true ↔ n = 8 ∨ n = 16 ∨ n = 24 := by
  simp [keyOK, or_assoc]

theorem keyOK_aes_iff (n : Nat) : keyOK .aes n = true ↔ n = 16 ∨ n = 24 ∨ n = 32 := by
  simp [keyOK, or_assoc]

/-- The check of a named key: its length is legal for its family (rule R163). -/
def keyCheck (k : Alg × Nat) : Check := (!keyOK k.1 k.2, .keylen)

/-- The checks on the keys a command names come before all its other checks (rule R169). -/
theorem exec_checks_keys_first (i : Instr) (s : State) :
    ∃ rest result, exec i s = .next (runCommand ((keysNamed i).map keyCheck ++ rest) result s) := by
  cases i <;> exact ⟨_, _, rfl⟩

/-- Where checks of one code stand first and one of them fails, that code is reported. -/
theorem firstError_append_of_same_code (checks rest : List Check) (code : ErrCode)
    (hcode : ∀ c ∈ checks, c.2 = code) (hfails : ∃ c ∈ checks, c.1 = true) :
    firstError (checks ++ rest) = some code := by
  induction checks with
  | nil => simp at hfails
  | cons c checks ih =>
    obtain ⟨failed, code'⟩ := c
    obtain ⟨rfl, htail⟩ := List.forall_mem_cons.mp hcode
    cases failed with
    | true => exact firstError_cons_true _ _
    | false => exact ih htail (by simpa using hfails)

/-- A command that names a key of a length its family does not have is refused with ERR_KEYLEN, whatever else would fail. -/
theorem exec_of_illegal_key (i : Instr) (s : State) (h : ∃ k ∈ keysNamed i, keyOK k.1 k.2 = false) :
    exec i s = .next (raiseCmdError .keylen s) := by
  obtain ⟨rest, result, hexec⟩ := exec_checks_keys_first i s
  have herror : firstError ((keysNamed i).map keyCheck ++ rest) = some .keylen :=
    firstError_append_of_same_code _ rest .keylen (List.forall_mem_map.mpr fun _ _ => rfl) (by simpa [keyCheck] using h)
  rw [hexec, runCommand_of_error _ result s .keylen herror]

end Sys2Proof.Machine

/-! The obligations of the family of spec/40_block_cipher_primitives.md. -/

namespace Sys2Proof.BlockCipherProofs

open Sys2Proof.Machine

/-- Settles O27: the two families by their definition; a key check that fails stands before every check of another code. -/
theorem keyLengthsOutsideTheFamilyAreRefused : Obligations.KeyLengthsOutsideTheFamilyAreRefused :=
  ⟨keyOK_des_iff, keyOK_aes_iff, fun i s h => ⟨_, exec_of_illegal_key i s h, raiseCmdError_refusalOf .keylen s⟩⟩

/-- Settles O37: each key length by the three keys it stands for; where they are equal, single DES undoes itself. -/
theorem tripleDesKeyingOptions : Obligations.TripleDesKeyingOptions := by
  intro k1 k2 k3 b h1 h2 h3 hb
  have three := tdesKeys_of_three k1 k2 k3 h1 h2 h3
  have two := tdesKeys_of_two k1 k2 h1 h2
  have one := tdesKeys_of_one k1 h1
  have equal := tdesKeys_of_three k1 k1 k1 h1 h1 h1
  exact ⟨⟨encryptBlock_des _ b k1 k2 k3 three, decryptBlock_des _ b k1 k2 k3 three⟩,
    ⟨encryptBlock_des _ b k1 k2 k1 two, decryptBlock_des _ b k1 k2 k1 two⟩,
    ⟨encryptBlock_des_of_equal_keys _ k1 b one hb, decryptBlock_des_of_equal_keys _ k1 b one hb⟩,
    encryptBlock_des_of_equal_keys _ k1 b equal hb, decryptBlock_des_of_equal_keys _ k1 b equal hb⟩

end Sys2Proof.BlockCipherProofs
end

section
/-! SUPPORT. Every layer of an AES round is undone by its inverse, so the rounds of the inverse cipher under the round
keys in reverse order undo the rounds of the cipher; with single DES, D undoes E for both families
(spec/46_aes_reference.md rules R140 to R151, spec/40_block_cipher_primitives.md rule R74). -/

namespace Sys2Proof.Machine

/-! ## SubBytes and ShiftRows -/

/-- The inverse S-box undoes the S-box (rule R143). -/
theorem invSubByte_subByte (a : Byte) : invSubByte (subByte a) = a := by
  revert a
  decide +kernel

@[simp] theorem length_subBytes (s : Bytes) : (subBytes s).length = s.length := by simp [subBytes]

@[simp] theorem length_invSubBytes (s : Bytes) : (invSubBytes s).length = s.length := by simp [invSubBytes]

theorem invSubBytes_subBytes (s : Bytes) : invSubBytes (subBytes s) = s := by
  simp [invSubBytes, subBytes, Function.comp_def, invSubByte_subByte]

@[simp] theorem length_shiftRows (s : Bytes) : (shiftRows s).length = 16 := by simp [shiftRows]

@[simp] theorem length_invShiftRows (s : Bytes) : (invShiftRows s).length = 16 := by simp [invShiftRows]

theorem getD_shiftRows (s : Bytes) (j : Nat) (hj : j < 16) :
    (shiftRows s).getD j 0 = s.getD (j % 4 + 4 * ((j / 4 + j % 4) % 4)) 0 := by
  rw [List.getD_eq_getElem _ _ (by simpa using hj)]
  simp [shiftRows]

/-- InvShiftRows reads every byte where ShiftRows put it (rule R148). -/
theorem invShiftRows_shiftRows (s : Bytes) (hs : s.length = 16) : invShiftRows (shiftRows s) = s := by
  refine List.ext_getElem (by simp [hs]) fun j hj hjs => ?_
  simp only [invShiftRows, List.getElem_map, List.getElem_range]
  rw [getD_shiftRows s _ (by omega), ← List.getD_eq_getElem s 0 hjs]
  congr 1
  omega

/-! ## MixColumns -/

theorem byte_xor_left_comm (a b c : Byte) : a ^^^ (b ^^^ c) = b ^^^ (a ^^^ c) := by ac_rfl

theorem byte_xor_xor_xor_comm (a b c d : Byte) : (a ^^^ b) ^^^ (c ^^^ d) = (a ^^^ c) ^^^ (b ^^^ d) := by ac_rfl

/-- The product with a constant is additive (rule R141). -/
theorem gfMul_xor (c : Nat) (a b : Byte) : gfMul c (a ^^^ b) = gfMul c a ^^^ gfMul c b := by
  have hsum (ks : List Nat) (u v : Byte) :
      ks.foldl (fun acc k => acc ^^^ xtimeIter k (a ^^^ b)) (u ^^^ v)
        = ks.foldl (fun acc k => acc ^^^ xtimeIter k a) u ^^^ ks.foldl (fun acc k => acc ^^^ xtimeIter k b) v := by
    induction ks generalizing u v with
    | nil => rfl
    | cons k ks ih => rw [List.foldl_cons, xtimeIter_xor, byte_xor_xor_xor_comm, ih, List.foldl_cons, List.foldl_cons]
  exact hsum _ 0 0

/-- One row of a matrix times a column is additive in the column. -/
theorem foldl_zipWith_gfMul_xor (row : List Nat) (s t : Bytes) (u v : Byte) (h : s.length = t.length) :
    (List.zipWith gfMul row (xorBytes s t)).foldl (fun a b => a ^^^ b) (u ^^^ v)
      = (List.zipWith gfMul row s).foldl (fun a b => a ^^^ b) u
        ^^^ (List.zipWith gfMul row t).foldl (fun a b => a ^^^ b) v := by
  induction row generalizing s t u v with
  | nil => rfl
  | cons c row ih =>
    match s, t, h with
    | [], [], _ => rfl
    | a :: s, b :: t, h =>
      have := ih s t (u ^^^ gfMul c a) (v ^^^ gfMul c b) (by simpa using h)
      rw [byte_xor_xor_xor_comm, ← gfMul_xor] at this
      exact this

/-- A matrix times a column is additive in the column. -/
theorem mixColumn_xorBytes (m : List (List Nat)) (s t : Bytes) (h : s.length = t.length) :
    mixColumn m (xorBytes s t) = xorBytes (mixColumn m s) (mixColumn m t) := by
  simp only [mixColumn, xorBytes, List.zipWith_map, List.zipWith_self]
  exact List.map_congr_left fun row _ => foldl_zipWith_gfMul_xor row s t 0 0 h

@[simp] theorem length_mixColumn (m : List (List Nat)) (col : Bytes) : (mixColumn m col).length = m.length := by
  simp [mixColumn]

@[simp] theorem xtime_zero : xtime 0#8 = 0#8 := rfl

/-- The constants of the two matrices as polynomials in `xtime` (rules R141 and R149). -/
theorem gfMul_constants (a : Byte) :
    gfMul 1 a = a ∧ gfMul 2 a = xtime a ∧ gfMul 3 a = a ^^^ xtime a
    ∧ gfMul 9 a = a ^^^ xtime (xtime (xtime a)) ∧ gfMul 11 a = a ^^^ xtime a ^^^ xtime (xtime (xtime a))
    ∧ gfMul 13 a = a ^^^ xtime (xtime a) ^^^ xtime (xtime (xtime a))
    ∧ gfMul 14 a = xtime a ^^^ xtime (xtime a) ^^^ xtime (xtime (xtime a)) := by
  simp [gfMul, List.range, List.range.loop, Nat.testBit, xtimeIter]

/-- On a column that is 0 outside one byte the two matrices undo each other: their product is the identity already as
polynomials, so the iterates of `xtime` cancel in pairs. -/
theorem mixColumn_invMixMatrix_mixColumn_single (p : Fin 4) (x : Byte) :
    mixColumn invMixMatrix (mixColumn mixMatrix ((zeros 4).set p x)) = (zeros 4).set p x := by
  fin_cases p
  all_goals simp [mixColumn, invMixMatrix, mixMatrix, zeros, gfMul_constants, xtime_xor]
  all_goals simp [BitVec.xor_comm, BitVec.xor_assoc, byte_xor_left_comm]

/-- The two matrices undo each other on every column: it is the exclusive-or of four columns of one byte each. -/
theorem mixColumn_invMixMatrix_mixColumn (col : Bytes) (h : col.length = 4) :
    mixColumn invMixMatrix (mixColumn mixMatrix col) = col := by
  match col, h with
  | [a, b, c, d], _ =>
    have hsum : [a, b, c, d] = xorBytes (xorBytes ((zeros 4).set 0 a) ((zeros 4).set 1 b))
        (xorBytes ((zeros 4).set 2 c) ((zeros 4).set 3 d)) := by simp [xorBytes, zeros]
    have hundo := mixColumn_invMixMatrix_mixColumn_single
    rw [hsum]
    simp only [mixColumn_xorBytes, length_mixColumn, length_xorBytes, List.length_set]
    exact congrArg₂ _ (congrArg₂ _ (hundo 0 a) (hundo 1 b)) (congrArg₂ _ (hundo 2 c) (hundo 3 d))

/-- A function that undoes another on every element of a list undoes it element by element. -/
theorem map_map_of_undo (f g : Bytes → Bytes) (bs : List Bytes) (h : ∀ b ∈ bs, g (f b) = b) :
    (bs.map f).map g = bs := by
  rw [List.map_map]
  exact (List.map_congr_left h).trans (List.map_id' bs)

theorem length_of_mem_map_mixColumn (m : List (List Nat)) (s : Bytes) (hm : m.length = 4) :
    ∀ col ∈ (blocks 4 s).map (mixColumn m), col.length = 4 := by
  simp [hm]

theorem length_mixColumns (s : Bytes) (hs : s.length = 16) : (mixColumns s).length = 16 := by
  rw [mixColumns, mixWith, length_flatten_const 4 _ (length_of_mem_map_mixColumn mixMatrix s rfl)]
  simp [hs]

/-- InvMixColumns undoes MixColumns, column by column (rule R149). -/
theorem invMixColumns_mixColumns (s : Bytes) (hs : s.length = 16) : invMixColumns (mixColumns s) = s := by
  have hcols := map_map_of_undo (mixColumn mixMatrix) (mixColumn invMixMatrix) (blocks 4 s) fun col hcol =>
    mixColumn_invMixMatrix_mixColumn col (length_of_mem_blocks 4 s col hcol)
  rw [invMixColumns, mixColumns, mixWith, mixWith, blocks_flatten 4 _ (length_of_mem_map_mixColumn _ s rfl) (by decide),
    hcols, flatten_blocks 4 s (by decide) (by rw [hs])]

/-! ## The rounds of AES -/

/-- SubBytes and ShiftRows: what every round begins with and what the last round is up to its round key (rule R146). -/
def aesSubstitute (s : Bytes) : Bytes := shiftRows (subBytes s)

/-- InvShiftRows and InvSubBytes (rule R151). -/
def aesInvSubstitute (s : Bytes) : Bytes := invSubBytes (invShiftRows s)

/-- A round that is not the last (rule R146). -/
def aesRound (s rk : Bytes) : Bytes := addRoundKey (mixColumns (aesSubstitute s)) rk

/-- A round of the inverse cipher that is not the last (rule R151). -/
def aesInvRound (s rk : Bytes) : Bytes := invMixColumns (addRoundKey (aesInvSubstitute s) rk)

theorem aesEncRounds_concat (mid : List Bytes) (last s : Bytes) :
    aesEncRounds (mid ++ [last]) s = addRoundKey (aesSubstitute (mid.foldl aesRound s)) last := by
  induction mid generalizing s with
  | nil => rfl
  | cons rk mid ih =>
    rw [List.foldl_cons, ← ih]
    cases mid <;> rfl

theorem aesDecRounds_concat (mid : List Bytes) (last s : Bytes) :
    aesDecRounds (mid ++ [last]) s = addRoundKey (aesInvSubstitute (mid.foldl aesInvRound s)) last := by
  induction mid generalizing s with
  | nil => rfl
  | cons rk mid ih =>
    rw [List.foldl_cons, ← ih]
    cases mid <;> rfl

theorem length_addRoundKey (s rk : Bytes) (hs : s.length = 16) (hrk : rk.length = 16) :
    (addRoundKey s rk).length = 16 := by
  simp [addRoundKey, hs, hrk]

theorem addRoundKey_addRoundKey (s rk : Bytes) (hs : s.length = 16) (hrk : rk.length = 16) :
    addRoundKey (addRoundKey s rk) rk = s :=
  xorBytes_cancel s rk (hs.trans hrk.symm)

@[simp] theorem length_aesSubstitute (s : Bytes) : (aesSubstitute s).length = 16 := length_shiftRows _

@[simp] theorem length_aesInvSubstitute (s : Bytes) : (aesInvSubstitute s).length = 16 := by simp [aesInvSubstitute]

theorem aesInvSubstitute_aesSubstitute (s : Bytes) (hs : s.length = 16) :
    aesInvSubstitute (aesSubstitute s) = s := by
  rw [aesInvSubstitute, aesSubstitute, invShiftRows_shiftRows _ (by simpa using hs), invSubBytes_subBytes]

theorem length_aesRound (s rk : Bytes) (hrk : rk.length = 16) : (aesRound s rk).length = 16 :=
  length_addRoundKey _ rk (length_mixColumns _ (length_aesSubstitute s)) hrk

/-- A round of the inverse cipher undoes a round, between the substitution layers of the round and of its successor. -/
theorem aesInvRound_aesSubstitute_aesRound (s rk : Bytes) (hrk : rk.length = 16) :
    aesInvRound (aesSubstitute (aesRound s rk)) rk = aesSubstitute s := by
  rw [aesInvRound, aesInvSubstitute_aesSubstitute _ (length_aesRound s rk hrk), aesRound,
    addRoundKey_addRoundKey _ rk (length_mixColumns _ (length_aesSubstitute s)) hrk,
    invMixColumns_mixColumns _ (length_aesSubstitute s)]

/-- The rounds of the inverse cipher under the round keys in reverse order undo the rounds of the cipher, between the
substitution layers of the first round and of the last. -/
theorem foldl_aesInvRound_reverse (mid : List Bytes) (s : Bytes) (hmid : ∀ rk ∈ mid, rk.length = 16) :
    mid.reverse.foldl aesInvRound (aesSubstitute (mid.foldl aesRound s)) = aesSubstitute s := by
  induction mid generalizing s with
  | nil => rfl
  | cons rk mid ih =>
    obtain ⟨hrk, hmid⟩ := List.forall_mem_cons.mp hmid
    rw [List.reverse_cons, List.foldl_append, List.foldl_cons (l := mid), ih _ hmid]
    exact aesInvRound_aesSubstitute_aesRound s rk hrk

/-! ## The AES key schedule -/

theorem length_getD_of_forall (n : Nat) (ws : List Bytes) (i : Nat) (h : ∀ w ∈ ws, w.length = n) (hi : i < ws.length) :
    (ws.getD i []).length = n := by
  rw [List.getD_eq_getElem _ _ hi]
  exact h _ (List.getElem_mem hi)

/-- The next key word has four bytes where the Nk words before it have (rule R144). -/
theorem length_nextKeyWord (nk : Nat) (ws : List Bytes) (hnk : 0 < nk) (hle : nk ≤ ws.length)
    (h : ∀ w ∈ ws, w.length = 4) : (nextKeyWord nk ws).length = 4 := by
  have hprev := length_getD_of_forall 4 ws 0 h (by omega)
  have hold := length_getD_of_forall 4 ws (nk - 1) h (by omega)
  unfold nextKeyWord
  dsimp only
  split_ifs <;> simp [rotWord, -List.getD_eq_getElem?_getD, hprev, hold]

/-- The extension adds as many key words as asked, each of four bytes (rule R144). -/
theorem extendKeyWords_words (nk count : Nat) (ws : List Bytes) (hnk : 0 < nk) (hle : nk ≤ ws.length)
    (h : ∀ w ∈ ws, w.length = 4) :
    (extendKeyWords nk count ws).length = count + ws.length ∧ ∀ w ∈ extendKeyWords nk count ws, w.length = 4 := by
  induction count generalizing ws with
  | zero => exact ⟨(Nat.zero_add _).symm, h⟩
  | succ count ih =>
    obtain ⟨hlen, hwords⟩ := ih (nextKeyWord nk ws :: ws) (by simp; omega)
      (List.forall_mem_cons.mpr ⟨length_nextKeyWord nk ws hnk hle h, h⟩)
    exact ⟨by rw [extendKeyWords, hlen, List.length_cons]; omega, hwords⟩

/-- There are Nr + 1 round keys (rule R144). -/
theorem length_aesRoundKeys (key : Bytes) (hlo : 4 ≤ key.length) (hhi : key.length ≤ 32) :
    (aesRoundKeys key).length = aesRounds key + 1 := by
  obtain ⟨hlen, hwords⟩ := extendKeyWords_words (key.length / 4) (4 * (aesRounds key + 1) - key.length / 4)
    (blocks 4 key).reverse (by omega) (by simp)
    (fun w hw => length_of_mem_blocks 4 key w (List.mem_reverse.mp hw))
  rw [aesRoundKeys, length_blocks, length_flatten_const 4 _ fun w hw => hwords w (List.mem_reverse.mp hw),
    List.length_reverse, hlen, List.length_reverse, length_blocks]
  simp only [aesRounds]
  omega

/-- The round keys of a legal key: round key 0, those of the rounds before the last, and that of the last. -/
theorem exists_aesRoundKeys_eq (key : Bytes) (h : keyOK .aes key.length = true) :
    ∃ first mid last, aesRoundKeys key = first :: (mid ++ [last]) ∧ first.length = 16
      ∧ (∀ rk ∈ mid, rk.length = 16) ∧ last.length = 16 := by
  have hlen : (aesRoundKeys key).length = aesRounds key + 1 := by
    rw [keyOK_aes_iff] at h
    exact length_aesRoundKeys key (by omega) (by omega)
  have hall : ∀ rk ∈ aesRoundKeys key, rk.length = 16 := fun rk hrk => length_of_mem_blocks 16 _ rk hrk
  rw [aesRounds] at hlen
  match hkeys : aesRoundKeys key with
  | [] => simp [hkeys] at hlen
  | first :: rest =>
    rcases List.eq_nil_or_concat' rest with rfl | ⟨mid, last, rfl⟩
    · simp [hkeys] at hlen
    · rw [hkeys] at hall
      exact ⟨first, mid, last, rfl, by simpa [or_imp, forall_and] using hall⟩

/-- E of AES: the first round key, the rounds, and a last round without MixColumns (rule R146). -/
theorem aesEncrypt_eq (key b first last : Bytes) (mid : List Bytes) (h : aesRoundKeys key = first :: (mid ++ [last])) :
    aesEncrypt key b = addRoundKey (aesSubstitute (mid.foldl aesRound (addRoundKey b first))) last := by
  rw [← aesEncRounds_concat, aesEncrypt, h]

/-- D of AES: the same from the last round key to the first, with the inverse layers (rule R151). -/
theorem aesDecrypt_eq (key c first last : Bytes) (mid : List Bytes) (h : aesRoundKeys key = first :: (mid ++ [last])) :
    aesDecrypt key c =
      addRoundKey (aesInvSubstitute (mid.reverse.foldl aesInvRound (addRoundKey c last))) first := by
  rw [← aesDecRounds_concat, aesDecrypt, h]
  simp

theorem length_aesEncrypt (key b : Bytes) (h : keyOK .aes key.length = true) : (aesEncrypt key b).length = 16 := by
  obtain ⟨first, mid, last, hkeys, -, -, hlast⟩ := exists_aesRoundKeys_eq key h
  rw [aesEncrypt_eq key b first last mid hkeys, length_addRoundKey _ _ (length_aesSubstitute _) hlast]

theorem length_aesDecrypt (key c : Bytes) (h : keyOK .aes key.length = true) : (aesDecrypt key c).length = 16 := by
  obtain ⟨first, mid, last, hkeys, hfirst, -, -⟩ := exists_aesRoundKeys_eq key h
  rw [aesDecrypt_eq key c first last mid hkeys, length_addRoundKey _ _ (length_aesInvSubstitute _) hfirst]

theorem aesDecrypt_aesEncrypt (key b : Bytes) (h : keyOK .aes key.length = true) (hb : b.length = 16) :
    aesDecrypt key (aesEncrypt key b) = b := by
  obtain ⟨first, mid, last, hkeys, hfirst, hmid, hlast⟩ := exists_aesRoundKeys_eq key h
  rw [aesDecrypt_eq key _ first last mid hkeys, aesEncrypt_eq key b first last mid hkeys,
    addRoundKey_addRoundKey _ last (length_aesSubstitute _) hlast, foldl_aesInvRound_reverse mid _ hmid,
    aesInvSubstitute_aesSubstitute _ (length_addRoundKey b first hb hfirst), addRoundKey_addRoundKey b first hb hfirst]

/-! ## The block functions of both families -/

theorem length_encryptBlock (alg : Alg) (key b : Bytes) (h : keyOK alg key.length = true) :
    (encryptBlock alg key b).length = blockSize alg := by
  cases alg with
  | des => exact length_desEncrypt _ _
  | aes => exact length_aesEncrypt key b h

theorem length_decryptBlock (alg : Alg) (key c : Bytes) (h : keyOK alg key.length = true) :
    (decryptBlock alg key c).length = blockSize alg := by
  cases alg with
  | des => exact length_desDecrypt _ _
  | aes => exact length_aesDecrypt key c h

/-- D undoes E under a legal key (rule R74). -/
theorem decryptBlock_encryptBlock (alg : Alg) (key b : Bytes) (h : keyOK alg key.length = true)
    (hb : b.length = blockSize alg) : decryptBlock alg key (encryptBlock alg key b) = b := by
  cases alg with
  | des =>
    rcases hkeys : tdesKeys key with ⟨k1, k2, k3⟩
    rw [decryptBlock_des key _ k1 k2 k3 hkeys, encryptBlock_des key b k1 k2 k3 hkeys,
      desDecrypt_desEncrypt k3 _ (length_desDecrypt _ _), desEncrypt_desDecrypt k2 _ (length_desEncrypt _ _),
      desDecrypt_desEncrypt k1 b hb]
  | aes => exact aesDecrypt_aesEncrypt key b h hb

end Sys2Proof.Machine
end

section
/-! SUPPORT. The modes ECB and CBC: the length and the blocks of what decryption gives, and that it undoes encryption
(spec/41_ecb_cbc_modes.md rules R80 to R83). -/

namespace Sys2Proof.Machine

/-! ## Blocks of a string, and of a joined list of blocks -/

/-- The blocks of the split are those the statements count. -/
theorem getElem_blocks (n : Nat) (s : Bytes) (i : Nat) (h : i < (blocks n s).length) :
    (blocks n s)[i] = blockAt n s i := by
  simp [blocks, blockAt]

theorem blockAt_flatten (n : Nat) (bs : List Bytes) (i : Nat) (h : ∀ b ∈ bs, b.length = n) (hn : 0 < n)
    (hi : i < bs.length) : blockAt n bs.flatten i = bs[i] := by
  have hblocks := blocks_flatten n bs h hn
  rw [← getElem_blocks n _ i (by rwa [hblocks])]
  simp only [hblocks]

/-- Joining as many n-byte blocks as a string of whole blocks has gives a string of its length. -/
theorem length_flatten_of_blocks (n : Nat) (bs : List Bytes) (s : Bytes) (h : ∀ b ∈ bs, b.length = n)
    (hcount : bs.length = (blocks n s).length) (hs : s.length % n = 0) : bs.flatten.length = s.length := by
  rw [length_flatten_const n bs h, hcount, length_blocks, Nat.div_mul_cancel (Nat.dvd_of_mod_eq_zero hs)]

/-! ## The chains of CBC -/

theorem length_of_mem_cbcEncChain (n : Nat) (e : Bytes → Bytes) (prev c : Bytes) (l : List Bytes)
    (he : ∀ b, (e b).length = n) (h : c ∈ cbcEncChain e prev l) : c.length = n := by
  obtain ⟨b, rfl⟩ := exists_of_mem_cbcEncChain e prev c l h
  exact he b

/-- Each block of the decryption chain is its cipher block deciphered, exclusive-or the cipher block before it
(rule R83). -/
theorem getElem_cbcDecChain (d : Bytes → Bytes) (prev : Bytes) (l : List Bytes) (i : Nat) (h : i < l.length) :
    (cbcDecChain d prev l)[i]'(by simpa using h) = xorBytes (d l[i]) (if i = 0 then prev else l[i - 1]) := by
  induction l generalizing prev i with
  | nil => simp at h
  | cons c rest ih =>
    cases i with
    | zero => rfl
    | succ i =>
      refine (ih c i (by simpa using h)).trans ?_
      cases i <;> rfl

theorem length_of_mem_cbcDecChain (n : Nat) (d : Bytes → Bytes) (prev p : Bytes) (l : List Bytes)
    (hd : ∀ c, (d c).length = n) (hprev : prev.length = n) (hl : ∀ c ∈ l, c.length = n)
    (h : p ∈ cbcDecChain d prev l) : p.length = n := by
  induction l generalizing prev with
  | nil => simp [cbcDecChain] at h
  | cons c rest ih =>
    obtain ⟨hc, hrest⟩ := List.forall_mem_cons.mp hl
    rcases List.mem_cons.mp h with rfl | h
    · simp [hd, hprev]
    · exact ih c hc hrest h

/-- The decryption chain undoes the encryption chain from the same block before. -/
theorem cbcDecChain_cbcEncChain (n : Nat) (e d : Bytes → Bytes) (prev : Bytes) (l : List Bytes)
    (he : ∀ b, (e b).length = n) (hde : ∀ b, b.length = n → d (e b) = b) (hprev : prev.length = n)
    (hl : ∀ p ∈ l, p.length = n) : cbcDecChain d prev (cbcEncChain e prev l) = l := by
  induction l generalizing prev with
  | nil => rfl
  | cons p rest ih =>
    obtain ⟨hp, hrest⟩ := List.forall_mem_cons.mp hl
    rw [cbcEncChain, cbcDecChain, ih _ (he _) hrest, hde _ (by simp [hp, hprev]),
      xorBytes_cancel p prev (hp.trans hprev.symm)]

/-- After the first block the decryption chain does not depend on the block before the first. -/
theorem tail_cbcDecChain (d : Bytes → Bytes) (prev prev' : Bytes) (l : List Bytes) :
    (cbcDecChain d prev' l).tail = (cbcDecChain d prev l).tail := by
  cases l <;> rfl

/-- Dropping the length of a block from joined blocks drops the first of them. -/
theorem drop_flatten (n : Nat) (bs : List Bytes) (h : ∀ b ∈ bs, b.length = n) :
    bs.flatten.drop n = bs.tail.flatten := by
  cases bs with
  | nil => simp
  | cons b bs => rw [List.flatten_cons, List.drop_left' (h b (by simp)), List.tail_cons]

/-! ## ECB -/

section
variable {alg : Alg} {key : Bytes} (hkey : keyOK alg key.length = true) (s : Bytes)
include hkey

theorem length_of_mem_map_encryptBlock (bs : List Bytes) :
    ∀ c ∈ bs.map (encryptBlock alg key), c.length = blockSize alg :=
  List.forall_mem_map.mpr fun b _ => length_encryptBlock alg key b hkey

theorem length_of_mem_map_decryptBlock (bs : List Bytes) :
    ∀ p ∈ bs.map (decryptBlock alg key), p.length = blockSize alg :=
  List.forall_mem_map.mpr fun c _ => length_decryptBlock alg key c hkey

theorem length_ecbDec (hs : s.length % blockSize alg = 0) : (ecbDec alg key s).length = s.length :=
  length_flatten_of_blocks _ _ s (length_of_mem_map_decryptBlock hkey _) (List.length_map _) hs

theorem blockAt_ecbDec (i : Nat) (hi : i < s.length / blockSize alg) :
    blockAt (blockSize alg) (ecbDec alg key s) i = decryptBlock alg key (blockAt (blockSize alg) s i) := by
  rw [ecbDec, blockAt_flatten _ _ i (length_of_mem_map_decryptBlock hkey _) (blockSize_pos alg) (by simpa using hi),
    List.getElem_map, getElem_blocks]

/-- ECB decryption undoes ECB encryption (rule R81). -/
theorem ecbDec_ecbEnc (hs : s.length % blockSize alg = 0) : ecbDec alg key (ecbEnc alg key s) = s := by
  have hundo := map_map_of_undo (encryptBlock alg key) (decryptBlock alg key) (blocks (blockSize alg) s) fun b hb =>
    decryptBlock_encryptBlock alg key b hkey (length_of_mem_blocks _ s b hb)
  rw [ecbDec, ecbEnc, blocks_flatten _ _ (length_of_mem_map_encryptBlock hkey _) (blockSize_pos alg), hundo,
    flatten_blocks _ s (blockSize_pos alg) hs]

/-! ## CBC -/

theorem length_of_mem_cbcDecChain_blocks (iv : Bytes) (hiv : iv.length = blockSize alg) :
    ∀ p ∈ cbcDecChain (decryptBlock alg key) iv (blocks (blockSize alg) s), p.length = blockSize alg := fun p =>
  length_of_mem_cbcDecChain _ _ iv p _ (fun c => length_decryptBlock alg key c hkey) hiv (length_of_mem_blocks _ s)

theorem length_cbcDec (iv : Bytes) (hiv : iv.length = blockSize alg) (hs : s.length % blockSize alg = 0) :
    (cbcDec alg key iv s).length = s.length :=
  length_flatten_of_blocks _ _ s (length_of_mem_cbcDecChain_blocks hkey s iv hiv) (length_cbcDecChain _ _ _) hs

theorem blockAt_cbcDec (iv : Bytes) (hiv : iv.length = blockSize alg) (i : Nat) (hi : i < s.length / blockSize alg) :
    blockAt (blockSize alg) (cbcDec alg key iv s) i
      = xorBytes (decryptBlock alg key (blockAt (blockSize alg) s i))
          (if i = 0 then iv else blockAt (blockSize alg) s (i - 1)) := by
  rw [cbcDec, blockAt_flatten _ _ i (length_of_mem_cbcDecChain_blocks hkey s iv hiv) (blockSize_pos alg)
    (by simpa using hi), getElem_cbcDecChain _ _ _ i (by simpa using hi)]
  simp only [getElem_blocks]

/-- CBC decryption undoes CBC encryption under the same IV (rule R83). -/
theorem cbcDec_cbcEnc (iv : Bytes) (hiv : iv.length = blockSize alg) (hs : s.length % blockSize alg = 0) :
    cbcDec alg key iv (cbcEnc alg key iv s) = s := by
  have henc := fun b => length_encryptBlock alg key b hkey
  rw [cbcDec, cbcEnc,
    blocks_flatten _ _ (fun c => length_of_mem_cbcEncChain _ _ iv c _ henc) (blockSize_pos alg),
    cbcDecChain_cbcEncChain _ _ _ iv _ henc (fun b => decryptBlock_encryptBlock alg key b hkey) hiv
      (length_of_mem_blocks _ s),
    flatten_blocks _ s (blockSize_pos alg) hs]

/-- After the first block CBC decryption does not depend on the IV (rule R83). -/
theorem drop_cbcDec (iv iv' : Bytes) (hiv : iv.length = blockSize alg) (hiv' : iv'.length = blockSize alg) :
    (cbcDec alg key iv' s).drop (blockSize alg) = (cbcDec alg key iv s).drop (blockSize alg) := by
  rw [cbcDec, cbcDec, drop_flatten _ _ (length_of_mem_cbcDecChain_blocks hkey s iv' hiv'),
    drop_flatten _ _ (length_of_mem_cbcDecChain_blocks hkey s iv hiv), tail_cbcDecChain]

end

end Sys2Proof.Machine

/-! The obligations of the family of spec/41_ecb_cbc_modes.md. -/

namespace Sys2Proof.ModeProofs

open Sys2Proof.Machine

/-- Settles O39: a string of whole blocks is its blocks joined, and D undoes E on each of them. -/
theorem ecbDecryptionUndoesEncryption : Obligations.EcbDecryptionUndoesEncryption := fun _ _ s hkey hs =>
  ⟨length_ecbDec hkey s hs, blockAt_ecbDec hkey s, ecbDec_ecbEnc hkey s hs⟩

/-- Settles O40: the decryption chain undoes the encryption chain, and only its first block reads the IV. -/
theorem cbcDecryptionUndoesEncryption : Obligations.CbcDecryptionUndoesEncryption := fun _ _ iv s hkey hiv hs =>
  ⟨length_cbcDec hkey s iv hiv hs, blockAt_cbcDec hkey s iv hiv, cbcDec_cbcEnc hkey s iv hiv hs,
    fun iv' hiv' => drop_cbcDec hkey s iv iv' hiv hiv'⟩

end Sys2Proof.ModeProofs
end

section
/-! SUPPORT. The lengths of the padded strings and the longest result of each kind of command (spec/42_padding.md
rule R94). -/

namespace Sys2Proof.Machine

/-! ## The lengths of the padded strings -/

/-- Scheme 1 gives the next multiple of n, and a whole block for the empty string (rule R94). -/
theorem length_pad1 (s : Bytes) (n : Nat) (hn : 1 ≤ n) : (pad1 s n).length = pad1Length s.length n := by
  obtain ⟨k, hform, hwhole, hempty, hshort⟩ := pad1_form s n hn
  rw [hform, List.length_append, length_zeros, pad1Length]
  split_ifs with h0
  · rw [h0, hempty h0, Nat.zero_add]
  · have hk := hshort h0
    obtain ⟨q, hq⟩ := Nat.dvd_of_mod_eq_zero hwhole
    have hdiv : (s.length + n - 1) / n = q := by
      rw [Nat.div_eq_iff hn, Nat.mul_comm q n]
      omega
    rw [hq, hdiv, Nat.mul_comm]

/-- Scheme 1 adds less than a block to a non-empty string. -/
theorem length_pad1_bounds (s : Bytes) (n : Nat) (hn : 1 ≤ n) (hs : 0 < s.length) :
    s.length ≤ (pad1 s n).length ∧ (pad1 s n).length ≤ s.length + n - 1 := by
  obtain ⟨k, hform, -, -, hshort⟩ := pad1_form s n hn
  have hk := hshort (by omega)
  rw [hform, List.length_append, length_zeros]
  omega

theorem length_pad1_of_empty (s : Bytes) (n : Nat) (hs : s.length = 0) : (pad1 s n).length = n := by
  simp [pad1, hs]

/-- Scheme 2 gives the first multiple of n above the length (rule R94). -/
theorem length_pad2 (s : Bytes) (n : Nat) (hn : 1 ≤ n) : (pad2 s n).length = (s.length / n + 1) * n := by
  rw [pad2, length_pad1 _ n hn, List.length_append, List.length_singleton, pad1Length, if_neg (Nat.succ_ne_zero _),
    Nat.add_right_comm, Nat.add_sub_cancel, Nat.add_div_right _ hn]

/-- Scheme 2 adds at least one byte and at most a block. -/
theorem length_pad2_bounds (s : Bytes) (n : Nat) (hn : 1 ≤ n) :
    s.length + 1 ≤ (pad2 s n).length ∧ (pad2 s n).length ≤ s.length + n := by
  have hmarked : (s ++ [0x80]).length = s.length + 1 := by simp
  obtain ⟨hlo, hhi⟩ := length_pad1_bounds (s ++ [0x80]) n hn (by omega)
  rw [pad2]
  omega

/-- Scheme 3 adds its length bytes to what scheme 1 gives (rule R94). -/
theorem length_pad3 (s : Bytes) (n : Nat) : (pad3 s n).length = prefixBytes n + (pad1 s n).length := by simp [pad3]

/-! ## The bound of rule R94 -/

/-- The longest result of any command on an input of `len` bytes (rule R94). -/
def longestResult (len : Nat) : Nat := if len = 0 then 263 else len + 262

theorem longestResult_mono {len len' : Nat} (h : len ≤ len') : longestResult len ≤ longestResult len' := by
  unfold longestResult
  split_ifs <;> omega

theorem le_longestResult (len : Nat) : len ≤ longestResult len := by
  unfold longestResult
  split_ifs <;> omega

theorem le_longestResult_of_le_263 {m : Nat} (len : Nat) (h : m ≤ 263) : m ≤ longestResult len :=
  h.trans (longestResult_mono (Nat.zero_le len))

/-- The length bytes of scheme 3 and a block but one byte, 8 + 254 bytes, are the most that padding adds to a non-empty
string. -/
theorem length_pad_le (q : PadScheme) (s : Bytes) (n : Nat) (hn : 1 ≤ n) (hfield : n ≤ 255) :
    (pad q s n).length ≤ longestResult s.length := by
  have hpad1 : (pad1 s n).length + 8 ≤ longestResult s.length := by
    unfold longestResult
    split_ifs with h0
    · rw [length_pad1_of_empty s n h0]
      omega
    · obtain ⟨-, hhi⟩ := length_pad1_bounds s n hn (by omega)
      omega
  cases q with
  | iso1 => exact (Nat.le_add_right _ 8).trans hpad1
  | iso2 =>
    obtain ⟨-, hhi⟩ := length_pad2_bounds s n hn
    refine hhi.trans ?_
    unfold longestResult
    split_ifs <;> omega
  | iso3 =>
    have hbits := prefixBytes_le n
    simp only [pad, length_pad3]
    omega

theorem length_pad3_255_of_empty (s : Bytes) (hs : s.length = 0) : (pad3 s 255).length = 263 := by
  rw [length_pad3, length_pad1_of_empty s 255 hs]
  rfl

/-! ## The results of the modes, the MACs and the subkey pair -/

/-- As many n-byte blocks as a string has are joined no longer than the string. -/
theorem length_flatten_le_of_blocks (n : Nat) (bs : List Bytes) (s : Bytes) (h : ∀ b ∈ bs, b.length = n)
    (hcount : bs.length = (blocks n s).length) : bs.flatten.length ≤ s.length := by
  rw [length_flatten_const n bs h, hcount, length_blocks]
  exact Nat.div_mul_le_self _ _

section
variable {alg : Alg} {key : Bytes} (hkey : keyOK alg key.length = true) (s : Bytes)
include hkey

theorem length_ecbEnc_le : (ecbEnc alg key s).length ≤ s.length :=
  length_flatten_le_of_blocks _ _ s (length_of_mem_map_encryptBlock hkey _) (List.length_map _)

theorem length_ecbDec_le : (ecbDec alg key s).length ≤ s.length :=
  length_flatten_le_of_blocks _ _ s (length_of_mem_map_decryptBlock hkey _) (List.length_map _)

theorem length_cbcEnc_le (iv : Bytes) : (cbcEnc alg key iv s).length ≤ s.length :=
  length_flatten_le_of_blocks _ _ s
    (fun c => length_of_mem_cbcEncChain _ _ iv c _ fun b => length_encryptBlock alg key b hkey)
    (length_cbcEncChain _ _ _)

theorem length_cbcDec_le (iv : Bytes) (hiv : iv.length = blockSize alg) : (cbcDec alg key iv s).length ≤ s.length :=
  length_flatten_le_of_blocks _ _ s (length_of_mem_cbcDecChain_blocks hkey s iv hiv) (length_cbcDecChain _ _ _)

end

theorem blockSize_le_16 (alg : Alg) : blockSize alg ≤ 16 := by cases alg <;> decide

theorem length_cbcmac_le (alg : Alg) (key s : Bytes) (q : PadScheme) (m : Nat) : (cbcmac alg key s q m).length ≤ m :=
  List.length_take_le _ _

theorem length_retailmac_le (k1 k2 s : Bytes) (q : PadScheme) (m : Nat) : (retailmac k1 k2 s q m).length ≤ m :=
  List.length_take_le _ _

/-- The doubling gives no more bytes than it is given. -/
theorem length_dbl_le (alg : Alg) (b : Bytes) : (dbl alg b).length ≤ b.length := by
  unfold dbl
  split_ifs <;> simp

/-- Either subkey is no longer than a block. -/
theorem length_cmacsk_le (alg : Alg) (key : Bytes) (hkey : keyOK alg key.length = true) :
    (cmacsk alg key).1.length ≤ 16 ∧ (cmacsk alg key).2.length ≤ 16 := by
  have hblock : (encryptBlock alg key (zeros (blockSize alg))).length ≤ 16 :=
    (length_encryptBlock alg key _ hkey).trans_le (blockSize_le_16 alg)
  have hk1 : (cmacsk alg key).1.length ≤ 16 := (length_dbl_le alg _).trans hblock
  exact ⟨hk1, (length_dbl_le alg _).trans hk1⟩

/-! ## What OLEN holds after a command -/

/-- After a command OLEN is at most any bound on the result under checks that pass; a refusal leaves 0. -/
theorem olen_runCommand_le (checks : List Check) (result : State → Bytes) (s : State) (bound : Nat)
    (h : (∀ c ∈ checks, c.1 = false) → (result s).length ≤ bound) :
    (runCommand checks result s).olen.toNat ≤ bound := by
  rcases runCommand_cases checks result s with ⟨code, -, hrun⟩ | ⟨hpass, hrun⟩
  · rw [hrun]
    exact Nat.zero_le bound
  · rw [hrun, finish_olen, BitVec.toNat_ofNat]
    exact (Nat.mod_le _ _).trans (h ((firstError_eq_none checks).mp hpass))

theorem length_input_le (s : State) : (input s).length ≤ s.ilen.toNat := by simp

/-- A key check that passes makes the key operand legal. -/
theorem keyOK_key1Operand (alg : Alg) (klen : KLen) (s : State) (h : (checkKeyLen alg klen).1 = false) :
    keyOK alg (key1Operand klen s).length = true := by
  simpa [checkKeyLen] using h

/-- A MAC length check that passes bounds the MAC length. -/
theorem macLength_le_16 (alg : Alg) (maclen : Nat) (h : (checkMacLen alg maclen).1 = false) :
    macLength alg maclen ≤ 16 := by
  have hle : macLength alg maclen ≤ blockSize alg := by simpa [checkMacLen] using h
  exact hle.trans (blockSize_le_16 alg)

theorem olen_modeCommand_le (alg : Alg) (klen : KLen) (result : State → Bytes) (s : State)
    (h : keyOK alg (key1Operand klen s).length = true → (result s).length ≤ (input s).length) :
    (runCommand (modeChecks alg klen s) result s).olen.toNat ≤ longestResult s.ilen.toNat :=
  olen_runCommand_le _ result s _ fun hpass =>
    have hkey := keyOK_key1Operand alg klen s (hpass _ (by simp [modeChecks]))
    (h hkey).trans ((length_input_le s).trans (le_longestResult _))

theorem olen_padCommand_le (q : PadScheme) (n : Nat) (s : State) (hn : 1 ≤ n) (hfield : n ≤ 255) :
    (padCommand q n s).olen.toNat ≤ longestResult s.ilen.toNat :=
  olen_runCommand_le _ _ s _ fun _ =>
    (length_pad_le q (input s) n hn hfield).trans (longestResult_mono (length_input_le s))

theorem olen_cbcmacCommand_le (q : PadScheme) (alg : Alg) (klen : KLen) (maclen : Nat) (s : State) :
    (cbcmacCommand q alg klen maclen s).olen.toNat ≤ longestResult s.ilen.toNat :=
  olen_runCommand_le _ _ s _ fun hpass =>
    have hmac := macLength_le_16 alg maclen (hpass _ (by simp))
    le_longestResult_of_le_263 _ ((length_cbcmac_le _ _ _ _ _).trans (hmac.trans (by decide)))

theorem olen_rmacCommand_le (q : PadScheme) (klen klen2 : KLen) (maclen : Nat) (s : State) :
    (rmacCommand q klen klen2 maclen s).olen.toNat ≤ longestResult s.ilen.toNat :=
  olen_runCommand_le _ _ s _ fun hpass =>
    have hmac := macLength_le_16 .des maclen (hpass _ (by simp))
    le_longestResult_of_le_263 _ ((length_retailmac_le _ _ _ _ _).trans (hmac.trans (by decide)))

theorem exec_cmacsk_olen_le (alg : Alg) (klen : KLen) (s : State) :
    ∃ t, exec (.cmacsk alg klen) s = .next t ∧ t.olen.toNat ≤ longestResult s.ilen.toNat := by
  refine ⟨_, rfl, olen_runCommand_le _ _ s _ fun hpass => le_longestResult_of_le_263 _ ?_⟩
  have hkey := keyOK_key1Operand alg klen s (hpass _ (by simp))
  obtain ⟨hk1, hk2⟩ := length_cmacsk_le alg (key1Operand klen s) hkey
  rw [List.length_append]
  omega

/-- An effective block size that the BLKSZ field asks for is at most 255 (rule R57). -/
theorem padSize_le_255 (alg : Alg) (blksz : Nat) (h : fitsField blksz = true) : padSize alg blksz ≤ 255 := by
  have hfield := Laws.lt_of_fitsField blksz h
  have hblock := blockSize_le_16 alg
  unfold padSize
  split_ifs <;> omega

/-- Every well-formed command leaves at most the bytes of rule R94. -/
theorem exec_olen_le (i : Instr) (s : State) (hwf : i.wellFormed = true) :
    ∃ t, exec i s = .next t ∧ t.olen.toNat ≤ longestResult s.ilen.toNat := by
  cases i with
  | ecbenc alg klen => exact ⟨_, rfl, olen_modeCommand_le alg klen _ s fun hkey => length_ecbEnc_le hkey _⟩
  | ecbdec alg klen => exact ⟨_, rfl, olen_modeCommand_le alg klen _ s fun hkey => length_ecbDec_le hkey _⟩
  | cbcenc alg klen => exact ⟨_, rfl, olen_modeCommand_le alg klen _ s fun hkey => length_cbcEnc_le hkey _ _⟩
  | cbcdec alg klen =>
    exact ⟨_, rfl, olen_modeCommand_le alg klen _ s fun hkey => length_cbcDec_le hkey _ _ (length_ivOperand alg s)⟩
  | pad1 alg blksz =>
    exact ⟨_, rfl, olen_padCommand_le .iso1 _ s (padSize_pos alg blksz) (padSize_le_255 alg blksz hwf)⟩
  | pad2 alg blksz =>
    exact ⟨_, rfl, olen_padCommand_le .iso2 _ s (padSize_pos alg blksz) (padSize_le_255 alg blksz hwf)⟩
  | pad3 alg blksz =>
    exact ⟨_, rfl, olen_padCommand_le .iso3 _ s (padSize_pos alg blksz) (padSize_le_255 alg blksz hwf)⟩
  | cbcmac1 alg klen maclen => exact ⟨_, rfl, olen_cbcmacCommand_le .iso1 alg klen maclen s⟩
  | cbcmac2 alg klen maclen => exact ⟨_, rfl, olen_cbcmacCommand_le .iso2 alg klen maclen s⟩
  | cbcmac3 alg klen maclen => exact ⟨_, rfl, olen_cbcmacCommand_le .iso3 alg klen maclen s⟩
  | rmac1 klen klen2 maclen => exact ⟨_, rfl, olen_rmacCommand_le .iso1 klen klen2 maclen s⟩
  | rmac2 klen klen2 maclen => exact ⟨_, rfl, olen_rmacCommand_le .iso2 klen klen2 maclen s⟩
  | rmac3 klen klen2 maclen => exact ⟨_, rfl, olen_rmacCommand_le .iso3 klen klen2 maclen s⟩
  | cmacsk alg klen => exact exec_cmacsk_olen_le alg klen s

/-! ## The longest result is reached -/

/-- A padding command succeeds where the input is in IBUF, the length bytes of scheme 3 hold its bit length, and OBUF
holds the padded string (rule R95). -/
theorem padCommand_of_pass (q : PadScheme) (n : Nat) (s : State) (hilen : s.ilen.toNat ≤ s.params.ibufBytes)
    (hbits : q = .iso3 → 8 * s.ilen.toNat < 2 ^ (8 * prefixBytes n))
    (hout : (pad q (input s) n).length ≤ s.params.obufBytes) :
    padCommand q n s = finish (pad q (input s) n) s := by
  refine runCommand_of_pass _ _ s ?_
  simp only [List.forall_mem_cons, checkILen, checkPadLen, checkOverflow, decide_eq_false_iff_not, not_and, not_lt,
    not_le, ge_iff_le, gt_iff_lt]
  exact ⟨hilen, hbits, hout, by simp⟩

/-- PAD3 with block size 255 gives 263 bytes for an empty input, where OBUF holds them (rule R94). -/
theorem exec_pad3_255_of_empty (alg : Alg) (s : State) (hilen : s.ilen = 0) (hobuf : 263 ≤ s.params.obufBytes) :
    ∃ t, exec (.pad3 alg 255) s = .next t ∧ t.olen.toNat = 263 := by
  have hempty : s.ilen.toNat = 0 := by simp [hilen]
  have hlen : (pad .iso3 (input s) 255).length = 263 := length_pad3_255_of_empty (input s) (by simp [hempty])
  have hrun : padCommand .iso3 255 s = finish (pad .iso3 (input s) 255) s :=
    padCommand_of_pass .iso3 255 s (by omega) (fun _ => by simp [hempty]) (hlen.trans_le hobuf)
  refine ⟨padCommand .iso3 255 s, rfl, ?_⟩
  rw [hrun, finish_olen, hlen]
  rfl

end Sys2Proof.Machine

/-! The obligation of the family of spec/42_padding.md. -/

namespace Sys2Proof.PaddingProofs

open Sys2Proof.Machine

/-- Settles O41: the lengths scheme by scheme, the bound on OLEN command by command, and PAD3 on an empty input with
block size 255, where the bound is met. -/
theorem paddedLengths : Obligations.PaddedLengths := by
  refine ⟨fun s n hn => ?_, fun i s t hwf h => ?_, exec_pad3_255_of_empty⟩
  · obtain ⟨hlo, hhi⟩ := length_pad2_bounds s n hn
    refine ⟨length_pad1 s n hn, length_pad1_bounds s n hn, length_pad2 s n hn, hlo, hhi, length_pad3 s n,
      fun hfield q => length_pad_le q s n hn hfield, ?_, fun hfield hs q => ?_⟩
    · rintro rfl hs
      exact length_pad3_255_of_empty s hs
    · calc (pad q s n).length ≤ longestResult s.length := length_pad_le q s n hn hfield
        _ ≤ longestResult 65536 := longestResult_mono hs
        _ < 2 ^ 32 := by decide
  · obtain ⟨t', hexec, hle⟩ := exec_olen_le i s hwf
    obtain rfl : t' = t := Host.Outcome.next.inj (hexec.symm.trans h)
    exact hle

end Sys2Proof.PaddingProofs
end

section
/-! SUPPORT. CBC encryption of one block under itself as the IV, and the length of the last block of the DES chain, which
no padding scheme and no key can make shorter (spec/43_cbc_mac.md rules R100 and R107). -/

namespace Sys2Proof.Machine

/-! ## No padded string is empty -/

/-- Scheme 1 gives at least one whole block. -/
theorem le_length_pad1 (s : Bytes) (n : Nat) (hn : 1 ≤ n) : n ≤ (pad1 s n).length := by
  obtain ⟨k, hform, hwhole, hempty, -⟩ := pad1_form s n hn
  rw [hform, List.length_append, length_zeros]
  have hpos : 0 < s.length + k := by omega
  exact Nat.le_of_dvd hpos (Nat.dvd_of_mod_eq_zero hwhole)

/-- Every scheme gives at least one whole block (rule R100). -/
theorem le_length_pad (q : PadScheme) (s : Bytes) (n : Nat) (hn : 1 ≤ n) : n ≤ (pad q s n).length := by
  cases q with
  | iso1 => exact le_length_pad1 s n hn
  | iso2 => exact le_length_pad1 (s ++ [0x80]) n hn
  | iso3 =>
    calc n ≤ (pad1 s n).length := le_length_pad1 s n hn
      _ ≤ (pad3 s n).length := (Nat.le_add_left _ _).trans_eq (length_pad3 s n).symm

/-! ## The last block -/

theorem length_lastBytes (s : Bytes) (n : Nat) (h : n ≤ s.length) : (lastBytes s n).length = n := by
  rw [lastBytes, List.length_drop]
  omega

/-- E of the DES family gives a block under a key of any length. -/
theorem length_encryptBlock_des (key b : Bytes) : (encryptBlock .des key b).length = blockSize .des :=
  length_desEncrypt _ _

/-- Under a key of any length the DES chain has as many whole blocks as its input. -/
theorem length_cbcEnc_des (key iv s : Bytes) :
    (cbcEnc .des key iv s).length = s.length / blockSize .des * blockSize .des := by
  rw [cbcEnc, length_flatten_const _ _ fun c => length_of_mem_cbcEncChain _ _ iv c _ (length_encryptBlock_des key),
    length_cbcEncChain, length_blocks]

/-- The last block of the DES chain under a padded string is a whole block. -/
theorem length_lastBytes_cbcEnc_des_pad (key iv s : Bytes) (q : PadScheme) :
    (lastBytes (cbcEnc .des key iv (pad q s (blockSize .des))) (blockSize .des)).length = blockSize .des := by
  refine length_lastBytes _ _ ?_
  have hblock : 1 ≤ (pad q s (blockSize .des)).length / blockSize .des :=
    Nat.div_pos (le_length_pad q s _ (blockSize_pos .des)) (blockSize_pos .des)
  rw [length_cbcEnc_des]
  exact Nat.le_mul_of_pos_left _ hblock

/-! ## CBC encryption of a single block -/

theorem cbcEnc_of_one_block (alg : Alg) (key iv b : Bytes) (hb : b.length = blockSize alg) :
    cbcEnc alg key iv b = encryptBlock alg key (xorBytes b iv) := by
  have hblocks : blocks (blockSize alg) b = [b] := by
    simpa using blocks_flatten (blockSize alg) [b] (by simpa using hb) (blockSize_pos alg)
  simp [cbcEnc, hblocks, cbcEncChain]

/-- A block that is its own IV cancels: what is enciphered is the zero block (rule R107). -/
theorem cbcEnc_self (alg : Alg) (key b : Bytes) (hb : b.length = blockSize alg) :
    cbcEnc alg key b b = encryptBlock alg key (zeros (blockSize alg)) := by
  rw [cbcEnc_of_one_block alg key b b hb, xorBytes_self, hb]

end Sys2Proof.Machine

/-! The obligation of the family of spec/43_cbc_mac.md. -/

namespace Sys2Proof.MacProofs

open Sys2Proof.Machine

/-- Settles O42: data, scheme and key 1 enter only through the last block L of the chain, and L is its own IV. -/
theorem retailMacIgnoresDataAndKeyOne : Obligations.RetailMacIgnoresDataAndKeyOne := by
  intro k1 k2 s q m
  have hlast := length_lastBytes_cbcEnc_des_pad k1 (zeros 8) s q
  exact congrArg (firstBytes · m) (cbcEnc_self .des k2 _ hlast)

end Sys2Proof.MacProofs
end

section
/-! SUPPORT. Single DES never reads the lowest bit of a key byte: permuted choice 1 names no such bit, so a key and
the key with those bits at 0 have the same subkeys (spec/45_des_reference.md rules R123 and R131). -/

namespace Sys2Proof.Machine

/-! ## A mask on every byte of a string -/

/-- A mask on every byte masks the number of the string. -/
theorem int_map_and (c : Byte) (s : Bytes) :
    int (s.map (· &&& c)) = int s &&& int (List.replicate s.length c) := by
  induction s with
  | nil => simp [int]
  | cons b s ih =>
    have hs := int_lt s
    have hc := int_lt (List.replicate s.length c)
    have hpow : 256 ^ s.length = 2 ^ (8 * s.length) := by norm_num [pow_mul]
    rw [List.length_replicate] at hc
    rw [hpow] at hs hc
    rw [List.map_cons, List.length_cons, List.replicate_succ, int_cons, int_cons, int_cons, ih, List.length_map,
      List.length_replicate, hpow, BitVec.toNat_and]
    refine Nat.eq_of_testBit_eq fun i => ?_
    simp only [Nat.testBit_and, Nat.mul_comm _ (2 ^ _), Nat.testBit_two_pow_mul_add _ hs,
      Nat.testBit_two_pow_mul_add _ hc, Nat.testBit_two_pow_mul_add _ (Nat.and_lt_two_pow _ hc)]
    split <;> rfl

/-! ## The parity bits of a key -/

/-- The key with the lowest bit of every byte at 0 (rule R131). -/
def clearParity (k : Bytes) : Bytes := k.map (fun x => x &&& 0xFE)

theorem bits64_clearParity (k : Bytes) (hk : k.length = 8) :
    bits64 (clearParity k) = bits64 k &&& 0xFEFEFEFEFEFEFEFE := by
  have hmask : int (List.replicate 8 0xFE) = 0xFEFEFEFEFEFEFEFE := by decide
  rw [bits64, bits64, clearParity, int_map_and, hk, hmask, BitVec.ofNat_and]
  rfl

/-- Permuted choice 1 names no lowest bit of a key byte (rule R123). -/
theorem desPC1_names_no_parity_bit :
    ∀ i < 56, (0xFEFEFEFEFEFEFEFE : BitVec 64).getLsbD (64 - desPC1.getD (55 - i) 0) = true := by
  decide

theorem permute_desPC1_and (x : BitVec 64) :
    permute 56 desPC1 (x &&& 0xFEFEFEFEFEFEFEFE) = permute 56 desPC1 x := by
  refine BitVec.eq_of_getLsbD_eq fun i hi => ?_
  rw [getLsbD_permute 56 desPC1 _ i rfl hi, getLsbD_permute 56 desPC1 _ i rfl hi, BitVec.getLsbD_and,
    desPC1_names_no_parity_bit i hi, Bool.and_true]

theorem desSubkeys_clearParity (k : Bytes) (hk : k.length = 8) :
    desSubkeys (bits64 (clearParity k)) = desSubkeys (bits64 k) := by
  rw [desSubkeys, desSubkeys, bits64_clearParity k hk, permute_desPC1_and]

/-- Keys that differ in parity bits alone have the same subkeys (rule R131). -/
theorem desSubkeys_of_clearParity_eq (k k' : Bytes) (hk : k.length = 8) (hk' : k'.length = 8)
    (h : clearParity k = clearParity k') : desSubkeys (bits64 k) = desSubkeys (bits64 k') := by
  rw [← desSubkeys_clearParity k hk, h, desSubkeys_clearParity k' hk']

theorem desEncrypt_of_clearParity_eq (k k' b : Bytes) (hk : k.length = 8) (hk' : k'.length = 8)
    (h : clearParity k = clearParity k') : desEncrypt k b = desEncrypt k' b := by
  rw [desEncrypt, desEncrypt, desSubkeys_of_clearParity_eq k k' hk hk' h]

theorem desDecrypt_of_clearParity_eq (k k' b : Bytes) (hk : k.length = 8) (hk' : k'.length = 8)
    (h : clearParity k = clearParity k') : desDecrypt k b = desDecrypt k' b := by
  rw [desDecrypt, desDecrypt, desSubkeys_of_clearParity_eq k k' hk hk' h]

/-! ## The example of rule R131 -/

theorem desEncrypt_example :
    desEncrypt (be 0x133457799BBCDFF1 8) (be 0x0123456789ABCDEF 8) = be 0x85E813540F0AB405 8 := by
  decide +kernel

/-- The example's key with every parity bit at 0: the same result, without another run of the cipher. -/
theorem desEncrypt_example_clearParity :
    desEncrypt (be 0x123456789ABCDEF0 8) (be 0x0123456789ABCDEF 8) = be 0x85E813540F0AB405 8 := by
  have hkey : clearParity (be 0x123456789ABCDEF0 8) = clearParity (be 0x133457799BBCDFF1 8) := by decide
  rw [desEncrypt_of_clearParity_eq _ _ _ (length_be _ 8) (length_be _ 8) hkey, desEncrypt_example]

theorem desSubkeys_example_first : (desSubkeys 0x133457799BBCDFF1)[0]? = some 0x1B02EFFC7072 := by
  decide +kernel

theorem desSubkeys_example_last : (desSubkeys 0x133457799BBCDFF1)[15]? = some 0xCB3D8B0E17F5 := by
  decide +kernel

end Sys2Proof.Machine

/-! The obligation of the family of spec/45_des_reference.md. -/

namespace Sys2Proof.DesProofs

open Sys2Proof.Machine

/-- Settles O36: the rounds under the reversed subkeys undo the rounds, and the subkeys do not depend on the parity bits;
decryption is the reversed schedule by definition, and the example is evaluated. -/
theorem singleDesInvertsAndIgnoresParity : Obligations.SingleDesInvertsAndIgnoresParity :=
  ⟨fun k b _ hb => ⟨desDecrypt_desEncrypt k b hb, desEncrypt_desDecrypt k b hb⟩,
    fun k k' hk hk' h b => ⟨desEncrypt_of_clearParity_eq k k' b hk hk' h, desDecrypt_of_clearParity_eq k k' b hk hk' h⟩,
    fun _ _ => rfl,
    desEncrypt_example, desEncrypt_example_clearParity, desSubkeys_example_first, desSubkeys_example_last⟩

end Sys2Proof.DesProofs
end

section
/-! SUPPORT. A success's effects, the accesses the host port refuses (spec/20_memory.md rule R34), an accepted 8-bit read,
and the events that clear ACCERR (spec/10_state.md rule R16). -/

namespace Sys2Proof.Machine

/-! ## The effects of a success -/

/-- The one success of the model has the effects of spec/60_exceptions.md rule R161, for a result whose length OLEN holds. -/
theorem finish_successOf (r : Bytes) (s : State) (h : r.length < 2 ^ 32) : SuccessOf r.length s (finish r s) where
  olen := by simpa using h
  rest_zero a ha := by simp [List.getElem?_eq_none ha]
  done := by simp
  err := by simp
  errcode := by simp
  sticky := by simp
  others := by simp [OtherStatusKept]
  operands := by constructor <;> simp

/-- The result of a success reads back from OBUF. -/
theorem readBytes_obuf_finish (r : Bytes) (s : State) : (finish r s).obuf.readBytes 0 r.length = r := by
  rw [finish_obuf, Memory.readBytes_ofBytes r 0 r.length (by omega), List.drop_zero, List.take_length]

/-! ## Refused accesses -/

theorem readWord_of_refused (off : Nat) (s : State) (h : accessRefused s.params (.read32 off)) :
    readWord off s = none := by
  simp only [accessRefused, List.mem_cons, List.not_mem_nil, or_false, not_or] at h
  obtain ⟨hcmd, hstatus, hilen, holen, hibufsz, hobufsz⟩ := h
  simp [readWord, wordPlace, hcmd, hstatus, hilen, holen, hibufsz, hobufsz]

theorem writeWord_of_refused (off : Nat) (v : Word) (s : State) (h : accessRefused s.params (.write32 off v)) :
    writeWord off v s = .next (refuseAccess s) := by
  simp only [accessRefused, List.mem_cons, List.not_mem_nil, or_false, not_or] at h
  obtain ⟨hcmd, hstatus, hilen⟩ := h
  rcases writeWord_cases off v s with ⟨e, -⟩ | ⟨e, -⟩ | ⟨e, -⟩ | ⟨-, -, -, hrefused⟩
  · exact absurd e hcmd
  · exact absurd e hstatus
  · exact absurd e hilen
  · exact hrefused

/-- An offset off the byte regions names no byte place. -/
theorem bytePlace_of_refused (p : Params) (off : Nat) (h : accessRefused p (.read8 off)) :
    bytePlace p off = .unmapped := by
  obtain ⟨hregs, hibuf, hobuf⟩ := h
  have hkey1 : ¬(0x00040 ≤ off ∧ off < 0x00060) := by omega
  have hkey2 : ¬(0x00060 ≤ off ∧ off < 0x00080) := by omega
  have hiv : ¬(0x00080 ≤ off ∧ off < 0x00090) := by omega
  rw [bytePlace, if_neg hkey1, if_neg hkey2, if_neg hiv, if_neg hibuf, if_neg hobuf]

theorem readByte_of_refused (off : Nat) (s : State) (h : accessRefused s.params (.read8 off)) :
    readByte off s = none := by
  rw [readByte, bytePlace_of_refused s.params off h]

/-- An accepted 8-bit write names a byte of KEY1, KEY2, IV or IBUF; every other one is refused. -/
theorem writeByte_of_refused (off : Nat) (v : Byte) (s : State) (h : accessRefused s.params (.write8 off v)) :
    writeByte off v s = refuseAccess s := by
  obtain ⟨hregs, hibuf⟩ := h
  rcases writeByte_cases off v s with
    ⟨i, hi, e, -⟩ | ⟨i, hi, e, -⟩ | ⟨i, hi, e, -⟩ | ⟨i, hi, e, -⟩ | hrefused
  · exact absurd ⟨by omega, by omega⟩ hregs
  · exact absurd ⟨by omega, by omega⟩ hregs
  · exact absurd ⟨by omega, by omega⟩ hregs
  · exact absurd ⟨by omega, by omega⟩ hibuf
  · exact hrefused

/-- The accesses rule R34 names are refused, a read by `refuseRead` and a write by `refuseAccess`. -/
theorem performEvent_of_refused (e : HostEvent) (s : State) (h : accessRefused s.params e) :
    performEvent e s = .next (if isRead e then refuseRead s else refuseAccess s) := by
  cases e with
  | read32 off =>
    rw [performEvent, readWord_of_refused off s h]
    rfl
  | write32 off v => exact writeWord_of_refused off v s h
  | read8 off =>
    rw [performEvent, readByte_of_refused off s h]
    rfl
  | write8 off v => exact congrArg Host.Outcome.next (writeByte_of_refused off v s h)
  | readOther off => rfl
  | writeOther off => rfl
  | reset => exact h.elim

/-- The whole effect of a refused access is ACCERR, and the zero a refused read returns (spec/60_exceptions.md rule
R173). -/
theorem step_of_refused (s : State) (e : HostEvent) (rest : List HostEvent) (h : s.script = e :: rest)
    (hw : eventInWindow e = true) (hrefused : accessRefused s.params e) :
    step s = .next { s with
      script := rest, status := s.status ||| 0x00000200, lastRead := if isRead e then some 0 else s.lastRead } := by
  rw [step_of_event_inWindow s e rest h hw, performEvent_of_refused e { s with script := rest } hrefused]
  cases isRead e <;> rfl

/-! ## Accepted 8-bit reads -/

/-- What a byte reads as does not depend on the events still to come. -/
theorem readByte_with_script (off : Nat) (s : State) (rest : List HostEvent) :
    readByte off { s with script := rest } = readByte off s := rfl

/-- An accepted 8-bit read answers the byte and changes nothing else (spec/20_memory.md rule R34). -/
theorem step_read8_accepted (s : State) (off : Nat) (b : Byte) (rest : List HostEvent)
    (h : s.script = .read8 off :: rest) (hw : off < windowBytes) (hb : readByte off s = some b) :
    step s = .next { s with script := rest, lastRead := some (b.setWidth 32) } := by
  rw [step_of_event_inWindow s _ rest h (by simpa [eventInWindow, eventOffset] using hw)]
  simp only [performEvent, readByte_with_script, hb]
  rfl

/-- Key bytes read as 0x00 (spec/10_state.md rule R11). -/
theorem readByte_of_key (off : Nat) (s : State) (hlo : 0x40 ≤ off) (hhi : off < 0x80) : readByte off s = some 0 := by
  by_cases hkey1 : off < 0x60
  · simp [readByte, bytePlace, hlo, hkey1]
  · have hkey2 : 0x60 ≤ off := by omega
    simp [readByte, bytePlace, hkey1, hkey2, hhi]

/-! ## Who clears ACCERR -/

/-- A command, whatever its word and its outcome, keeps ACCERR (spec/60_exceptions.md rules R161 and R170). -/
theorem issueCommand_keeps_accerr (w : Word) (s t : State) (h : issueCommand w s = .next t) :
    statusAccerr t.status = statusAccerr s.status := by
  rcases issueCommand_next w s with ⟨code, e⟩ | ⟨r, e⟩ <;> rw [e] at h <;> cases h
  · exact statusAccerr_refusal code s.status
  · exact statusAccerr_success s.status

/-- A 32-bit write that clears ACCERR is a write to STATUS of a word with bit 9 set. -/
theorem writeWord_clears_accerr (off : Nat) (v : Word) (s t : State) (h : writeWord off v s = .next t)
    (hset : statusAccerr s.status = true) (hclear : statusAccerr t.status = false) :
    off = 0x00004 ∧ v.getLsbD 9 = true := by
  rcases writeWord_cases off v s with ⟨-, e⟩ | ⟨hoff, e⟩ | ⟨-, e⟩ | ⟨-, -, -, e⟩ <;> rw [e] at h
  · rw [issueCommand_keeps_accerr v s t h, hset] at hclear
    cases hclear
  · cases h
    exact ⟨hoff, by simpa [hset] using hclear⟩
  · cases h
    simp [hset] at hclear
  · cases h
    simp at hclear

/-- An 8-bit write keeps ACCERR set: it leaves STATUS alone or is refused. -/
theorem writeByte_keeps_accerr (off : Nat) (v : Byte) (s : State) (h : statusAccerr s.status = true) :
    statusAccerr (writeByte off v s).status = true := by
  rcases writeByte_cases off v s with
    ⟨i, -, -, e⟩ | ⟨i, -, -, e⟩ | ⟨i, -, -, e⟩ | ⟨i, -, -, e⟩ | e <;> rw [e]
  case inr.inr.inr.inr => exact statusAccerr_accessRefused s.status
  all_goals exact h

/-- An event that clears ACCERR is the reset event or a write to STATUS of a word with bit 9 set. -/
theorem performEvent_clears_accerr (ev : HostEvent) (s t : State) (h : performEvent ev s = .next t)
    (hset : statusAccerr s.status = true) (hclear : statusAccerr t.status = false) :
    ev = .reset ∨ ∃ v : Word, ev = .write32 0x00004 v ∧ v.getLsbD 9 = true := by
  rcases performEvent_cases ev s with
    ⟨v, e⟩ | e | ⟨off, v, hev, e⟩ | ⟨off, v, -, e⟩ | ⟨off, -, e⟩ | ⟨hev, -⟩
  case inr.inr.inr.inr.inr => exact .inl hev
  all_goals rw [e] at h
  case inr.inr.inl =>
    obtain ⟨rfl, hv⟩ := writeWord_clears_accerr off v s t h hset hclear
    exact .inr ⟨v, hev, hv⟩
  all_goals
    cases h
    simp [hset, writeByte_keeps_accerr] at hclear

/-- A step that clears ACCERR has taken the reset event or a write to STATUS of a word with bit 9 set. -/
theorem step_clears_accerr (s t : State) (h : step s = .next t)
    (hset : statusAccerr s.status = true) (hclear : statusAccerr t.status = false) :
    ∃ e rest, s.script = e :: rest
      ∧ (e = .reset ∨ ∃ v : Word, e = .write32 0x00004 v ∧ v.getLsbD 9 = true) := by
  rcases step_next_cases s t h with ⟨-, rfl⟩ | ⟨e, rest, hs, -, hperf⟩
  · cases hset.symm.trans hclear
  · exact ⟨e, rest, hs, performEvent_clears_accerr e { s with script := rest } t hperf hset hclear⟩

end Sys2Proof.Machine

/-! The obligations of the family of spec/60_exceptions.md. -/

namespace Sys2Proof.ExceptionProofs

open Sys2Proof.Machine Sys2Proof.Laws

/-- Settles O7: a word that matches no row does not decode, and the port refuses what does not decode. -/
theorem unmatchedWordIsRefusedWithCodeOne : Obligations.UnmatchedWordIsRefusedWithCodeOne := by
  intro s w rest h hrows
  obtain ⟨e, he⟩ := (decode_error_iff w).mpr hrows
  refine ⟨raiseCmdError .illegal { s with script := rest }, ?_, raiseCmdError_refusalOf .illegal _⟩
  rw [step_write32 s 0x00000 w rest h (by decide), writeWord_cmd, issueCommand_of_decode_error w e _ he]

/-- Settles O30: a result that fits OBUF has a length that OLEN holds, and `finish` writes it whole. -/
theorem finishLeavesTheResultAndZeros : Obligations.FinishLeavesTheResultAndZeros := by
  intro r s ⟨_, _, _, hmax⟩ hfits
  exact ⟨finish_successOf r s (by omega), readBytes_obuf_finish r s⟩

/-- Settles O31: one lemma for every code, read with the number of each. -/
theorem refusalLeavesNoResult : Obligations.RefusalLeavesNoResult := by
  intro code s
  have hrefusal := raiseCmdError_refusalOf code s
  cases code <;> exact hrefusal

/-- Settles O49: what a refused access does, which events clear ACCERR, and the zero that key bytes read as. -/
theorem refusedAccessOnlySetsAccerr : Obligations.RefusedAccessOnlySetsAccerr := by
  refine ⟨fun s e rest hw h hrefused => step_of_refused s e rest h hw hrefused, step_clears_accerr, ?keyRead⟩
  case keyRead =>
    intro s off rest hlo hhi h
    have hw : off < windowBytes := by
      unfold windowBytes
      omega
    exact step_read8_accepted s off 0 rest h hw (readByte_of_key off s hlo hhi)

end Sys2Proof.ExceptionProofs
end

section
/-! SUPPORT. The word of a command field by field, and the two directions of the round trip between words and commands
(spec/30_encoding.md rules R51, R58, R61 and R65). -/

namespace Sys2Proof.Laws

/-! ## The rows of the opcode map -/

/-- A word that matches two rows has, under both masks, the bits of both patterns. -/
theorem patterns_agree_of_match (w : Word) (r r' : OpcodeRow) (h : w &&& r.mask = r.pattern)
    (h' : w &&& r'.mask = r'.pattern) : r.pattern &&& r'.mask = r'.pattern &&& r.mask := by
  rw [← h, ← h', BitVec.and_assoc, BitVec.and_assoc, BitVec.and_comm r.mask]

/-- Two rows differ in a bit that both masks cover (rule R58). -/
theorem opcodeMap_pairwise_patterns_disagree :
    opcodeMap.Pairwise fun r r' => r.pattern &&& r'.mask ≠ r'.pattern &&& r.mask := by decide

theorem opcodeMap_pairwise_disjoint :
    opcodeMap.Pairwise fun r r' => ∀ w : Word, ¬(w &&& r.mask = r.pattern ∧ w &&& r'.mask = r'.pattern) :=
  opcodeMap_pairwise_patterns_disagree.imp fun hne w ⟨h, h'⟩ => hne (patterns_agree_of_match w _ _ h h')

theorem fits_iff (r : OpcodeRow) (w : Word) : r.fits w = true ↔ w &&& r.mask = r.pattern := by
  simp [OpcodeRow.fits]

/-- No row before the j-th matches a word that the j-th row matches. -/
theorem find?_of_fits (j : Fin 14) (w : Word) (h : w &&& opcodeMap[j].mask = opcodeMap[j].pattern) :
    opcodeMap.find? (fun r => r.fits w) = some opcodeMap[j] := by
  refine List.find?_eq_some_iff_getElem.mpr ⟨(fits_iff _ w).mpr h, j, j.isLt, rfl, fun k hk => ?_⟩
  have hdisjoint := List.pairwise_iff_getElem.mp opcodeMap_pairwise_disjoint k j (hk.trans j.isLt) j.isLt hk w
  simpa [OpcodeRow.fits] using fun hfits => hdisjoint ⟨hfits, h⟩

/-- A word decodes to the command its row builds from it. -/
theorem decode_of_fits (j : Fin 14) (w : Word) (h : w &&& opcodeMap[j].mask = opcodeMap[j].pattern) :
    decode w = .ok (opcodeMap[j].build w) := by
  rw [decode, find?_of_fits j w h]

/-- A word that decodes matches the row that built its command. -/
theorem exists_row_of_decode (w : Word) (i : Instr) (h : decode w = .ok i) :
    ∃ r ∈ opcodeMap, w &&& r.mask = r.pattern ∧ r.build w = i := by
  unfold decode at h
  split at h
  case h_1 r hfind =>
    exact ⟨r, List.mem_of_find?_eq_some hfind, (fits_iff r w).mp (by simpa using List.find?_some hfind),
      Except.ok.inj h⟩
  case h_2 => cases h

/-! ## The operand fields -/

theorem algField_eq_iff (w : Word) (alg : Alg) : algField w = alg ↔ (w.getLsbD 8).toNat = alg.code := by
  unfold algField
  cases w.getLsbD 8 <;> cases alg <;> decide

theorem klenOfCode_eq_iff (c : BitVec 2) (k : KLen) : klenOfCode c = k ↔ c.toNat = k.code := by
  revert c
  cases k <;> decide

theorem algField_eq_des (w : Word) : algField w = .des ↔ w.getLsbD 8 = false := by
  simp [algField_eq_iff, Alg.code]

theorem klenOfCode_eq_k8 (c : BitVec 2) : klenOfCode c = .k8 ↔ c = 0 := by
  rw [klenOfCode_eq_iff, ← BitVec.toNat_inj]
  rfl

theorem maclenField_eq_zero (w : Word) : maclenField w = 0 ↔ w.extractLsb' 16 8 = 0 := by
  rw [← BitVec.toNat_inj]
  rfl

theorem blkszField_eq_zero (w : Word) : blkszField w = 0 ↔ w.extractLsb' 24 8 = 0 := by
  rw [← BitVec.toNat_inj]
  rfl

theorem maclenField_fits (w : Word) : fitsField (maclenField w) = true :=
  decide_eq_true (Nat.le_of_lt_succ (w.extractLsb' 16 8).isLt)

theorem blkszField_fits (w : Word) : fitsField (blkszField w) = true :=
  decide_eq_true (Nat.le_of_lt_succ (w.extractLsb' 24 8).isLt)

/-- The fields make up the word: what is assembled from a row's operation and padding code and the operands is the word
that has exactly these fields (rules R51 and R61). -/
theorem assemble_eq_iff (op : BitVec 8) (pad : BitVec 2) (alg : Alg) (klen klen2 : KLen) (maclen blksz : Nat) (w : Word)
    (hmaclen : fitsField maclen = true) (hblksz : fitsField blksz = true) :
    assemble (op.toNat + pad.toNat * 0x400) alg.code klen.code klen2.code maclen blksz = w ↔
      opField w = op ∧ algField w = alg ∧ bit9 w = false ∧ padField w = pad ∧ klenField w = klen
      ∧ klen2Field w = klen2 ∧ maclenField w = maclen ∧ blkszField w = blksz := by
  have hw := w.isLt
  have hop := op.isLt
  have hpad := pad.isLt
  have halg := alg_code_lt alg
  have hklen := klen_code_lt klen
  have hklen2 := klen_code_lt klen2
  replace hmaclen := lt_of_fitsField maclen hmaclen
  replace hblksz := lt_of_fitsField blksz hblksz
  rw [← BitVec.toNat_inj, assemble, BitVec.toNat_ofNat, algField_eq_iff, klenField, klen2Field, klenOfCode_eq_iff,
    klenOfCode_eq_iff, ← BitVec.toNat_inj, ← BitVec.toNat_inj (x := padField w), ← Bool.toNat_eq_zero, opField,
    padField, bit9, maclenField, blkszField]
  simp only [BitVec.extractLsb'_toNat, Nat.shiftRight_eq_div_pow, ← BitVec.testBit_toNat, Nat.toNat_testBit]
  omega

/-! ## The round trips -/

/-- The command a row builds from a word that matches it is well-formed and is assembled to that word: the bits the
row's mask covers are the pattern's, every other bit is an operand's. -/
theorem encode_build_of_match (w : Word) : ∀ r ∈ opcodeMap, w &&& r.mask = r.pattern →
    (r.build w).wellFormed = true ∧ encode (r.build w) = w := by
  have hmac := maclenField_fits w
  have hblk := blkszField_fits w
  have hzero : fitsField 0 = true := rfl
  simp only [opcodeMap, List.forall_mem_cons]
  refine ⟨fun h => ⟨rfl, (assemble_eq_iff 1 0 _ _ .k8 0 0 w hzero hzero).mpr ?_⟩,
    fun h => ⟨rfl, (assemble_eq_iff 2 0 _ _ .k8 0 0 w hzero hzero).mpr ?_⟩,
    fun h => ⟨rfl, (assemble_eq_iff 3 0 _ _ .k8 0 0 w hzero hzero).mpr ?_⟩,
    fun h => ⟨rfl, (assemble_eq_iff 4 0 _ _ .k8 0 0 w hzero hzero).mpr ?_⟩,
    fun h => ⟨hblk, (assemble_eq_iff 5 1 _ .k8 .k8 0 _ w hzero hblk).mpr ?_⟩,
    fun h => ⟨hblk, (assemble_eq_iff 5 2 _ .k8 .k8 0 _ w hzero hblk).mpr ?_⟩,
    fun h => ⟨hblk, (assemble_eq_iff 5 3 _ .k8 .k8 0 _ w hzero hblk).mpr ?_⟩,
    fun h => ⟨hmac, (assemble_eq_iff 6 1 _ _ .k8 _ 0 w hmac hzero).mpr ?_⟩,
    fun h => ⟨hmac, (assemble_eq_iff 6 2 _ _ .k8 _ 0 w hmac hzero).mpr ?_⟩,
    fun h => ⟨hmac, (assemble_eq_iff 6 3 _ _ .k8 _ 0 w hmac hzero).mpr ?_⟩,
    fun h => ⟨hmac, (assemble_eq_iff 7 1 .des _ _ _ 0 w hmac hzero).mpr ?_⟩,
    fun h => ⟨hmac, (assemble_eq_iff 7 2 .des _ _ _ 0 w hmac hzero).mpr ?_⟩,
    fun h => ⟨hmac, (assemble_eq_iff 7 3 .des _ _ _ 0 w hmac hzero).mpr ?_⟩,
    fun h => ⟨rfl, (assemble_eq_iff 8 0 _ _ .k8 0 0 w hzero hzero).mpr ?_⟩, by simp⟩
  all_goals
    simpa [opField, bit9, padField, klenField, klen2Field, algField_eq_des, klenOfCode_eq_k8, maclenField_eq_zero,
      blkszField_eq_zero, BitVec.extractLsb'_and, BitVec.getLsbD_and] using (word_eq_iff_fields _ _).mp h

/-- An assembled word decodes to the command its row builds from the operands that were assembled. -/
theorem decode_assemble (j : Fin 14) (op : BitVec 8) (pad : BitVec 2) (alg : Alg) (klen klen2 : KLen)
    (maclen blksz : Nat) (i : Instr) (hmaclen : fitsField maclen = true) (hblksz : fitsField blksz = true)
    (hfits : assemble (op.toNat + pad.toNat * 0x400) alg.code klen.code klen2.code maclen blksz &&& opcodeMap[j].mask
      = opcodeMap[j].pattern)
    (hbuild : ∀ w, algField w = alg → klenField w = klen → klen2Field w = klen2 → maclenField w = maclen →
      blkszField w = blksz → opcodeMap[j].build w = i) :
    decode (assemble (op.toNat + pad.toNat * 0x400) alg.code klen.code klen2.code maclen blksz) = .ok i := by
  obtain ⟨-, halg, -, -, hklen, hklen2, hmac, hblk⟩ :=
    (assemble_eq_iff op pad alg klen klen2 maclen blksz _ hmaclen hblksz).mp rfl
  rw [decode_of_fits j _ hfits, hbuild _ halg hklen hklen2 hmac hblk]

/-- Decoding undoes assembling: the row of the mnemonic matches the word, and builds the command from its fields. -/
theorem decode_encode (i : Instr) (hwf : i.wellFormed = true) : decode (encode i) = .ok i := by
  have hzero : fitsField 0 = true := rfl
  cases i with
  | ecbenc alg klen =>
    exact decode_assemble 0 1 0 alg klen .k8 0 0 _ hzero hzero (FitsRow.ecbenc alg klen hwf)
      (by rintro w rfl rfl - - -; rfl)
  | ecbdec alg klen =>
    exact decode_assemble 1 2 0 alg klen .k8 0 0 _ hzero hzero (FitsRow.ecbdec alg klen hwf)
      (by rintro w rfl rfl - - -; rfl)
  | cbcenc alg klen =>
    exact decode_assemble 2 3 0 alg klen .k8 0 0 _ hzero hzero (FitsRow.cbcenc alg klen hwf)
      (by rintro w rfl rfl - - -; rfl)
  | cbcdec alg klen =>
    exact decode_assemble 3 4 0 alg klen .k8 0 0 _ hzero hzero (FitsRow.cbcdec alg klen hwf)
      (by rintro w rfl rfl - - -; rfl)
  | pad1 alg blksz =>
    exact decode_assemble 4 5 1 alg .k8 .k8 0 blksz _ hzero hwf (FitsRow.pad1 alg blksz hwf)
      (by rintro w rfl - - - rfl; rfl)
  | pad2 alg blksz =>
    exact decode_assemble 5 5 2 alg .k8 .k8 0 blksz _ hzero hwf (FitsRow.pad2 alg blksz hwf)
      (by rintro w rfl - - - rfl; rfl)
  | pad3 alg blksz =>
    exact decode_assemble 6 5 3 alg .k8 .k8 0 blksz _ hzero hwf (FitsRow.pad3 alg blksz hwf)
      (by rintro w rfl - - - rfl; rfl)
  | cbcmac1 alg klen maclen =>
    exact decode_assemble 7 6 1 alg klen .k8 maclen 0 _ hwf hzero (FitsRow.cbcmac1 alg klen maclen hwf)
      (by rintro w rfl rfl - rfl -; rfl)
  | cbcmac2 alg klen maclen =>
    exact decode_assemble 8 6 2 alg klen .k8 maclen 0 _ hwf hzero (FitsRow.cbcmac2 alg klen maclen hwf)
      (by rintro w rfl rfl - rfl -; rfl)
  | cbcmac3 alg klen maclen =>
    exact decode_assemble 9 6 3 alg klen .k8 maclen 0 _ hwf hzero (FitsRow.cbcmac3 alg klen maclen hwf)
      (by rintro w rfl rfl - rfl -; rfl)
  | rmac1 klen klen2 maclen =>
    exact decode_assemble 10 7 1 .des klen klen2 maclen 0 _ hwf hzero (FitsRow.rmac1 klen klen2 maclen hwf)
      (by rintro w - rfl rfl rfl -; rfl)
  | rmac2 klen klen2 maclen =>
    exact decode_assemble 11 7 2 .des klen klen2 maclen 0 _ hwf hzero (FitsRow.rmac2 klen klen2 maclen hwf)
      (by rintro w - rfl rfl rfl -; rfl)
  | rmac3 klen klen2 maclen =>
    exact decode_assemble 12 7 3 .des klen klen2 maclen 0 _ hwf hzero (FitsRow.rmac3 klen klen2 maclen hwf)
      (by rintro w - rfl rfl rfl -; rfl)
  | cmacsk alg klen =>
    exact decode_assemble 13 8 0 alg klen .k8 0 0 _ hzero hzero (FitsRow.cmacsk alg klen hwf)
      (by rintro w rfl rfl - - -; rfl)

/-- Assembling undoes decoding: a word decodes only through a row it matches, and that row's command is assembled to
it. -/
theorem encode_of_decode (w : Word) (i : Instr) (h : decode w = .ok i) : i.wellFormed = true ∧ encode i = w := by
  obtain ⟨r, hr, hmatch, rfl⟩ := exists_row_of_decode w i h
  exact encode_build_of_match w r hr hmatch

end Sys2Proof.Laws

/-! The obligations on words and commands. -/

namespace Sys2Proof.EncodingProofs

open Sys2Proof.Machine Sys2Proof.Laws

/-- Settles O1: command by command, through the row of its mnemonic. -/
theorem decodeOfEncodeIsTheCommand : Obligations.DecodeOfEncodeIsTheCommand := decode_encode

/-- Settles O2: row by row of the opcode map. -/
theorem encodeOfDecodeIsTheWord : Obligations.EncodeOfDecodeIsTheWord := encode_of_decode

/-- Settles O4: two rows differ in a bit that both masks cover. -/
theorem opcodeRowsArePairwiseDisjoint : Obligations.OpcodeRowsArePairwiseDisjoint := opcodeMap_pairwise_disjoint

/-- Settles O5: each word is the word of its command. -/
theorem wordsOfTheSpecDecode : Obligations.WordsOfTheSpecDecode :=
  ⟨decode_encode (.ecbenc .des .k16) rfl, decode_encode (.cbcdec .des .k16) rfl,
    decode_encode (.cbcmac1 .des .k16 4) rfl, decode_encode (.cbcmac2 .aes .k32 0) rfl,
    decode_encode (.pad3 .des 0) rfl, decode_encode (.pad1 .aes 4) rfl,
    decode_encode (.rmac1 .k8 .k8 0) rfl, decode_encode (.cmacsk .aes .k16) rfl⟩

end Sys2Proof.EncodingProofs
end

section
/-! SUPPORT. Every command as its checks and its result: what the checks read, the code they report, the room a result
needs, and the frame of both endings (spec/60_exceptions.md rules R160, R161, R169 and R170, spec/20_memory.md rules R35
and R41). -/

namespace Sys2Proof.Machine

/-! ## The checks and the result of every command -/

/-- The checks of the padding commands, in the order of rule R95. -/
def padChecks (q : PadScheme) (n : Nat) (s : State) : List Check :=
  [checkILen s, checkPadLen q n s, checkOverflow (pad q (input s) n).length s]

/-- The checks of the CBC-MAC commands, in the order of rule R102. -/
def cbcmacChecks (q : PadScheme) (alg : Alg) (klen : KLen) (maclen : Nat) (s : State) : List Check :=
  [checkKeyLen alg klen, checkMacLen alg maclen, checkILen s, checkDataLen alg (pad q (input s) (blockSize alg)).length]

/-- The checks of the retail MAC commands, in the order of rule R108. -/
def rmacChecks (klen klen2 : KLen) (maclen : Nat) (s : State) : List Check :=
  [checkKeyLen .des klen, checkKeyLen .des klen2, checkMacLen .des maclen, checkILen s]

/-- The checks of a command, in their order (rule R169). -/
def checksOf (i : Instr) (s : State) : List Check :=
  match i with
  | .ecbenc alg klen => modeChecks alg klen s
  | .ecbdec alg klen => modeChecks alg klen s
  | .cbcenc alg klen => modeChecks alg klen s
  | .cbcdec alg klen => modeChecks alg klen s
  | .pad1 alg blksz => padChecks .iso1 (padSize alg blksz) s
  | .pad2 alg blksz => padChecks .iso2 (padSize alg blksz) s
  | .pad3 alg blksz => padChecks .iso3 (padSize alg blksz) s
  | .cbcmac1 alg klen maclen => cbcmacChecks .iso1 alg klen maclen s
  | .cbcmac2 alg klen maclen => cbcmacChecks .iso2 alg klen maclen s
  | .cbcmac3 alg klen maclen => cbcmacChecks .iso3 alg klen maclen s
  | .rmac1 klen klen2 maclen => rmacChecks klen klen2 maclen s
  | .rmac2 klen klen2 maclen => rmacChecks klen klen2 maclen s
  | .rmac3 klen klen2 maclen => rmacChecks klen klen2 maclen s
  | .cmacsk alg klen => [checkKeyLen alg klen]

/-- The result of a command whose checks pass (rule R161). -/
def resultOf (i : Instr) (s : State) : Bytes :=
  match i with
  | .ecbenc alg klen => ecbEnc alg (key1Operand klen s) (input s)
  | .ecbdec alg klen => ecbDec alg (key1Operand klen s) (input s)
  | .cbcenc alg klen => cbcEnc alg (key1Operand klen s) (ivOperand alg s) (input s)
  | .cbcdec alg klen => cbcDec alg (key1Operand klen s) (ivOperand alg s) (input s)
  | .pad1 alg blksz => pad .iso1 (input s) (padSize alg blksz)
  | .pad2 alg blksz => pad .iso2 (input s) (padSize alg blksz)
  | .pad3 alg blksz => pad .iso3 (input s) (padSize alg blksz)
  | .cbcmac1 alg klen maclen => cbcmac alg (key1Operand klen s) (input s) .iso1 (macLength alg maclen)
  | .cbcmac2 alg klen maclen => cbcmac alg (key1Operand klen s) (input s) .iso2 (macLength alg maclen)
  | .cbcmac3 alg klen maclen => cbcmac alg (key1Operand klen s) (input s) .iso3 (macLength alg maclen)
  | .rmac1 klen klen2 maclen =>
    retailmac (key1Operand klen s) (key2Operand klen2 s) (input s) .iso1 (macLength .des maclen)
  | .rmac2 klen klen2 maclen =>
    retailmac (key1Operand klen s) (key2Operand klen2 s) (input s) .iso2 (macLength .des maclen)
  | .rmac3 klen klen2 maclen =>
    retailmac (key1Operand klen s) (key2Operand klen2 s) (input s) .iso3 (macLength .des maclen)
  | .cmacsk alg klen => (cmacsk alg (key1Operand klen s)).1 ++ (cmacsk alg (key1Operand klen s)).2

/-- Every meaning is the command of these checks and this result. -/
theorem exec_eq (i : Instr) (s : State) : exec i s = .next (runCommand (checksOf i s) (resultOf i) s) := by
  cases i <;> rfl

/-- The four commands of the modes under one algorithm and key length (rule R84). -/
def modeInstrs (alg : Alg) (klen : KLen) : List Instr :=
  [.ecbenc alg klen, .ecbdec alg klen, .cbcenc alg klen, .cbcdec alg klen]

@[simp] theorem mem_modeInstrs_iff (alg : Alg) (klen : KLen) (i : Instr) :
    i ∈ modeInstrs alg klen ↔
      i = .ecbenc alg klen ∨ i = .ecbdec alg klen ∨ i = .cbcenc alg klen ∨ i = .cbcdec alg klen := by
  simp [modeInstrs]

theorem checksOf_mode (alg : Alg) (klen : KLen) (i : Instr) (s : State) (hi : i ∈ modeInstrs alg klen) :
    checksOf i s = modeChecks alg klen s := by
  rcases (mem_modeInstrs_iff alg klen i).mp hi with rfl | rfl | rfl | rfl <;> rfl

/-! ## What the checks and the results read -/

theorem length_pad1_congr {s s' : Bytes} (n : Nat) (h : s.length = s'.length) :
    (pad1 s n).length = (pad1 s' n).length := by
  unfold pad1
  rw [h]
  split_ifs <;> simp [h]

/-- The length of a padded string depends on the length of the string alone. -/
theorem length_pad_congr (q : PadScheme) {s s' : Bytes} (n : Nat) (h : s.length = s'.length) :
    (pad q s n).length = (pad q s' n).length := by
  cases q with
  | iso1 => exact length_pad1_congr n h
  | iso2 => exact length_pad1_congr n (by simp [h])
  | iso3 =>
    simp only [pad, length_pad3]
    rw [length_pad1_congr n h]

/-- The checks read ILEN and the parameters alone (rule R169). -/
theorem checksOf_congr (i : Instr) (s s' : State) (hilen : s.ilen = s'.ilen) (hparams : s.params = s'.params) :
    checksOf i s = checksOf i s' := by
  have hlen : (input s).length = (input s').length := by simp [hilen, hparams]
  have hpad := fun q n => length_pad_congr q n hlen
  cases i <;>
    simp only [checksOf, modeChecks, padChecks, cbcmacChecks, rmacChecks, checkILen, checkOverflow, checkPadLen, hpad,
      hilen, hparams]

theorem input_congr (s s' : State) (h : SameOperands s s') : input s' = input s := by
  unfold input
  rw [h.ilen, h.params]
  exact Memory.readBytes_congr _ _ _ _ fun a _ _ => h.ibuf a

/-- The result reads the operands alone (rule R41). -/
theorem resultOf_congr (i : Instr) (s s' : State) (h : SameOperands s s') : resultOf i s' = resultOf i s := by
  have hinput := input_congr s s' h
  cases i <;> simp only [resultOf, key1Operand, key2Operand, ivOperand, h.key1, h.key2, h.iv, hinput]

/-! ## The flags a command leaves -/

theorem err_runCommand (checks : List Check) (result : State → Bytes) (s : State) :
    statusErr (runCommand checks result s).status = (firstError checks).isSome := by
  unfold runCommand
  cases firstError checks <;> simp

theorem done_runCommand (checks : List Check) (result : State → Bytes) (s : State) :
    statusDone (runCommand checks result s).status = (firstError checks).isNone := by
  unfold runCommand
  cases firstError checks <;> simp

theorem errcode_runCommand_nil (result : State → Bytes) (s : State) :
    statusErrcode (runCommand [] result s).status = 0 :=
  errcode_runCommand [] result s

/-- A check that fails reports its code; one that passes leaves the report to the checks after it (rule R169). -/
theorem errcode_runCommand_cons (failed : Bool) (code : ErrCode) (rest : List Check) (result : State → Bytes)
    (s : State) :
    statusErrcode (runCommand ((failed, code) :: rest) result s).status
      = if failed = true then BitVec.ofNat 4 (errNumber code) else statusErrcode (runCommand rest result s).status := by
  cases failed <;> simp [errcode_runCommand]

/-! ## The code each kind of command reports -/

/-- The code of the four mode commands (rule R84). -/
theorem errcode_modeChecks (alg : Alg) (klen : KLen) (result : State → Bytes) (s : State) :
    statusErrcode (runCommand (modeChecks alg klen s) result s).status =
      if keyOK alg (klenBytes klen) = false then 2
      else if s.ilen.toNat > s.params.ibufBytes then 4
      else if s.ilen.toNat % blockSize alg ≠ 0 then 6
      else if s.ilen.toNat > s.params.obufBytes then 7
      else 0 := by
  simp only [modeChecks, checkKeyLen, checkILen, checkDataLen, checkOverflow, errcode_runCommand_cons,
    errcode_runCommand_nil, Bool.not_eq_true', decide_eq_true_eq, errNumber]
  rfl

/-- The length of a string of `len` bytes under each scheme (rule R94). -/
def padLength (q : PadScheme) (len n : Nat) : Nat :=
  match q with
  | .iso1 => pad1Length len n
  | .iso2 => (len / n + 1) * n
  | .iso3 => prefixBytes n + pad1Length len n

theorem length_pad (q : PadScheme) (s : Bytes) (n : Nat) (hn : 1 ≤ n) :
    (pad q s n).length = padLength q s.length n := by
  cases q with
  | iso1 => exact length_pad1 s n hn
  | iso2 => exact length_pad2 s n hn
  | iso3 => exact (length_pad3 s n).trans (congrArg _ (length_pad1 s n hn))

theorem length_input_of_le (s : State) (h : s.ilen.toNat ≤ s.params.ibufBytes) : (input s).length = s.ilen.toNat := by
  simpa using h

/-- The code of the padding commands (rule R95). -/
theorem errcode_padCommand (q : PadScheme) (n : Nat) (s : State) (hn : 1 ≤ n) :
    statusErrcode (padCommand q n s).status =
      if s.ilen.toNat > s.params.ibufBytes then 4
      else if q = .iso3 ∧ 8 * s.ilen.toNat ≥ 2 ^ (8 * prefixBytes n) then 5
      else if padLength q s.ilen.toNat n > s.params.obufBytes then 7
      else 0 := by
  simp only [padCommand, checkILen, checkPadLen, checkOverflow, errcode_runCommand_cons, errcode_runCommand_nil,
    decide_eq_true_eq, errNumber, length_pad q _ n hn]
  by_cases hilen : s.ilen.toNat > s.params.ibufBytes
  · rw [if_pos hilen, if_pos hilen]
    rfl
  · rw [length_input_of_le s (not_lt.mp hilen)]
    rfl

theorem macLength_gt_blockSize_iff (alg : Alg) (maclen : Nat) :
    macLength alg maclen > blockSize alg ↔ maclen > blockSize alg := by
  have hpos := blockSize_pos alg
  unfold macLength
  split_ifs <;> omega

theorem length_pad1_mod (s : Bytes) (n : Nat) (hn : 1 ≤ n) : (pad1 s n).length % n = 0 := by
  obtain ⟨k, hform, hwhole, -⟩ := pad1_form s n hn
  rw [hform, List.length_append, length_zeros, hwhole]

/-- For either family's blocks scheme 3 has 8 length bytes (rule R92). -/
theorem prefixBytes_blockSize (alg : Alg) : prefixBytes (blockSize alg) = 8 := by cases alg <;> rfl

/-- A string padded to the cipher's blocks is a whole number of them, except under scheme 3 with AES, whose length
bytes are half a block (rule R105). -/
theorem length_pad_mod_blockSize_ne_zero_iff (q : PadScheme) (alg : Alg) (s : Bytes) :
    (pad q s (blockSize alg)).length % blockSize alg ≠ 0 ↔ q = .iso3 ∧ alg = .aes := by
  cases q with
  | iso1 => simp [pad, length_pad1_mod s _ (blockSize_pos alg)]
  | iso2 => simp [pad, pad2, length_pad1_mod _ _ (blockSize_pos alg)]
  | iso3 =>
    have hwhole := length_pad1_mod s _ (blockSize_pos alg)
    rw [pad, length_pad3]
    cases alg with
    | des =>
      rw [prefixBytes_blockSize, blockSize] at *
      exact iff_of_false (by omega) (by simp)
    | aes =>
      rw [prefixBytes_blockSize, blockSize] at *
      exact iff_of_true (by omega) ⟨rfl, rfl⟩

/-- The code of the CBC-MAC commands (rule R102). -/
theorem errcode_cbcmacCommand (q : PadScheme) (alg : Alg) (klen : KLen) (maclen : Nat) (s : State) :
    statusErrcode (cbcmacCommand q alg klen maclen s).status =
      if keyOK alg (klenBytes klen) = false then 2
      else if maclen > blockSize alg then 3
      else if s.ilen.toNat > s.params.ibufBytes then 4
      else if q = .iso3 ∧ alg = .aes then 6
      else 0 := by
  simp only [cbcmacCommand, checkKeyLen, checkMacLen, checkILen, checkDataLen, errcode_runCommand_cons,
    errcode_runCommand_nil, Bool.not_eq_true', decide_eq_true_eq, errNumber, macLength_gt_blockSize_iff,
    length_pad_mod_blockSize_ne_zero_iff]
  rfl

theorem keyOK_des_klenBytes_eq_false_iff (klen : KLen) : keyOK .des (klenBytes klen) = false ↔ klen = .k32 := by
  cases klen <;> decide

/-- The code of the retail MAC commands (rule R108). -/
theorem errcode_rmacCommand (q : PadScheme) (klen klen2 : KLen) (maclen : Nat) (s : State) :
    statusErrcode (rmacCommand q klen klen2 maclen s).status =
      if klen = .k32 ∨ klen2 = .k32 then 2
      else if maclen > 8 then 3
      else if s.ilen.toNat > s.params.ibufBytes then 4
      else 0 := by
  simp only [rmacCommand, checkKeyLen, checkMacLen, checkILen, errcode_runCommand_cons, errcode_runCommand_nil,
    Bool.not_eq_true', decide_eq_true_eq, errNumber, macLength_gt_blockSize_iff, keyOK_des_klenBytes_eq_false_iff,
    ite_or]
  rfl

/-! ## The two endings -/

/-- ERR_ILLEGAL is no check's code: it belongs to words that name no command (rule R162). -/
theorem code_of_mem_checksOf_ne_illegal (i : Instr) (s : State) : ∀ c ∈ checksOf i s, c.2 ≠ .illegal := by
  cases i <;>
    simp [checksOf, modeChecks, padChecks, cbcmacChecks, rmacChecks, checkKeyLen, checkMacLen, checkILen, checkPadLen,
      checkDataLen, checkOverflow]

theorem toNat_errNumber (code : ErrCode) : (BitVec.ofNat 4 (errNumber code)).toNat = errNumber code := by
  cases code <;> rfl

theorem errNumber_bounds (code : ErrCode) (h : code ≠ .illegal) : 2 ≤ errNumber code ∧ errNumber code ≤ 7 := by
  cases code <;> simp_all [errNumber]

/-- Where the checks of a mode command pass, a result no longer than the input fits OBUF. -/
theorem length_le_obufBytes_of_modeChecks (alg : Alg) (klen : KLen) (s : State) (r : Bytes)
    (hpass : ∀ c ∈ modeChecks alg klen s, c.1 = false)
    (h : keyOK alg (key1Operand klen s).length = true → r.length ≤ (input s).length) :
    r.length ≤ s.params.obufBytes := by
  have hkey := keyOK_key1Operand alg klen s (hpass _ (by simp [modeChecks]))
  have hroom : s.ilen.toNat ≤ s.params.obufBytes := by
    simpa [checkOverflow] using hpass (checkOverflow s.ilen.toNat s) (by simp [modeChecks])
  exact (h hkey).trans ((length_input_le s).trans hroom)

/-- Where the checks of a padding command pass, the padded string fits OBUF. -/
theorem length_le_obufBytes_of_padChecks (q : PadScheme) (n : Nat) (s : State)
    (hpass : ∀ c ∈ padChecks q n s, c.1 = false) : (pad q (input s) n).length ≤ s.params.obufBytes := by
  simpa [checkOverflow] using hpass (checkOverflow (pad q (input s) n).length s) (by simp [padChecks])

/-- A MAC of a length its check lets through fits OBUF in every legal configuration. -/
theorem length_le_obufBytes_of_checkMacLen (alg : Alg) (maclen : Nat) (s : State) (r : Bytes) (hlegal : s.params.legal)
    (hpass : (checkMacLen alg maclen).1 = false) (h : r.length ≤ macLength alg maclen) :
    r.length ≤ s.params.obufBytes := by
  have hmac := macLength_le_16 alg maclen hpass
  obtain ⟨-, -, hobuf, -⟩ := hlegal
  omega

/-- Where the checks of a command pass, its result fits OBUF. -/
theorem length_resultOf_le (i : Instr) (s : State) (hlegal : s.params.legal)
    (hpass : ∀ c ∈ checksOf i s, c.1 = false) : (resultOf i s).length ≤ s.params.obufBytes := by
  cases i with
  | ecbenc alg klen => exact length_le_obufBytes_of_modeChecks alg klen s _ hpass fun hkey => length_ecbEnc_le hkey _
  | ecbdec alg klen => exact length_le_obufBytes_of_modeChecks alg klen s _ hpass fun hkey => length_ecbDec_le hkey _
  | cbcenc alg klen => exact length_le_obufBytes_of_modeChecks alg klen s _ hpass fun hkey => length_cbcEnc_le hkey _ _
  | cbcdec alg klen =>
    exact length_le_obufBytes_of_modeChecks alg klen s _ hpass fun hkey =>
      length_cbcDec_le hkey _ _ (length_ivOperand alg s)
  | pad1 alg blksz => exact length_le_obufBytes_of_padChecks .iso1 _ s hpass
  | pad2 alg blksz => exact length_le_obufBytes_of_padChecks .iso2 _ s hpass
  | pad3 alg blksz => exact length_le_obufBytes_of_padChecks .iso3 _ s hpass
  | cbcmac1 alg klen maclen | cbcmac2 alg klen maclen | cbcmac3 alg klen maclen =>
    exact length_le_obufBytes_of_checkMacLen alg maclen s _ hlegal (hpass _ (by simp [checksOf, cbcmacChecks]))
      (length_cbcmac_le _ _ _ _ _)
  | rmac1 klen klen2 maclen | rmac2 klen klen2 maclen | rmac3 klen klen2 maclen =>
    exact length_le_obufBytes_of_checkMacLen .des maclen s _ hlegal (hpass _ (by simp [checksOf, rmacChecks]))
      (length_retailmac_le _ _ _ _ _)
  | cmacsk alg klen =>
    have hkey := keyOK_key1Operand alg klen s (hpass _ (by simp [checksOf]))
    obtain ⟨hk1, hk2⟩ := length_cmacsk_le alg (key1Operand klen s) hkey
    obtain ⟨-, -, hobuf, -⟩ := hlegal
    rw [resultOf, List.length_append]
    omega

/-- In a legal configuration a command ends in a refusal with one of the codes 2 to 7, or in a success whose result fits
OBUF. -/
theorem exec_cases_of_legal (i : Instr) (s : State) (hlegal : s.params.legal) :
    (∃ code, code ≠ .illegal ∧ exec i s = .next (raiseCmdError code s))
    ∨ (∃ r, r.length ≤ s.params.obufBytes ∧ exec i s = .next (finish r s)) := by
  rw [exec_eq]
  rcases runCommand_cases (checksOf i s) (resultOf i) s with ⟨code, herror, e⟩ | ⟨hpass, e⟩ <;> rw [e]
  · exact .inl ⟨code, code_of_mem_checksOf_ne_illegal i s _ (firstError_mem _ code herror), rfl⟩
  · exact .inr ⟨_, length_resultOf_le i s hlegal ((firstError_eq_none _).mp hpass), rfl⟩

/-! ## The frame -/

theorem raiseCmdError_frame (code : ErrCode) (s : State) :
    OperandsKept s (raiseCmdError code s) ∧ OtherStatusKept s (raiseCmdError code s) :=
  ⟨(raiseCmdError_refusalOf code s).operands, (raiseCmdError_refusalOf code s).others⟩

theorem finish_frame (r : Bytes) (s : State) : OperandsKept s (finish r s) ∧ OtherStatusKept s (finish r s) :=
  ⟨by constructor <;> simp, by simp [OtherStatusKept]⟩

/-- No command writes an operand, ACCERR or a reserved bit. -/
theorem exec_frame (i : Instr) (s t : State) (h : exec i s = .next t) : OperandsKept s t ∧ OtherStatusKept s t := by
  rcases exec_cases i s with ⟨code, e⟩ | ⟨r, e⟩ <;> rw [e] at h <;> cases h
  · exact raiseCmdError_frame code s
  · exact finish_frame r s

theorem OperandsKept.sameOperands {s t : State} (h : OperandsKept s t) : SameOperands s t :=
  ⟨h.key1, h.key2, h.iv, h.ibuf, h.ilen, h.params⟩

/-! ## A command repeated -/

/-- Setting bits outside a mask twice is setting them once. -/
theorem and_or_and_or (st mask bits : Word) :
    (((st &&& mask) ||| bits) &&& mask) ||| bits = (st &&& mask) ||| bits := by
  refine BitVec.eq_of_getLsbD_eq fun i _ => ?_
  simp only [BitVec.getLsbD_or, BitVec.getLsbD_and]
  cases st.getLsbD i <;> cases mask.getLsbD i <;> simp

@[simp] theorem statusSuccess_statusSuccess (st : Word) : statusSuccess (statusSuccess st) = statusSuccess st :=
  and_or_and_or st _ _

@[simp] theorem statusRefusal_statusRefusal (code : ErrCode) (st : Word) :
    statusRefusal code (statusRefusal code st) = statusRefusal code st := by
  simp only [statusRefusal, BitVec.or_assoc, and_or_and_or]

theorem finish_finish (r : Bytes) (s : State) : finish r (finish r s) = finish r s := by
  simp [finish]

theorem raiseCmdError_raiseCmdError (code : ErrCode) (s : State) :
    raiseCmdError code (raiseCmdError code s) = raiseCmdError code s := by
  simp [raiseCmdError]

/-- Either ending writes OBUF, OLEN and the command's bits of STATUS from values that do not depend on them. -/
theorem runCommand_runCommand (checks : List Check) (result : State → Bytes) (s : State)
    (h : result (runCommand checks result s) = result s) :
    runCommand checks result (runCommand checks result s) = runCommand checks result s := by
  rcases runCommand_cases checks result s with ⟨code, herror, e⟩ | ⟨hpass, e⟩
  · rw [e, runCommand_of_error checks result _ code herror, raiseCmdError_raiseCmdError]
  · rw [e] at h
    rw [e, runCommand_of_pass checks result _ ((firstError_eq_none checks).mp hpass), h, finish_finish]

end Sys2Proof.Machine

/-! The obligations on the outcome and the frame of every command. -/

namespace Sys2Proof.CommandProofs

open Sys2Proof.Machine

/-- Settles O22: the four commands have the same checks. -/
theorem modeCommandsReportTheFirstError : Obligations.ModeCommandsReportTheFirstError := by
  intro alg klen s i hi
  refine ⟨_, exec_eq i s, ?_⟩
  rw [checksOf_mode alg klen i s hi, errcode_modeChecks]

/-- Settles O23: scheme by scheme; only scheme 3 has length bytes that can be too few. -/
theorem padCommandsReportTheFirstError : Obligations.PadCommandsReportTheFirstError := by
  intro alg blksz s
  have hn := padSize_pos alg blksz
  have hcode := fun q => errcode_padCommand q _ s hn
  refine ⟨⟨_, rfl, (hcode .iso1).trans ?_⟩, ⟨_, rfl, (hcode .iso2).trans ?_⟩, ⟨_, rfl, (hcode .iso3).trans ?_⟩⟩
  all_goals
    simp only [reduceCtorEq, false_and, true_and, if_false]
    rfl

/-- Settles O24: only scheme 3 with AES leaves a part of a block. -/
theorem cbcmacCommandsReportTheFirstError : Obligations.CbcmacCommandsReportTheFirstError := by
  intro alg klen maclen s i hi
  have hcode := fun q => errcode_cbcmacCommand q alg klen maclen s
  simp only [List.mem_cons, List.not_mem_nil, or_false] at hi
  rcases hi with rfl | rfl | rfl
  · exact ⟨_, rfl, by simpa using hcode .iso1⟩
  · exact ⟨_, rfl, by simpa using hcode .iso2⟩
  · exact ⟨_, rfl, by simpa using hcode .iso3⟩

/-- Settles O25: the three commands have the same checks. -/
theorem retailMacCommandsReportTheFirstError : Obligations.RetailMacCommandsReportTheFirstError := by
  intro klen klen2 maclen s i hi
  simp only [List.mem_cons, List.not_mem_nil, or_false] at hi
  rcases hi with rfl | rfl | rfl <;> exact ⟨_, rfl, errcode_rmacCommand _ klen klen2 maclen s⟩

/-- Settles O26: CMACSK has one check. -/
theorem cmacskReportsOnlyTheKeyLength : Obligations.CmacskReportsOnlyTheKeyLength := by
  intro alg klen s
  refine ⟨_, rfl, ?_⟩
  rw [checkKeyLen, errcode_runCommand_cons, errcode_runCommand_nil]
  simp only [Bool.not_eq_true']
  rfl

/-- Settles O28: a refusal has the code of one of the command's checks, a success a result that its checks let
through. -/
theorem everyCommandSucceedsOrIsRefused : Obligations.EveryCommandSucceedsOrIsRefused := by
  intro i s hlegal
  rcases exec_cases_of_legal i s hlegal with ⟨code, hcode, e⟩ | ⟨r, hroom, e⟩
  · obtain ⟨hlo, hhi⟩ := errNumber_bounds code hcode
    exact ⟨_, e, .inr ⟨_, by rwa [toNat_errNumber], by rwa [toNat_errNumber], raiseCmdError_refusalOf code s⟩⟩
  · obtain ⟨-, -, -, hobuf⟩ := hlegal
    have hsuccess := finish_successOf r s (by omega)
    exact ⟨_, e, .inl ⟨⟨_, hroom, hsuccess⟩, hsuccess.err⟩⟩

/-- Settles O29: both endings keep the operands. -/
theorem commandsKeepTheirOperands : Obligations.CommandsKeepTheirOperands := exec_frame

/-- Settles O32: the checks read ILEN and the parameters alone. -/
theorem refusalDependsOnNoSecret : Obligations.RefusalDependsOnNoSecret := by
  intro i s s' hilen hparams
  have hchecks := checksOf_congr i s s' hilen hparams
  refine ⟨_, _, exec_eq i s, exec_eq i s', ?_, ?_⟩
  · rw [err_runCommand, err_runCommand, hchecks]
  · rw [errcode_runCommand, errcode_runCommand, hchecks]

/-- Settles O33: the checks and the result read the operands alone. -/
theorem outcomeDependsOnTheOperandsAlone : Obligations.OutcomeDependsOnTheOperandsAlone := by
  intro i s s' h
  have hchecks := checksOf_congr i s' s h.ilen h.params
  have hresult := resultOf_congr i s s' h
  refine ⟨_, _, exec_eq i s, exec_eq i s', ?_, ?_, ?_, ?_, ?_⟩
  case refine_1 | refine_2 =>
    rw [hchecks]
    rcases runCommand_cases (checksOf i s) (resultOf i) s with ⟨code, herror, e⟩ | ⟨hpass, e⟩
    · rw [e, runCommand_of_error _ _ s' code herror]
      rfl
    · rw [e, runCommand_of_pass _ _ s' ((firstError_eq_none _).mp hpass), hresult]
      rfl
  · rw [done_runCommand, done_runCommand, hchecks]
  · rw [err_runCommand, err_runCommand, hchecks]
  · rw [errcode_runCommand, errcode_runCommand, hchecks]

/-- Settles O34: the command finds the same operands again, and either ending repeated is itself. -/
theorem repeatedCommandChangesNothing : Obligations.RepeatedCommandChangesNothing := by
  intro i s t h
  obtain ⟨hkept, -⟩ := exec_frame i s t h
  rw [exec_eq] at h ⊢
  obtain rfl := Host.Outcome.next.inj h
  rw [checksOf_congr i _ s hkept.ilen hkept.params,
    runCommand_runCommand _ _ s (resultOf_congr i s _ hkept.sameOperands)]

end Sys2Proof.CommandProofs
end

section
/-! SUPPORT. The step: what each event does to the script and to STATUS, the accesses the host port accepts, byte by
byte, and that no step leaves the window's events without a next state (spec/20_memory.md rules R30 to R38,
spec/10_state.md rules R11 to R17). -/

namespace Sys2Proof.Machine

/-! ## Every event in the window answers a next state -/

theorem eventInWindow_eq_false_iff (e : HostEvent) :
    eventInWindow e = false ↔ ∃ off, eventOffset e = some off ∧ 0x30000 ≤ off := by
  unfold eventInWindow windowBytes
  cases eventOffset e <;> simp

theorem writeWord_next (off : Nat) (v : Word) (s : State) : ∃ t, writeWord off v s = .next t := by
  rcases writeWord_cases off v s with ⟨-, e⟩ | ⟨-, e⟩ | ⟨-, e⟩ | ⟨-, -, -, e⟩
  · rcases issueCommand_next v s with ⟨code, e'⟩ | ⟨r, e'⟩ <;> exact ⟨_, e.trans e'⟩
  all_goals exact ⟨_, e⟩

theorem performEvent_next (e : HostEvent) (s : State) : ∃ t, performEvent e s = .next t := by
  rcases performEvent_cases e s with
    ⟨v, h⟩ | h | ⟨off, v, -, h⟩ | ⟨off, v, -, h⟩ | ⟨off, -, h⟩ | ⟨-, h⟩
  case inr.inr.inl =>
    rw [h]
    exact writeWord_next off v s
  all_goals exact ⟨_, h⟩

theorem step_of_outside (s : State) (e : HostEvent) (rest : List HostEvent) (h : s.script = e :: rest)
    (hw : eventInWindow e = false) : step s = .fault .outsideWindow := by
  rw [step_of_event s e rest h, hostEvent_of_outside e _ hw]

/-! ## The events still to come -/

theorem issueCommand_keeps_script (w : Word) (s t : State) (h : issueCommand w s = .next t) : t.script = s.script := by
  rcases issueCommand_next w s with ⟨code, e⟩ | ⟨r, e⟩ <;> rw [e] at h <;> cases h <;> rfl

theorem writeWord_keeps_script (off : Nat) (v : Word) (s t : State) (h : writeWord off v s = .next t) :
    t.script = s.script := by
  rcases writeWord_cases off v s with ⟨-, e⟩ | ⟨-, e⟩ | ⟨-, e⟩ | ⟨-, -, -, e⟩ <;> rw [e] at h
  · exact issueCommand_keeps_script v s t h
  all_goals
    cases h
    rfl

@[simp] theorem writeByte_script (off : Nat) (v : Byte) (s : State) : (writeByte off v s).script = s.script := by
  rcases writeByte_cases off v s with ⟨i, -, -, e⟩ | ⟨i, -, -, e⟩ | ⟨i, -, -, e⟩ | ⟨i, -, -, e⟩ | e <;> rw [e]
  exact refuseAccess_script s

theorem performEvent_keeps_script (ev : HostEvent) (s t : State) (h : performEvent ev s = .next t) :
    t.script = s.script := by
  rcases performEvent_cases ev s with
    ⟨v, e⟩ | e | ⟨off, v, -, e⟩ | ⟨off, v, -, e⟩ | ⟨off, -, e⟩ | ⟨-, e⟩ <;> rw [e] at h
  case inr.inr.inl => exact writeWord_keeps_script off v s t h
  all_goals
    cases h
    simp

/-- Where the events to come lie in the window, a step answers a next state of which this is true again. -/
theorem step_in_window (s : State) (h : ScriptInWindow s) : ∃ t, step s = .next t ∧ ScriptInWindow t := by
  cases hs : s.script with
  | nil => exact ⟨s, step_of_idle s hs, h⟩
  | cons e rest =>
    obtain ⟨he, hrest⟩ : eventInWindow e = true ∧ ∀ e ∈ rest, eventInWindow e = true := by
      simpa [ScriptInWindow, hs] using h
    obtain ⟨t, ht⟩ := performEvent_next e { s with script := rest }
    have hscript : t.script = rest := performEvent_keeps_script e _ t ht
    refine ⟨t, (step_of_event_inWindow s e rest hs he).trans ht, ?_⟩
    rwa [ScriptInWindow, hscript]

theorem run_succ_of_next (k : Nat) (s t : State) (h : step s = .next t) :
    Sys2Proof.core.run (k + 1) s = Sys2Proof.core.run k t := by
  have hcore : Sys2Proof.core.step s = .next t := h
  simp only [Host.Core.run, hcore]

theorem runsSafely_of_scriptInWindow (k : Nat) (s : State) (h : ScriptInWindow s) : RunsSafely k s := by
  induction k generalizing s with
  | zero => exact ⟨s, rfl⟩
  | succ k ih =>
    obtain ⟨t, hstep, ht⟩ := step_in_window s h
    obtain ⟨u, hu⟩ := ih t ht
    exact ⟨u, (run_succ_of_next k s t hstep).trans hu⟩

/-! ## What each event does to STATUS -/

theorem issueCommand_status (w : Word) (s t : State) (h : issueCommand w s = .next t) :
    t.status = statusSuccess s.status ∨ ∃ code, t.status = statusRefusal code s.status := by
  rcases issueCommand_next w s with ⟨code, e⟩ | ⟨r, e⟩ <;> rw [e] at h <;> cases h
  · exact .inr ⟨code, raiseCmdError_status code s⟩
  · exact .inl (finish_status r s)

theorem writeByte_status (off : Nat) (v : Byte) (s : State) :
    (writeByte off v s).status = s.status ∨ (writeByte off v s).status = statusAccessRefused s.status := by
  rcases writeByte_cases off v s with ⟨i, -, -, e⟩ | ⟨i, -, -, e⟩ | ⟨i, -, -, e⟩ | ⟨i, -, -, e⟩ | e <;> rw [e]
  case inr.inr.inr.inr => exact .inr (refuseAccess_status s)
  all_goals exact .inl rfl

/-- A read answers a value or is refused. -/
theorem performEvent_of_isRead (ev : HostEvent) (s : State) (h : isRead ev = true) :
    (∃ v, performEvent ev s = .next (answerRead v s)) ∨ performEvent ev s = .next (refuseRead s) := by
  rcases performEvent_cases ev s with
    hanswer | hrefuse | ⟨off, v, rfl, -⟩ | ⟨off, v, rfl, -⟩ | ⟨off, rfl, -⟩ | ⟨rfl, -⟩
  · exact .inl hanswer
  · exact .inr hrefuse
  all_goals cases h

theorem status_of_isRead (ev : HostEvent) (s t : State) (hread : isRead ev = true) (h : performEvent ev s = .next t) :
    t.status = s.status ∨ t.status = statusAccessRefused s.status := by
  rcases performEvent_of_isRead ev s hread with ⟨v, e⟩ | e <;> rw [e] at h <;> cases h
  · exact .inl (answerRead_status v s)
  · exact .inr (refuseRead_status s)

/-- STATUS after an event: a write to CMD leaves a success or a refusal, a write to STATUS clears the bits it names, the
reset event leaves 0, and every other event leaves STATUS alone or sets ACCERR (rules R16 and R17). -/
theorem performEvent_status (ev : HostEvent) (s t : State) (h : performEvent ev s = .next t) :
    (∃ w, ev = .write32 0x00000 w
      ∧ (t.status = statusSuccess s.status ∨ ∃ code, t.status = statusRefusal code s.status))
    ∨ (∃ v, ev = .write32 0x00004 v ∧ t.status = statusWrite v s.status)
    ∨ (ev = .reset ∧ t.status = 0)
    ∨ ((∀ v, ev ≠ .write32 0x00000 v ∧ ev ≠ .write32 0x00004 v) ∧ ev ≠ .reset
      ∧ (t.status = s.status ∨ t.status = statusAccessRefused s.status)) := by
  cases ev with
  | read32 off | read8 off | readOther off =>
    exact .inr (.inr (.inr ⟨by simp, by simp, status_of_isRead _ s t rfl h⟩))
  | write32 off v =>
    rcases writeWord_cases off v s with ⟨rfl, e⟩ | ⟨rfl, e⟩ | ⟨rfl, e⟩ | ⟨hcmd, hstatus, -, e⟩
    · exact .inl ⟨v, rfl, issueCommand_status v s t (e.symm.trans h)⟩
    all_goals obtain rfl := Host.Outcome.next.inj (e.symm.trans h)
    · exact .inr (.inl ⟨v, rfl, rfl⟩)
    · exact .inr (.inr (.inr ⟨by simp, by simp, .inl rfl⟩))
    · exact .inr (.inr (.inr ⟨by simp [hcmd, hstatus], by simp, .inr rfl⟩))
  | write8 off v =>
    obtain rfl := Host.Outcome.next.inj h
    exact .inr (.inr (.inr ⟨by simp, by simp, writeByte_status off v s⟩))
  | writeOther off =>
    obtain rfl := Host.Outcome.next.inj h
    exact .inr (.inr (.inr ⟨by simp, by simp, .inr rfl⟩))
  | reset =>
    obtain rfl := Host.Outcome.next.inj h
    exact .inr (.inr (.inl ⟨rfl, rfl⟩))

/-- STICKY after an event: set by a refused command, cleared by a write of STATUS with bit 8 set and by the reset event,
otherwise kept (rules R16, R17 and R171). -/
def stickyAfter (ev : HostEvent) (s t : State) : Bool :=
  match ev with
  | .reset => false
  | .write32 off v =>
    if off = 0x00000 then statusSticky s.status || statusErr t.status
    else if off = 0x00004 then statusSticky s.status && !v.getLsbD 8
    else statusSticky s.status
  | .read32 _ | .read8 _ | .write8 _ _ | .readOther _ | .writeOther _ => statusSticky s.status

/-- Any event but a write to CMD or STATUS and the reset event keeps STICKY. -/
theorem stickyAfter_of_other (ev : HostEvent) (s t : State)
    (hwrite : ∀ v, ev ≠ .write32 0x00000 v ∧ ev ≠ .write32 0x00004 v) (hreset : ev ≠ .reset) :
    stickyAfter ev s t = statusSticky s.status := by
  cases ev with
  | write32 off v =>
    obtain ⟨hcmd, hstatus⟩ := hwrite v
    simp only [ne_eq, HostEvent.write32.injEq, and_true] at hcmd hstatus
    simp only [stickyAfter, hcmd, hstatus, if_false]
  | reset => exact absurd rfl hreset
  | _ => rfl

theorem performEvent_sticky (ev : HostEvent) (s t : State) (h : performEvent ev s = .next t) :
    statusSticky t.status = stickyAfter ev s t := by
  rcases performEvent_status ev s t h with
    ⟨w, rfl, e | ⟨code, e⟩⟩ | ⟨v, rfl, e⟩ | ⟨rfl, e⟩ | ⟨hwrite, hreset, e | e⟩
  · simp [stickyAfter, e]
  · simp [stickyAfter, e]
  · simp [stickyAfter, e]
  · simp [stickyAfter, e, statusSticky]
  · rw [stickyAfter_of_other ev s t hwrite hreset, e]
  · rw [stickyAfter_of_other ev s t hwrite hreset, e, statusSticky_accessRefused]

/-- An event after which ERR is set and STICKY is not was a write of STATUS that clears STICKY, or found STATUS so. -/
theorem performEvent_err_without_sticky (ev : HostEvent) (s t : State) (h : performEvent ev s = .next t)
    (herr : statusErr t.status = true) (hsticky : statusSticky t.status = false) :
    (∃ v : Word, ev = .write32 0x00004 v ∧ v.getLsbD 8 = true)
    ∨ (statusErr s.status = true ∧ statusSticky s.status = false) := by
  rcases performEvent_status ev s t h with
    ⟨w, -, e | ⟨code, e⟩⟩ | ⟨v, rfl, e⟩ | ⟨-, e⟩ | ⟨-, -, e | e⟩ <;> rw [e] at herr hsticky
  · simp at herr
  · simp at hsticky
  · rw [statusErr_write] at herr
    cases hv : v.getLsbD 8 with
    | true => exact .inl ⟨v, rfl, hv⟩
    | false => exact .inr ⟨herr, by rwa [statusSticky_write, hv, Bool.not_false, Bool.and_true] at hsticky⟩
  · simp [statusErr] at herr
  · exact .inr ⟨herr, hsticky⟩
  · exact .inr ⟨by simpa using herr, by simpa using hsticky⟩

/-! ## A write of STATUS, bit by bit -/

theorem getLsbD_stickyBits (i : Nat) (h : i < 32) : (0x00000300 : Word).getLsbD i = decide (i = 8 ∨ i = 9) := by
  interval_cases i <;> rfl

theorem getLsbD_statusWrite (v st : Word) (i : Nat) (h : i < 32) :
    (st &&& ~~~(v &&& 0x00000300)).getLsbD i
      = if i = 8 ∨ i = 9 then (st.getLsbD i && !v.getLsbD i) else st.getLsbD i := by
  rw [BitVec.getLsbD_and, BitVec.getLsbD_not, BitVec.getLsbD_and, getLsbD_stickyBits i h]
  by_cases hi : i = 8 ∨ i = 9 <;> simp [h, hi]

/-! ## The places of the byte regions -/

section
variable (p : Params) (i : Nat)

theorem bytePlace_key1 (h : i < 32) : bytePlace p (0x40 + i) = .key1 i := by
  rw [bytePlace, if_pos (by omega)]
  exact congrArg _ (Nat.add_sub_cancel_left _ _)

theorem bytePlace_key2 (h : i < 32) : bytePlace p (0x60 + i) = .key2 i := by
  rw [bytePlace, if_neg (by omega), if_pos (by omega)]
  exact congrArg _ (Nat.add_sub_cancel_left _ _)

theorem bytePlace_iv (h : i < 16) : bytePlace p (0x80 + i) = .iv i := by
  rw [bytePlace, if_neg (by omega), if_neg (by omega), if_pos (by omega)]
  exact congrArg _ (Nat.add_sub_cancel_left _ _)

theorem bytePlace_ibuf (h : i < p.ibufBytes) : bytePlace p (0x10000 + i) = .ibuf i := by
  rw [bytePlace, if_neg (by omega), if_neg (by omega), if_neg (by omega), if_pos (by omega)]
  exact congrArg _ (Nat.add_sub_cancel_left _ _)

theorem bytePlace_obuf (hlegal : p.legal) (h : i < p.obufBytes) : bytePlace p (0x20000 + i) = .obuf i := by
  obtain ⟨-, hibuf, -, -⟩ := hlegal
  rw [bytePlace, if_neg (by omega), if_neg (by omega), if_neg (by omega), if_neg (by omega), if_pos (by omega)]
  exact congrArg _ (Nat.add_sub_cancel_left _ _)

end

/-! ## 8-bit accesses -/

theorem readByte_iv (s : State) (i : Fin 16) : readByte (0x80 + i.val) s = some s.iv[i] := by
  simp [readByte, bytePlace_iv _ _ i.isLt]

theorem readByte_ibuf (s : State) (a : Nat) (h : a < s.params.ibufBytes) :
    readByte (0x10000 + a) s = some (s.ibuf.read a) := by
  rw [readByte, bytePlace_ibuf _ a h]

theorem readByte_obuf (s : State) (a : Nat) (hlegal : s.params.legal) (h : a < s.params.obufBytes) :
    readByte (0x20000 + a) s = some (s.obuf.read a) := by
  rw [readByte, bytePlace_obuf _ a hlegal h]

theorem writeByte_key1 (v : Byte) (s : State) (i : Fin 32) :
    writeByte (0x40 + i.val) v s = { s with key1 := s.key1.setIfInBounds i v } := by
  rw [writeByte, bytePlace_key1 _ _ i.isLt]

theorem writeByte_key2 (v : Byte) (s : State) (i : Fin 32) :
    writeByte (0x60 + i.val) v s = { s with key2 := s.key2.setIfInBounds i v } := by
  rw [writeByte, bytePlace_key2 _ _ i.isLt]

theorem writeByte_iv (v : Byte) (s : State) (i : Fin 16) :
    writeByte (0x80 + i.val) v s = { s with iv := s.iv.setIfInBounds i v } := by
  rw [writeByte, bytePlace_iv _ _ i.isLt]

theorem writeByte_ibuf (v : Byte) (s : State) (a : Nat) (h : a < s.params.ibufBytes) :
    writeByte (0x10000 + a) v s = { s with ibuf := s.ibuf.write a v } := by
  rw [writeByte, bytePlace_ibuf _ a h]

/-- A pending 8-bit write within the window is taken from the script, and `writeByte` is all it does. -/
theorem step_write8 (s : State) (off : Nat) (v : Byte) (rest : List HostEvent) (h : s.script = .write8 off v :: rest)
    (hw : off < windowBytes) : step s = .next (writeByte off v { s with script := rest }) :=
  step_of_event_inWindow s _ rest h (by simpa [eventInWindow, eventOffset] using hw)

/-- A byte register after one of its bytes is written. -/
theorem getElem_setIfInBounds_fin {n : Nat} (r : Vector Byte n) (i j : Fin n) (v : Byte) :
    (r.setIfInBounds i v)[j] = if j = i then v else r[j] := by
  simp [Vector.getElem_setIfInBounds, Fin.ext_iff, eq_comm]

end Sys2Proof.Machine

/-! The obligations on the step and the host port. -/

namespace Sys2Proof.HostPortProofs

open Sys2Proof.Machine

/-- Settles O6: the port decodes the word and runs the command. -/
theorem stepRunsTheWrittenCommand : Obligations.StepRunsTheWrittenCommand := by
  intro s w rest i h hdecode
  rw [step_write32 s 0x00000 w rest h (by decide), writeWord_cmd, issueCommand, hdecode]

/-- Settles O8: an event in the window answers a next state, and every other one is an access past its end. -/
theorem stepStopsOnlyOutsideTheWindow : Obligations.StepStopsOnlyOutsideTheWindow := by
  refine ⟨fun s => ?_, fun s e rest off h hoff hpast =>
    step_of_outside s e rest h ((eventInWindow_eq_false_iff e).mpr ⟨off, hoff, hpast⟩)⟩
  cases hs : s.script with
  | nil => exact .inl ⟨s, step_of_idle s hs⟩
  | cons e rest =>
    cases hw : eventInWindow e with
    | true =>
      obtain ⟨t, ht⟩ := performEvent_next e { s with script := rest }
      exact .inl ⟨t, (step_of_event_inWindow s e rest hs hw).trans ht⟩
    | false =>
      obtain ⟨off, hoff, hpast⟩ := (eventInWindow_eq_false_iff e).mp hw
      exact .inr ⟨step_of_outside s e rest hs hw, e, rest, off, rfl, hoff, hpast⟩

/-- Settles O9, by induction on the length of the run. -/
theorem runsInTheWindowAreSafe : Obligations.RunsInTheWindowAreSafe := runsSafely_of_scriptInWindow

/-- Settles O44: one case per register, and every other offset is a refused read. -/
theorem wordReads : Obligations.WordReads := by
  intro s off rest hw h
  split_ifs with hcmd hstatus hilen holen hibufsz hobufsz
  case neg =>
    exact step_of_refused s _ rest h (decide_eq_true hw)
      (by simp [accessRefused, hcmd, hstatus, hilen, holen, hibufsz, hobufsz])
  all_goals
    subst off
    exact step_read32_accepted s _ _ rest h hw rfl

/-- Settles O46: region by region. -/
theorem byteReads : Obligations.ByteReads := by
  intro s rest hlegal
  have ⟨_, hibuf, _, hobuf⟩ := hlegal
  have hwindow : windowBytes = 0x30000 := rfl
  refine ⟨fun off hlo hhi h => ?_, fun i h => ?_, fun a ha h => ?_, fun a ha h => ?_⟩
  · exact step_read8_accepted s off 0 rest h (by omega) (readByte_of_key off s hlo hhi)
  · exact step_read8_accepted s _ _ rest h (by omega) (readByte_iv s i)
  · exact step_read8_accepted s _ _ rest h (by omega) (readByte_ibuf s a ha)
  · exact step_read8_accepted s _ _ rest h (by omega) (readByte_obuf s a hlegal ha)

/-- Settles O47: register by register. -/
theorem keyAndIVByteWrites : Obligations.KeyAndIVByteWrites := by
  intro s v rest
  have hwindow : windowBytes = 0x30000 := rfl
  refine ⟨fun i h => ⟨_, ?_, fun j => getElem_setIfInBounds_fin s.key1 i j v⟩,
    fun i h => ⟨_, ?_, fun j => getElem_setIfInBounds_fin s.key2 i j v⟩,
    fun i h => ⟨_, ?_, fun j => getElem_setIfInBounds_fin s.iv i j v⟩⟩
  all_goals rw [step_write8 s _ v rest h (by omega)]
  · rw [writeByte_key1]
  · rw [writeByte_key2]
  · rw [writeByte_iv]

/-- Settles O48: what is read after a write of a buffer in canonical form. -/
theorem inputBufferByteWrite : Obligations.InputBufferByteWrite := by
  intro s a v rest hwf ⟨_, hibuf, _⟩ ha h
  have hw : 0x10000 + a < windowBytes := by
    unfold windowBytes
    omega
  refine ⟨s.ibuf.write a v, ?_, ?_, fun b hb => ?_⟩
  · rw [step_write8 s _ v rest h hw, writeByte_ibuf v { s with script := rest } a ha]
  · rw [Memory.read_write s.ibuf a v a hwf, if_pos rfl]
  · rw [Memory.read_write s.ibuf a v b hwf, if_neg hb]

/-- Settles O50: event by event, through the effect of each on STATUS. -/
theorem stickyTracksRefusedCommands : Obligations.StickyTracksRefusedCommands := by
  intro s t e rest hs h
  rcases step_next_cases s t h with ⟨hidle, -⟩ | ⟨e', rest', hs', -, hperf⟩
  · cases hidle.symm.trans hs
  · cases hs'.symm.trans hs
    have hsticky := performEvent_sticky e _ t hperf
    cases e <;> exact hsticky

/-- Settles O51: the two bits of the mask, and every other bit. -/
theorem statusWriteClearsOnlyTheStickyBits : Obligations.StatusWriteClearsOnlyTheStickyBits := by
  intro s v rest h
  refine ⟨_, ?_, fun i hi => getLsbD_statusWrite v s.status i hi⟩
  rw [step_write32 s 0x00004 v rest h (by decide), writeWord_status]

/-- Settles O58: an idle step changes nothing, and an event that leaves ERR without STICKY is one of the two. -/
theorem errImpliesStickyUntilTheHostClearsIt : Obligations.ErrImpliesStickyUntilTheHostClearsIt := by
  intro s t h herr hsticky
  rcases step_next_cases s t h with ⟨-, rfl⟩ | ⟨e, rest, hs, -, hperf⟩
  · exact .inr ⟨herr, hsticky⟩
  · rcases performEvent_err_without_sticky e _ t hperf herr hsticky with ⟨v, rfl, hv⟩ | hbefore
    · exact .inl ⟨v, rest, hs, hv⟩
    · exact .inr hbefore

end Sys2Proof.HostPortProofs
end

section
/-! SUPPORT. The invariant of spec/10_state.md rule R23: it holds after reset, and every event keeps it. -/

namespace Sys2Proof.Machine

/-- The state after reset meets the invariant: both buffers are empty and STATUS is 0 (rules R19 and R181). -/
theorem engineInv_resetFor (p : Params) (h : p.legal) : EngineInv (State.resetFor p) where
  params_legal := h
  ibuf_wf := rfl
  ibuf_within := rfl
  obuf_wf := rfl
  olen_le := Nat.zero_le _
  obuf_within_olen := rfl
  reserved_zero := (by decide : (0 : Word) &&& reservedBits = 0)
  not_done_and_err := (by decide : ¬(statusDone 0 = true ∧ statusErr 0 = true))
  err_iff_code := (by decide : statusErr 0 = true ↔ statusErrcode 0 ≠ 0)
  err_no_result _ := rfl
  code_assigned := (by decide : (statusErrcode 0).toNat ≤ 7)

theorem legal_reference : Params.reference.legal := by decide

/-- The invariant speaks of the parameters, the buffers, OLEN and the bits of STATUS but for STICKY and ACCERR: a state
that agrees on these meets it too. -/
theorem EngineInv.of_agree {s t : State} (h : EngineInv s) (hparams : t.params = s.params) (hibuf : t.ibuf = s.ibuf)
    (hobuf : t.obuf = s.obuf) (holen : t.olen = s.olen) (hdone : statusDone t.status = statusDone s.status)
    (herr : statusErr t.status = statusErr s.status) (hcode : statusErrcode t.status = statusErrcode s.status)
    (hreserved : t.status &&& reservedBits = s.status &&& reservedBits) : EngineInv t where
  params_legal := hparams ▸ h.params_legal
  ibuf_wf := hibuf ▸ h.ibuf_wf
  ibuf_within := by rw [hibuf, hparams, h.ibuf_within]
  obuf_wf := hobuf ▸ h.obuf_wf
  olen_le := by rw [holen, hparams]; exact h.olen_le
  obuf_within_olen := by rw [hobuf, holen, h.obuf_within_olen]
  reserved_zero := hreserved.trans h.reserved_zero
  not_done_and_err := by rw [hdone, herr]; exact h.not_done_and_err
  err_iff_code := by rw [herr, hcode]; exact h.err_iff_code
  err_no_result := by rw [herr, holen]; exact h.err_no_result
  code_assigned := by rw [hcode]; exact h.code_assigned

/-- A refusal keeps the invariant: no result, and ERR with a code of 1 to 7. -/
theorem engineInv_raiseCmdError (code : ErrCode) (s : State) (h : EngineInv s) : EngineInv (raiseCmdError code s) where
  params_legal := h.params_legal
  ibuf_wf := h.ibuf_wf
  ibuf_within := h.ibuf_within
  obuf_wf := rfl
  olen_le := Nat.zero_le _
  obuf_within_olen := rfl
  reserved_zero := by simp [h.reserved_zero]
  not_done_and_err := by simp
  err_iff_code := by cases code <;> simp [errNumber]
  err_no_result _ := rfl
  code_assigned := by cases code <;> simp [errNumber]

/-- A success whose result fits OBUF keeps the invariant: the bytes listed lie below OLEN, and no error is left. -/
theorem engineInv_finish (r : Bytes) (s : State) (h : EngineInv s) (hroom : r.length ≤ s.params.obufBytes) :
    EngineInv (finish r s) := by
  have holen : (finish r s).olen.toNat = r.length := by
    obtain ⟨-, -, -, hobuf⟩ := h.params_legal
    exact (finish_successOf r s (by omega)).olen
  exact {
    params_legal := h.params_legal
    ibuf_wf := h.ibuf_wf
    ibuf_within := h.ibuf_within
    obuf_wf := Memory.ofBytes_wf r
    olen_le := holen.trans_le hroom
    obuf_within_olen := by rw [holen, finish_obuf, Memory.ofBytes_within]
    reserved_zero := by simp [h.reserved_zero]
    not_done_and_err := by simp
    err_iff_code := by simp
    err_no_result := by simp
    code_assigned := by simp }

theorem engineInv_refuseAccess (s : State) (h : EngineInv s) : EngineInv (refuseAccess s) :=
  h.of_agree rfl rfl rfl rfl (by simp) (by simp) (by simp) (by simp)

theorem engineInv_answerRead (v : Word) (s : State) (h : EngineInv s) : EngineInv (answerRead v s) :=
  h.of_agree rfl rfl rfl rfl rfl rfl rfl rfl

/-- A write of an IBUF byte within the capacity keeps the buffer's canonical form and its bound. -/
theorem engineInv_write_ibuf (s : State) (a : Nat) (v : Byte) (h : EngineInv s) (ha : a < s.params.ibufBytes) :
    EngineInv { s with ibuf := s.ibuf.write a v } :=
  { h with
    ibuf_wf := Memory.write_wf s.ibuf a v h.ibuf_wf
    ibuf_within := Memory.write_within s.ibuf a _ v h.ibuf_within ha }

theorem exec_keeps_inv (i : Instr) (s t : State) (h : EngineInv s) (hexec : exec i s = .next t) : EngineInv t := by
  rcases exec_cases_of_legal i s h.params_legal with ⟨code, -, e⟩ | ⟨r, hroom, e⟩ <;> rw [e] at hexec <;> cases hexec
  · exact engineInv_raiseCmdError code s h
  · exact engineInv_finish r s h hroom

theorem issueCommand_keeps_inv (w : Word) (s t : State) (h : EngineInv s) (hissue : issueCommand w s = .next t) :
    EngineInv t := by
  rcases issueCommand_cases w s with ⟨i, -, e⟩ | ⟨-, -, e⟩ <;> rw [e] at hissue
  · exact exec_keeps_inv i s t h hissue
  · cases hissue
    exact engineInv_raiseCmdError .illegal s h

theorem writeWord_keeps_inv (off : Nat) (v : Word) (s t : State) (h : EngineInv s)
    (hwrite : writeWord off v s = .next t) : EngineInv t := by
  rcases writeWord_cases off v s with ⟨-, e⟩ | ⟨-, e⟩ | ⟨-, e⟩ | ⟨-, -, -, e⟩ <;> rw [e] at hwrite
  · exact issueCommand_keeps_inv v s t h hwrite
  all_goals cases hwrite
  · exact h.of_agree rfl rfl rfl rfl (by simp) (by simp) (by simp) (by simp)
  · exact h.of_agree rfl rfl rfl rfl rfl rfl rfl rfl
  · exact engineInv_refuseAccess s h

theorem writeByte_keeps_inv (off : Nat) (v : Byte) (s : State) (h : EngineInv s) : EngineInv (writeByte off v s) := by
  rcases writeByte_cases off v s with ⟨i, -, -, e⟩ | ⟨i, -, -, e⟩ | ⟨i, -, -, e⟩ | ⟨i, hi, -, e⟩ | e <;> rw [e]
  case inr.inr.inr.inl => exact engineInv_write_ibuf s i v h hi
  case inr.inr.inr.inr => exact engineInv_refuseAccess s h
  all_goals exact h.of_agree rfl rfl rfl rfl rfl rfl rfl rfl

theorem performEvent_keeps_inv (ev : HostEvent) (s t : State) (h : EngineInv s) (hperf : performEvent ev s = .next t) :
    EngineInv t := by
  rcases performEvent_cases ev s with
    ⟨v, e⟩ | e | ⟨off, v, -, e⟩ | ⟨off, v, -, e⟩ | ⟨off, -, e⟩ | ⟨-, e⟩ <;> rw [e] at hperf
  case inr.inr.inl => exact writeWord_keeps_inv off v s t h hperf
  all_goals cases hperf
  · exact engineInv_answerRead v s h
  · exact engineInv_refuseAccess _ (engineInv_answerRead 0 s h)
  · exact writeByte_keeps_inv off v s h
  · exact engineInv_refuseAccess s h
  · exact (engineInv_resetFor s.params h.params_legal).of_agree rfl rfl rfl rfl rfl rfl rfl rfl

end Sys2Proof.Machine

/-! The obligations on reset and the invariant. -/

namespace Sys2Proof.InvariantProofs

open Sys2Proof.Machine

/-- Settles O57: the idle step changes nothing, and every event keeps the invariant. -/
theorem stepKeepsTheInvariant : Obligations.StepKeepsTheInvariant := by
  intro s t h hstep
  rcases step_next_cases s t hstep with ⟨-, rfl⟩ | ⟨e, rest, -, -, hperf⟩
  · exact h
  · exact performEvent_keeps_inv e { s with script := rest } t (h.of_agree rfl rfl rfl rfl rfl rfl rfl rfl) hperf

/-- Settles O54: the next state is `resetEvent`'s, which keeps both fields. -/
theorem resetEventKeepsTheHostsFields : Obligations.ResetEventKeepsTheHostsFields := fun s rest h =>
  ⟨_, step_of_reset s rest h, resetEvent_script _, resetEvent_lastRead _⟩

/-- Settles O55: the registers are zeros and the buffers list no byte. -/
theorem resetStateIsAllZero : Obligations.ResetStateIsAllZero := by
  refine ⟨fun i => ⟨?_, ?_⟩, fun i => ?_, Memory.read_nil, rfl, Memory.read_nil, rfl, rfl⟩ <;>
    simp [State.reset, State.resetFor]

/-- Settles O56: the reference configuration is one of the legal ones. -/
theorem resetMeetsTheInvariant : Obligations.ResetMeetsTheInvariant :=
  ⟨engineInv_resetFor _ legal_reference, engineInv_resetFor⟩

end Sys2Proof.InvariantProofs
end

section
/-! SUPPORT. The commands ECBENC, ECBDEC, CBCENC and CBCDEC: when their checks pass, the blocks they leave in OBUF, and
the round trip through the machine (spec/41_ecb_cbc_modes.md rules R80 to R88). -/

namespace Sys2Proof.Machine

/-! ## The blocks of what encryption gives -/

/-- Each block of the encryption chain is its plain block, exclusive-or the cipher block before it, enciphered (rule
R82). -/
theorem getElem_cbcEncChain (e : Bytes → Bytes) (prev : Bytes) (l : List Bytes) (i : Nat) (h : i < l.length) :
    (cbcEncChain e prev l)[i]'(by simpa using h)
      = e (xorBytes l[i] (if i = 0 then prev else (cbcEncChain e prev l)[i - 1]'(by simp; omega))) := by
  induction l generalizing prev i with
  | nil => simp at h
  | cons p rest ih =>
    cases i with
    | zero => rfl
    | succ i =>
      refine (ih (e (xorBytes p prev)) i (by simpa using h)).trans ?_
      cases i <;> rfl

section
variable {alg : Alg} {key : Bytes} (hkey : keyOK alg key.length = true) (s : Bytes)
include hkey

theorem length_ecbEnc (hs : s.length % blockSize alg = 0) : (ecbEnc alg key s).length = s.length :=
  length_flatten_of_blocks _ _ s (length_of_mem_map_encryptBlock hkey _) (List.length_map _) hs

theorem blockAt_ecbEnc (i : Nat) (hi : i < s.length / blockSize alg) :
    blockAt (blockSize alg) (ecbEnc alg key s) i = encryptBlock alg key (blockAt (blockSize alg) s i) := by
  rw [ecbEnc, blockAt_flatten _ _ i (length_of_mem_map_encryptBlock hkey _) (blockSize_pos alg) (by simpa using hi),
    List.getElem_map, getElem_blocks]

theorem length_of_mem_cbcEncChain_blocks (iv : Bytes) :
    ∀ c ∈ cbcEncChain (encryptBlock alg key) iv (blocks (blockSize alg) s), c.length = blockSize alg := fun c =>
  length_of_mem_cbcEncChain _ _ iv c _ fun b => length_encryptBlock alg key b hkey

theorem length_cbcEnc (iv : Bytes) (hs : s.length % blockSize alg = 0) : (cbcEnc alg key iv s).length = s.length :=
  length_flatten_of_blocks _ _ s (length_of_mem_cbcEncChain_blocks hkey s iv) (length_cbcEncChain _ _ _) hs

theorem blockAt_cbcEnc (iv : Bytes) (i : Nat) (hi : i < s.length / blockSize alg) :
    blockAt (blockSize alg) (cbcEnc alg key iv s) i
      = encryptBlock alg key (xorBytes (blockAt (blockSize alg) s i)
          (if i = 0 then iv else blockAt (blockSize alg) (cbcEnc alg key iv s) (i - 1))) := by
  have hblock (j : Nat) (hj : j < s.length / blockSize alg) :
      blockAt (blockSize alg) (cbcEnc alg key iv s) j
        = (cbcEncChain (encryptBlock alg key) iv (blocks (blockSize alg) s))[j]'(by simpa using hj) :=
    blockAt_flatten _ _ j (length_of_mem_cbcEncChain_blocks hkey s iv) (blockSize_pos alg) (by simpa using hj)
  rw [hblock i hi, hblock (i - 1) (by omega), getElem_cbcEncChain _ _ _ i (by simpa using hi), getElem_blocks]

end

/-! ## Blocks of the buffers -/

/-- A block of a string lies within it. -/
theorem block_end_le {n len j : Nat} (h : j < len / n) : j * n + n ≤ len :=
  calc j * n + n = (j + 1) * n := (Nat.succ_mul j n).symm
    _ ≤ len / n * n := Nat.mul_le_mul_right n h
    _ ≤ len := Nat.div_mul_le_self len n

/-- A block of the input is the block of IBUF. -/
theorem blockAt_input (n : Nat) (s : State) (j : Nat) (hilen : s.ilen.toNat ≤ s.params.ibufBytes)
    (hj : j < s.ilen.toNat / n) : blockAt n (input s) j = s.ibuf.readBytes (j * n) n := by
  rw [input_eq s hilen, blockAt, Memory.readBytes_slice _ _ _ _ _ (block_end_le hj), Nat.zero_add]

/-- A block of OBUF after a success is the block of the result. -/
theorem readBytes_block_finish (n : Nat) (r : Bytes) (s : State) (j : Nat) (hj : j < r.length / n) :
    (finish r s).obuf.readBytes (j * n) n = blockAt n r j :=
  Memory.readBytes_ofBytes r (j * n) n (block_end_le hj)

/-- A byte of the input is the byte of IBUF. -/
theorem getD_input (s : State) (a : Nat) (hilen : s.ilen.toNat ≤ s.params.ibufBytes) (ha : a < s.ilen.toNat) :
    (input s).getD a 0 = s.ibuf.read a := by
  rw [input_eq s hilen, Memory.getD_readBytes _ _ _ _ ha, Nat.zero_add]

/-! ## The four commands -/

/-- The checks of the four commands pass exactly under the conditions of rule R84. -/
theorem modeChecks_pass_iff (alg : Alg) (klen : KLen) (s : State) :
    (∀ c ∈ modeChecks alg klen s, c.1 = false) ↔
      keyOK alg (klenBytes klen) = true ∧ s.ilen.toNat ≤ s.params.ibufBytes ∧ s.ilen.toNat % blockSize alg = 0
      ∧ s.ilen.toNat ≤ s.params.obufBytes := by
  simp [modeChecks, checkKeyLen, checkILen, checkDataLen, checkOverflow]

section
variable {alg : Alg} {klen : KLen} {s : State} (hkey : keyOK alg (klenBytes klen) = true)
  (hilen : s.ilen.toNat ≤ s.params.ibufBytes) (hwhole : s.ilen.toNat % blockSize alg = 0)
include hkey hilen hwhole

/-- The result of a mode command has the length of the input. -/
theorem length_resultOf_mode (i : Instr) (hi : i ∈ modeInstrs alg klen) :
    (resultOf i s).length = s.ilen.toNat := by
  have hoperand : keyOK alg (key1Operand klen s).length = true := by simpa using hkey
  have hlen := length_input_of_le s hilen
  have hinput : (input s).length % blockSize alg = 0 := by rwa [hlen]
  rcases (mem_modeInstrs_iff alg klen i).mp hi with rfl | rfl | rfl | rfl
  · exact (length_ecbEnc hoperand _ hinput).trans hlen
  · exact (length_ecbDec hoperand _ hinput).trans hlen
  · exact (length_cbcEnc hoperand _ _ hinput).trans hlen
  · exact (length_cbcDec hoperand _ _ (length_ivOperand alg s) hinput).trans hlen

variable (hroom : s.ilen.toNat ≤ s.params.obufBytes)
include hroom

/-- A mode command whose checks pass succeeds, and OBUF holds its result block by block (rule R84). -/
theorem exec_mode_succeeds (i : Instr) (hi : i ∈ modeInstrs alg klen) :
    ∃ t, exec i s = .next t ∧ SuccessOf s.ilen.toNat s t ∧ t.obuf = Memory.ofBytes (resultOf i s)
      ∧ ∀ j, j < s.ilen.toNat / blockSize alg →
        t.obuf.readBytes (j * blockSize alg) (blockSize alg) = blockAt (blockSize alg) (resultOf i s) j := by
  have hlen := length_resultOf_mode hkey hilen hwhole i hi
  have hrun := runCommand_of_pass _ (resultOf i) s
    ((modeChecks_pass_iff alg klen s).mpr ⟨hkey, hilen, hwhole, hroom⟩)
  refine ⟨finish (resultOf i s) s, ?_, ?_, rfl, fun j hj => ?_⟩
  · rw [exec_eq, checksOf_mode alg klen i s hi, hrun]
  · simpa only [hlen] using finish_successOf (resultOf i s) s (by rw [hlen]; exact s.ilen.isLt)
  · exact readBytes_block_finish _ _ s j (by rwa [hlen])

/-- ECBENC enciphers every block (rule R85). -/
theorem exec_ecbenc : ∃ t, exec (.ecbenc alg klen) s = .next t ∧ SuccessOf s.ilen.toNat s t ∧
    ∀ j, j < s.ilen.toNat / blockSize alg →
      t.obuf.readBytes (j * blockSize alg) (blockSize alg)
        = encryptBlock alg (key1Operand klen s) (s.ibuf.readBytes (j * blockSize alg) (blockSize alg)) := by
  obtain ⟨t, hexec, hsuccess, -, hblocks⟩ := exec_mode_succeeds hkey hilen hwhole hroom (.ecbenc alg klen) (by simp)
  refine ⟨t, hexec, hsuccess, fun j hj => ?_⟩
  rw [hblocks j hj, resultOf, blockAt_ecbEnc (by simpa using hkey) _ j (by rwa [length_input_of_le s hilen]),
    blockAt_input _ s j hilen hj]

/-- ECBDEC deciphers every block (rule R86). -/
theorem exec_ecbdec : ∃ t, exec (.ecbdec alg klen) s = .next t ∧ SuccessOf s.ilen.toNat s t ∧
    ∀ j, j < s.ilen.toNat / blockSize alg →
      t.obuf.readBytes (j * blockSize alg) (blockSize alg)
        = decryptBlock alg (key1Operand klen s) (s.ibuf.readBytes (j * blockSize alg) (blockSize alg)) := by
  obtain ⟨t, hexec, hsuccess, -, hblocks⟩ := exec_mode_succeeds hkey hilen hwhole hroom (.ecbdec alg klen) (by simp)
  refine ⟨t, hexec, hsuccess, fun j hj => ?_⟩
  rw [hblocks j hj, resultOf, blockAt_ecbDec (by simpa using hkey) _ j (by rwa [length_input_of_le s hilen]),
    blockAt_input _ s j hilen hj]

/-- CBCENC chains from the IV register (rule R87). -/
theorem exec_cbcenc : ∃ t, exec (.cbcenc alg klen) s = .next t ∧ SuccessOf s.ilen.toNat s t ∧
    ∀ j, j < s.ilen.toNat / blockSize alg →
      t.obuf.readBytes (j * blockSize alg) (blockSize alg)
        = encryptBlock alg (key1Operand klen s)
            (xorBytes (s.ibuf.readBytes (j * blockSize alg) (blockSize alg))
              (if j = 0 then ivOperand alg s
               else t.obuf.readBytes ((j - 1) * blockSize alg) (blockSize alg))) := by
  obtain ⟨t, hexec, hsuccess, -, hblocks⟩ := exec_mode_succeeds hkey hilen hwhole hroom (.cbcenc alg klen) (by simp)
  refine ⟨t, hexec, hsuccess, fun j hj => ?_⟩
  rw [hblocks j hj, hblocks (j - 1) (by omega), resultOf,
    blockAt_cbcEnc (by simpa using hkey) _ _ j (by rwa [length_input_of_le s hilen]), blockAt_input _ s j hilen hj]

/-- CBCDEC unchains from the IV register (rule R88). -/
theorem exec_cbcdec : ∃ t, exec (.cbcdec alg klen) s = .next t ∧ SuccessOf s.ilen.toNat s t ∧
    ∀ j, j < s.ilen.toNat / blockSize alg →
      t.obuf.readBytes (j * blockSize alg) (blockSize alg)
        = xorBytes
            (decryptBlock alg (key1Operand klen s) (s.ibuf.readBytes (j * blockSize alg) (blockSize alg)))
            (if j = 0 then ivOperand alg s
             else s.ibuf.readBytes ((j - 1) * blockSize alg) (blockSize alg)) := by
  obtain ⟨t, hexec, hsuccess, -, hblocks⟩ := exec_mode_succeeds hkey hilen hwhole hroom (.cbcdec alg klen) (by simp)
  refine ⟨t, hexec, hsuccess, fun j hj => ?_⟩
  rw [hblocks j hj, resultOf, blockAt_cbcDec (by simpa using hkey) _ _ (length_ivOperand alg s) j
    (by rwa [length_input_of_le s hilen]), blockAt_input _ s j hilen hj, blockAt_input _ s (j - 1) hilen (by omega)]

end

/-! ## The result handed back -/

/-- A command that leaves DONE set has passed its checks and left its result. -/
theorem exec_done (i : Instr) (s t : State) (h : exec i s = .next t) (hdone : statusDone t.status = true) :
    (∀ c ∈ checksOf i s, c.1 = false) ∧ t = finish (resultOf i s) s := by
  rw [exec_eq] at h
  obtain rfl := Host.Outcome.next.inj h
  rw [done_runCommand, Option.isNone_iff_eq_none, firstError_eq_none] at hdone
  exact ⟨hdone, runCommand_of_pass _ _ s hdone⟩

/-- An input buffer that agrees with the output buffer of a success holds the result as its input. -/
theorem input_of_result (r : Bytes) (s u : State) (hlen : r.length = u.ilen.toNat)
    (hilen : u.ilen.toNat ≤ u.params.ibufBytes) (h : ∀ a, a < u.ilen.toNat → u.ibuf.read a = (finish r s).obuf.read a) :
    input u = r := by
  rw [input_eq u hilen, Memory.readBytes_congr _ (finish r s).obuf 0 _ fun a _ ha => h a (by simpa using ha), ← hlen,
    readBytes_obuf_finish]

/-- A mode command undone by another: where i leaves its result and u holds it as input under the same key and IV, i'
returns the input of i. -/
theorem exec_mode_undone (alg : Alg) (klen : KLen) (i i' : Instr) (s t u : State)
    (hi : i ∈ modeInstrs alg klen) (hi' : i' ∈ modeInstrs alg klen) (h : exec i s = .next t)
    (hdone : statusDone t.status = true) (hilen : u.ilen = s.ilen) (hparams : u.params = s.params)
    (hback : ∀ a, a < s.ilen.toNat → u.ibuf.read a = t.obuf.read a)
    (hundo : keyOK alg (klenBytes klen) = true → (input s).length % blockSize alg = 0 →
      input u = resultOf i s → resultOf i' u = input s) :
    ∃ v, exec i' u = .next v ∧ SuccessOf s.ilen.toNat u v ∧
      ∀ a, a < s.ilen.toNat → v.obuf.read a = s.ibuf.read a := by
  obtain ⟨hpass, rfl⟩ := exec_done i s t h hdone
  rw [checksOf_mode alg klen i s hi, modeChecks_pass_iff] at hpass
  obtain ⟨hkey, hfits, hwhole, hroom⟩ := hpass
  have hlen := length_resultOf_mode hkey hfits hwhole i hi
  have hinput := input_of_result (resultOf i s) s u (by rw [hlen, hilen]) (by rwa [hilen, hparams])
    (by rwa [hilen])
  obtain ⟨v, hexec, hsuccess, hobuf, -⟩ := exec_mode_succeeds (s := u) hkey (by rwa [hilen, hparams]) (by rwa [hilen])
    (by rwa [hilen, hparams]) i' hi'
  refine ⟨v, hexec, hilen ▸ hsuccess, fun a ha => ?_⟩
  rw [hobuf, Memory.read_ofBytes, hundo hkey (by rwa [length_input_of_le s hfits]) hinput, getD_input s a hfits ha]

end Sys2Proof.Machine

/-! The obligations on the commands of the modes. -/

namespace Sys2Proof.ModeCommandProofs

open Sys2Proof.Machine

/-- Settles O10: the checks pass, and E is applied block by block. -/
theorem ecbencEnciphersEveryBlock : Obligations.EcbencEnciphersEveryBlock :=
  fun _ _ _ hkey hilen hwhole hroom => exec_ecbenc hkey hilen hwhole hroom

/-- Settles O11: the checks pass, and D is applied block by block. -/
theorem ecbdecDeciphersEveryBlock : Obligations.EcbdecDeciphersEveryBlock :=
  fun _ _ _ hkey hilen hwhole hroom => exec_ecbdec hkey hilen hwhole hroom

/-- Settles O12: the block before the j-th is OBUF's own, or the IV register's. -/
theorem cbcencChainsFromTheIV : Obligations.CbcencChainsFromTheIV :=
  fun _ _ _ hkey hilen hwhole hroom => exec_cbcenc hkey hilen hwhole hroom

/-- Settles O13: the block before the j-th is IBUF's, or the IV register's. -/
theorem cbcdecUnchainsFromTheIV : Obligations.CbcdecUnchainsFromTheIV :=
  fun _ _ _ hkey hilen hwhole hroom => exec_cbcdec hkey hilen hwhole hroom

/-- Settles O43: the input of the second command is the result of the first, which decryption undoes. -/
theorem decryptingTheResultReturnsTheInput : Obligations.DecryptingTheResultReturnsTheInput := by
  intro alg klen s t u p hp h hdone hkey1 hiv hilen hparams hback
  have hkeyOperand : key1Operand klen u = key1Operand klen s := by rw [key1Operand, hkey1, key1Operand]
  have hivOperand : ivOperand alg u = ivOperand alg s := by rw [ivOperand, hiv, ivOperand]
  simp only [List.mem_cons, List.not_mem_nil, or_false] at hp
  rcases hp with rfl | rfl
  · refine exec_mode_undone alg klen _ _ s t u (by simp) (by simp) h hdone hilen hparams hback
      fun hkey hwhole hinput => ?_
    rw [resultOf, hkeyOperand, hinput, resultOf, ecbDec_ecbEnc (by simpa using hkey) _ hwhole]
  · refine exec_mode_undone alg klen _ _ s t u (by simp) (by simp) h hdone hilen hparams hback
      fun hkey hwhole hinput => ?_
    rw [resultOf, hkeyOperand, hivOperand, hinput, resultOf,
      cbcDec_cbcEnc (by simpa using hkey) _ _ (length_ivOperand alg s) hwhole]

end Sys2Proof.ModeCommandProofs
end

section
/-! SUPPORT. The padded strings byte by byte and the commands PAD1, PAD2 and PAD3 (spec/42_padding.md rules R90 to
R98). -/

namespace Sys2Proof.Machine

/-! ## The padded strings byte by byte -/

/-- Zero bytes at the end of a string are what lies past its end anyway. -/
theorem getD_append_zeros (s : Bytes) (k a : Nat) : (s ++ zeros k).getD a 0 = s.getD a 0 := by
  simp only [List.getD_eq_getElem?_getD]
  rcases Nat.lt_or_ge a s.length with ha | ha
  · rw [List.getElem?_append_left ha]
  · rw [List.getElem?_append_right ha, List.getElem?_eq_none ha, zeros, List.getElem?_replicate]
    split_ifs <;> rfl

theorem getD_pad1 (s : Bytes) (n a : Nat) (hn : 1 ≤ n) : (pad1 s n).getD a 0 = s.getD a 0 := by
  obtain ⟨k, hform, -⟩ := pad1_form s n hn
  rw [hform, getD_append_zeros]

/-- The bytes of a big-endian encoding, the most significant first (rule R6). -/
theorem getD_be (v n a : Nat) (ha : a < n) : (be v n).getD a 0 = BitVec.ofNat 8 (v / 256 ^ (n - 1 - a)) := by
  induction n generalizing a with
  | zero => omega
  | succ n ih =>
    cases a with
    | zero => rfl
    | succ a =>
      rw [be, List.getD_cons_succ, ih a (by omega), show n + 1 - 1 - (a + 1) = n - 1 - a by omega]

theorem getD_input_eq_ite (s : State) (a : Nat) (hilen : s.ilen.toNat ≤ s.params.ibufBytes) :
    (input s).getD a 0 = if a < s.ilen.toNat then s.ibuf.read a else 0x00 := by
  split_ifs with ha
  · exact getD_input s a hilen ha
  · exact List.getD_eq_default _ _ (by rw [length_input_of_le s hilen]; omega)

/-- A byte of a padded input: under scheme 1 the input's, under scheme 2 with the mark after it, under scheme 3 behind
the length bytes (rules R90 to R92). -/
def paddedByte (q : PadScheme) (n : Nat) (s : State) (a : Nat) : Byte :=
  match q with
  | .iso1 => if a < s.ilen.toNat then s.ibuf.read a else 0x00
  | .iso2 => if a < s.ilen.toNat then s.ibuf.read a else if a = s.ilen.toNat then 0x80 else 0x00
  | .iso3 =>
    if a < prefixBytes n then BitVec.ofNat 8 (8 * s.ilen.toNat / 256 ^ (prefixBytes n - 1 - a))
    else if a - prefixBytes n < s.ilen.toNat then s.ibuf.read (a - prefixBytes n) else 0x00

theorem getD_pad_input (q : PadScheme) (n : Nat) (s : State) (a : Nat) (hn : 1 ≤ n)
    (hilen : s.ilen.toNat ≤ s.params.ibufBytes) : (pad q (input s) n).getD a 0 = paddedByte q n s a := by
  have hlen := length_input_of_le s hilen
  have hbyte := fun a => getD_input_eq_ite s a hilen
  cases q with
  | iso1 => rw [pad, getD_pad1 _ n a hn, hbyte, paddedByte]
  | iso2 =>
    rw [pad, pad2, getD_pad1 _ n a hn, paddedByte]
    split_ifs with ha hmark
    · rw [List.getD_append _ _ _ _ (by omega), hbyte, if_pos ha]
    · rw [List.getD_append_right _ _ _ _ (by omega), show a - (input s).length = 0 by omega]
      rfl
    · exact List.getD_eq_default _ _ (by rw [List.length_append, hlen, List.length_singleton]; omega)
  | iso3 =>
    rw [pad, pad3, paddedByte]
    split_ifs with hlow
    · rw [List.getD_append _ _ _ _ (by simpa using hlow), getD_be _ _ a hlow, hlen]
    all_goals rw [List.getD_append_right _ _ _ _ (by simpa using hlow), length_be, getD_pad1 _ n _ hn, hbyte]
    · rw [if_pos (by assumption)]
    · rw [if_neg (by assumption)]

/-! ## The three commands -/

/-- A padding command whose checks pass succeeds with the padded input (rules R94 and R95). -/
theorem padCommand_succeeds (q : PadScheme) (n : Nat) (s : State) (hn : 1 ≤ n) (hlegal : s.params.legal)
    (hilen : s.ilen.toNat ≤ s.params.ibufBytes) (hbits : q = .iso3 → 8 * s.ilen.toNat < 2 ^ (8 * prefixBytes n))
    (hroom : padLength q s.ilen.toNat n ≤ s.params.obufBytes) :
    SuccessOf (padLength q s.ilen.toNat n) s (padCommand q n s)
      ∧ ∀ a, (padCommand q n s).obuf.read a = paddedByte q n s a := by
  have hlen : (pad q (input s) n).length = padLength q s.ilen.toNat n := by
    rw [length_pad q _ n hn, length_input_of_le s hilen]
  have hfits : (pad q (input s) n).length ≤ s.params.obufBytes := hlen.trans_le hroom
  obtain ⟨-, -, -, hobuf⟩ := hlegal
  rw [padCommand_of_pass q n s hilen hbits hfits, ← hlen]
  refine ⟨finish_successOf _ s (by omega), fun a => ?_⟩
  rw [finish_obuf, Memory.read_ofBytes, getD_pad_input q n s a hn hilen]

end Sys2Proof.Machine

/-! The obligations on the padding commands. -/

namespace Sys2Proof.PaddingCommandProofs

open Sys2Proof.Machine

/-- Settles O14: scheme 1, which has no length bytes to check. -/
theorem pad1ZeroPadsTheInput : Obligations.Pad1ZeroPadsTheInput := fun alg blksz s hlegal hilen hroom =>
  ⟨_, rfl, padCommand_succeeds .iso1 _ s (padSize_pos alg blksz) hlegal hilen (by simp) hroom⟩

/-- Settles O15: scheme 2, which has no length bytes to check. -/
theorem pad2MarksTheEndOfTheInput : Obligations.Pad2MarksTheEndOfTheInput := fun alg blksz s hlegal hilen hroom =>
  ⟨_, rfl, padCommand_succeeds .iso2 _ s (padSize_pos alg blksz) hlegal hilen (by simp) hroom⟩

/-- Settles O16: scheme 3, whose length bytes hold the bit length. -/
theorem pad3PrefixesTheBitLength : Obligations.Pad3PrefixesTheBitLength := fun alg blksz s hlegal hilen hbits hroom =>
  ⟨_, rfl, padCommand_succeeds .iso3 _ s (padSize_pos alg blksz) hlegal hilen (fun _ => hbits) hroom⟩

end Sys2Proof.PaddingCommandProofs
end

section
/-! SUPPORT. The last link of the CBC-MAC chain, the MAC commands, and the subkey pair as big-endian numbers
(spec/43_cbc_mac.md rules R100 to R111, spec/44_cmac_subkeys.md rules R114 to R116). -/

namespace Sys2Proof.Machine

/-! ## The last block of the chain -/

/-- The last cipher block of a chain is the fold of rule R100 over its blocks; of an empty chain it is the block
before it. -/
theorem getLast?_cbcEncChain (e : Bytes → Bytes) (prev : Bytes) (l : List Bytes) :
    (cbcEncChain e prev l).getLast?.getD prev = l.foldl (fun h m => e (xorBytes m h)) prev := by
  induction l generalizing prev with
  | nil => rfl
  | cons p rest ih => rw [cbcEncChain, List.getLast?_cons, Option.getD_some, ih, List.foldl_cons]

/-- The last n bytes of joined n-byte blocks are the last block. -/
theorem lastBytes_flatten (n : Nat) (bs : List Bytes) (prev : Bytes) (h : ∀ b ∈ bs, b.length = n) (hne : bs ≠ []) :
    lastBytes bs.flatten n = bs.getLast?.getD prev := by
  obtain ⟨init, b, rfl⟩ := (List.eq_nil_or_concat' bs).resolve_left hne
  have hb : b.length = n := h b (by simp)
  simp [lastBytes, hb]

section
variable {alg : Alg} {key : Bytes} (hkey : keyOK alg key.length = true)
include hkey

/-- The last block of CBC encryption of at least one block is the last link of the chain. -/
theorem lastBytes_cbcEnc (iv s : Bytes) (hs : blockSize alg ≤ s.length) :
    lastBytes (cbcEnc alg key iv s) (blockSize alg)
      = (blocks (blockSize alg) s).foldl (fun h m => encryptBlock alg key (xorBytes m h)) iv := by
  have hpos : 0 < s.length / blockSize alg := Nat.div_pos hs (blockSize_pos alg)
  rw [cbcEnc, lastBytes_flatten _ _ iv (length_of_mem_cbcEncChain_blocks hkey s iv) ?_, getLast?_cbcEncChain]
  exact List.ne_nil_of_length_pos (by simpa using hpos)

/-- CBC-MAC truncates the last link of the chain over the padded string (rules R100 and R101). -/
theorem cbcmac_eq_take_macChain (s : Bytes) (q : PadScheme) (m : Nat) :
    cbcmac alg key s q m = (macChain alg key (pad q s (blockSize alg))).take m :=
  congrArg (firstBytes · m) (lastBytes_cbcEnc hkey _ _ (le_length_pad q s _ (blockSize_pos alg)))

theorem length_cbcmac (s : Bytes) (q : PadScheme) (m : Nat) (hm : m ≤ blockSize alg) :
    (cbcmac alg key s q m).length = m := by
  have hpad : blockSize alg ≤ (pad q s (blockSize alg)).length := le_length_pad q s _ (blockSize_pos alg)
  have hpos : 0 < (pad q s (blockSize alg)).length / blockSize alg := Nat.div_pos hpad (blockSize_pos alg)
  have hchain : (cbcEnc alg key (zeros (blockSize alg)) (pad q s (blockSize alg))).length
      = (pad q s (blockSize alg)).length / blockSize alg * blockSize alg := by
    rw [cbcEnc, length_flatten_const _ _ (length_of_mem_cbcEncChain_blocks hkey _ _), length_cbcEncChain, length_blocks]
  rw [cbcmac, firstBytes, List.length_take, length_lastBytes _ _ (hchain ▸ Nat.le_mul_of_pos_left _ hpos),
    Nat.min_eq_left hm]

end

/-! ## The MAC commands -/

/-- A success whose result has m bytes. -/
theorem finish_of_length (r : Bytes) (s : State) (m : Nat) (hlen : r.length = m) (hm : m ≤ 32) :
    SuccessOf m s (finish r s) ∧ (finish r s).obuf.readBytes 0 m = r := by
  subst hlen
  exact ⟨finish_successOf r s (by omega), readBytes_obuf_finish r s⟩

/-- A CBC-MAC command whose checks pass returns the first bytes of the last link of the chain (rules R102 to R105). -/
theorem cbcmacCommand_succeeds (q : PadScheme) (alg : Alg) (klen : KLen) (maclen : Nat) (s : State)
    (hkey : keyOK alg (klenBytes klen) = true) (hmac : macLength alg maclen ≤ blockSize alg)
    (hilen : s.ilen.toNat ≤ s.params.ibufBytes) (hwhole : ¬(q = .iso3 ∧ alg = .aes)) :
    SuccessOf (macLength alg maclen) s (cbcmacCommand q alg klen maclen s)
      ∧ (cbcmacCommand q alg klen maclen s).obuf.readBytes 0 (macLength alg maclen)
        = (macChain alg (key1Operand klen s) (pad q (s.ibuf.readBytes 0 s.ilen.toNat) (blockSize alg))).take
            (macLength alg maclen) := by
  have hoperand : keyOK alg (key1Operand klen s).length = true := by simpa using hkey
  have hblocks : (pad q (input s) (blockSize alg)).length % blockSize alg = 0 :=
    not_not.mp (mt (length_pad_mod_blockSize_ne_zero_iff q alg (input s)).mp hwhole)
  have hpass : ∀ c ∈ cbcmacChecks q alg klen maclen s, c.1 = false := by
    simp [cbcmacChecks, checkKeyLen, checkMacLen, checkILen, checkDataLen, hkey, hmac, hilen, hblocks]
  have hrun : cbcmacCommand q alg klen maclen s
      = finish (cbcmac alg (key1Operand klen s) (input s) q (macLength alg maclen)) s := runCommand_of_pass _ _ s hpass
  have hblock := blockSize_le_16 alg
  rw [hrun, ← input_eq s hilen, ← cbcmac_eq_take_macChain hoperand]
  exact finish_of_length _ s _ (length_cbcmac hoperand _ q _ hmac) (by omega)

/-- Under scheme 3 with AES the padded input is never a whole number of blocks (rule R105). -/
theorem cbcmacCommand_iso3_aes (klen : KLen) (maclen : Nat) (s : State) (hkey : keyOK .aes (klenBytes klen) = true)
    (hmac : maclen ≤ 16) (hilen : s.ilen.toNat ≤ s.params.ibufBytes) :
    cbcmacCommand .iso3 .aes klen maclen s = raiseCmdError .datalen s := by
  have hmacCheck : ¬(macLength .aes maclen > blockSize .aes) :=
    mt (macLength_gt_blockSize_iff .aes maclen).mp (not_lt.mpr hmac)
  have hpart := (length_pad_mod_blockSize_ne_zero_iff .iso3 .aes (input s)).mpr ⟨rfl, rfl⟩
  have herror : firstError (cbcmacChecks .iso3 .aes klen maclen s) = some .datalen := by
    simp only [cbcmacChecks, checkKeyLen, checkMacLen, checkILen, checkDataLen, hkey, decide_eq_false hmacCheck,
      decide_eq_false (not_lt.mpr hilen), decide_eq_true hpart, Bool.not_true, firstError_cons_false,
      firstError_cons_true]
  exact runCommand_of_error _ _ s _ herror

/-- A retail MAC command whose checks pass returns the first bytes of the zero block under key 2 (rules R107 and
R108). -/
theorem rmacCommand_succeeds (q : PadScheme) (klen klen2 : KLen) (maclen : Nat) (s : State)
    (hkey : keyOK .des (klenBytes klen) = true) (hkey2 : keyOK .des (klenBytes klen2) = true)
    (hmac : macLength .des maclen ≤ 8) (hilen : s.ilen.toNat ≤ s.params.ibufBytes) :
    SuccessOf (macLength .des maclen) s (rmacCommand q klen klen2 maclen s)
      ∧ (rmacCommand q klen klen2 maclen s).obuf.readBytes 0 (macLength .des maclen)
        = (encryptBlock .des (key2Operand klen2 s) (zeros 8)).take (macLength .des maclen) := by
  have hmacCheck : macLength .des maclen ≤ blockSize .des := hmac
  have hpass : ∀ c ∈ rmacChecks klen klen2 maclen s, c.1 = false := by
    simp [rmacChecks, checkKeyLen, checkMacLen, checkILen, hkey, hkey2, hmacCheck, hilen]
  have hrun : rmacCommand q klen klen2 maclen s
      = finish (retailmac (key1Operand klen s) (key2Operand klen2 s) (input s) q (macLength .des maclen)) s :=
    runCommand_of_pass _ _ s hpass
  have hvalue := MacProofs.retailMacIgnoresDataAndKeyOne (key1Operand klen s) (key2Operand klen2 s) (input s) q
    (macLength .des maclen)
  rw [hrun, hvalue]
  have hblock : (encryptBlock .des (key2Operand klen2 s) (zeros 8)).length = 8 := length_encryptBlock_des _ _
  exact finish_of_length _ s _ (by rw [List.length_take, hblock, Nat.min_eq_left hmac]) (by omega)

/-! ## Exclusive-or, shift and top bit as numbers -/

/-- The exclusive-or of two strings of one length is that of their numbers. -/
theorem int_xorBytes (s t : Bytes) (h : s.length = t.length) : int (xorBytes s t) = int s ^^^ int t := by
  induction s generalizing t with
  | nil =>
    obtain rfl := List.length_eq_zero_iff.mp h.symm
    rfl
  | cons b s ih =>
    match t, h with
    | c :: t, h =>
      have hlen : s.length = t.length := by simpa using h
      have hpow : 256 ^ t.length = 2 ^ (8 * t.length) := by norm_num [pow_mul]
      have hs := int_lt s
      have ht := int_lt t
      rw [hlen, hpow] at hs
      rw [hpow] at ht
      have hcons : xorBytes (b :: s) (c :: t) = (b ^^^ c) :: xorBytes s t := rfl
      rw [hcons, int_cons, int_cons, int_cons, ih t hlen, length_xorBytes, hlen, Nat.min_self, hpow, BitVec.toNat_xor]
      refine Nat.eq_of_testBit_eq fun i => ?_
      simp only [Nat.testBit_xor, Nat.mul_comm _ (2 ^ _), Nat.testBit_two_pow_mul_add _ hs,
        Nat.testBit_two_pow_mul_add _ ht, Nat.testBit_two_pow_mul_add _ (Nat.xor_lt_two_pow hs ht)]
      split <;> rfl

/-- The shifted block is twice the number, the top bit lost (rule R7). -/
theorem int_shl1 (b : Bytes) : int (shl1 b) = 2 * int b % 2 ^ (8 * b.length) := by
  have hpow : 256 ^ b.length = 2 ^ (8 * b.length) := by norm_num [pow_mul]
  rw [shl1, int_be, hpow, Nat.mod_mod, Nat.mul_comm]

/-- The top bit of a block is set exactly where its number is in the upper half (rule R7). -/
theorem topBit_iff (b : Bytes) (hb : 0 < b.length) : topBit b = true ↔ 2 ^ (8 * b.length - 1) ≤ int b := by
  match b, hb with
  | c :: rest, _ =>
    have hrest := int_lt rest
    have hhalf : 2 ^ (8 * (c :: rest).length - 1) = 128 * 256 ^ rest.length := by
      rw [List.length_cons, show 8 * (rest.length + 1) - 1 = 7 + 8 * rest.length by omega, pow_add, pow_mul]
      norm_num
    have htop : topBit (c :: rest) = c.msb := rfl
    rw [htop, hhalf, int_cons, BitVec.msb_eq_decide, decide_eq_true_eq]
    constructor
    · intro hc
      exact (Nat.mul_le_mul_right _ hc).trans (Nat.le_add_right _ _)
    · intro hle
      by_contra hc
      have hbelow : (c.toNat + 1) * 256 ^ rest.length ≤ 128 * 256 ^ rest.length :=
        Nat.mul_le_mul_right _ (by omega)
      rw [Nat.add_mul] at hbelow
      omega

/-! ## The subkey pair -/

theorem int_subkeyMask (alg : Alg) : int (subkeyMask alg) = (subkeyConstant alg).toNat := by
  cases alg <;> rfl

theorem length_subkeyMask (alg : Alg) : (subkeyMask alg).length = blockSize alg := by
  cases alg <;> rfl

theorem length_dbl (alg : Alg) (b : Bytes) (hb : b.length = blockSize alg) : (dbl alg b).length = blockSize alg := by
  unfold dbl
  split_ifs <;> simp [hb, length_subkeyMask]

/-- The doubling of a block is the doubling of its number (rule R114). -/
theorem int_dbl (alg : Alg) (b : Bytes) (hb : b.length = blockSize alg) :
    int (dbl alg b) = doubledNumber (blockSize alg) (subkeyConstant alg).toNat (int b) := by
  have htop := topBit_iff b (hb ▸ blockSize_pos alg)
  rw [hb] at htop
  unfold dbl doubledNumber
  split_ifs with h h' h'
  · rw [int_xorBytes _ _ (by rw [length_shl1, hb, length_subkeyMask]), int_shl1, int_subkeyMask, hb]
  · exact absurd (htop.mp h) h'
  · exact absurd (htop.mpr h') h
  · rw [int_shl1, hb, Nat.xor_zero]

/-- CMACSK returns k1 then k2, the doubling of the enciphered zero block and the doubling of that (rule R116). -/
theorem exec_cmacsk (alg : Alg) (klen : KLen) (s : State) (hkey : keyOK alg (klenBytes klen) = true) :
    ∃ t, exec (.cmacsk alg klen) s = .next t ∧ SuccessOf (2 * blockSize alg) s t
      ∧ t.obuf.readBytes 0 (blockSize alg) = (cmacsk alg (key1Operand klen s)).1
      ∧ t.obuf.readBytes (blockSize alg) (blockSize alg) = (cmacsk alg (key1Operand klen s)).2 := by
  have hblock := length_encryptBlock alg (key1Operand klen s) (zeros (blockSize alg)) (by simpa using hkey)
  have hk1 : (cmacsk alg (key1Operand klen s)).1.length = blockSize alg := length_dbl alg _ hblock
  have hk2 : (cmacsk alg (key1Operand klen s)).2.length = blockSize alg := length_dbl alg _ hk1
  have hpass : ∀ c ∈ checksOf (.cmacsk alg klen) s, c.1 = false := by simp [checksOf, checkKeyLen, hkey]
  have hlen : (resultOf (.cmacsk alg klen) s).length = 2 * blockSize alg := by
    rw [resultOf, List.length_append, hk1, hk2, Nat.two_mul]
  have hsize := blockSize_le_16 alg
  refine ⟨_, (exec_eq _ s).trans (congrArg _ (runCommand_of_pass _ _ s hpass)),
    (finish_of_length _ s _ hlen (by omega)).1, ?_, ?_⟩
  all_goals rw [finish_obuf, Memory.readBytes_ofBytes _ _ _ (by omega), resultOf]
  · rw [List.drop_zero, List.take_left' hk1]
  · rw [List.drop_left' hk1, List.take_of_length_le hk2.le]

end Sys2Proof.Machine

/-! The obligations on the MAC commands and CMACSK. -/

namespace Sys2Proof.MacCommandProofs

open Sys2Proof.Machine

/-- Settles O17: scheme 2 is scheme 1 on the marked input. -/
theorem cbcmacOneAndTwoTruncateTheChain : Obligations.CbcmacOneAndTwoTruncateTheChain :=
  fun alg klen maclen s hkey hmac hilen =>
    ⟨⟨_, rfl, cbcmacCommand_succeeds .iso1 alg klen maclen s hkey hmac hilen (by simp)⟩,
      ⟨_, rfl, cbcmacCommand_succeeds .iso2 alg klen maclen s hkey hmac hilen (by simp)⟩⟩

/-- Settles O18: the length block of scheme 3 is a block of DES. -/
theorem cbcmacThreeOfDesTruncatesTheChain : Obligations.CbcmacThreeOfDesTruncatesTheChain := by
  intro klen maclen s m key inp hkey hmac hilen
  have hpad : pad .iso3 inp (blockSize .des) = be (8 * s.ilen.toNat) 8 ++ pad1 inp 8 :=
    congrArg (fun len => be (8 * len) 8 ++ pad1 inp 8) (Memory.length_readBytes _ _ _)
  rw [← hpad]
  exact ⟨_, rfl, cbcmacCommand_succeeds .iso3 .des klen maclen s hkey hmac hilen (by simp)⟩

/-- Settles O19: the length bytes of scheme 3 are half a block of AES. -/
theorem cbcmacThreeOfAesIsAlwaysRefused : Obligations.CbcmacThreeOfAesIsAlwaysRefused :=
  fun klen maclen s hkey hmac hilen =>
    ⟨_, congrArg Host.Outcome.next (cbcmacCommand_iso3_aes klen maclen s hkey hmac hilen),
      raiseCmdError_refusalOf .datalen s⟩

/-- Settles O20: the three commands differ in the scheme alone, on which the value does not depend. -/
theorem retailMacCommandsEncipherTheZeroBlock : Obligations.RetailMacCommandsEncipherTheZeroBlock := by
  intro klen klen2 maclen s i hi m hkey hkey2 hmac hilen
  have hsucceeds := fun q => rmacCommand_succeeds q klen klen2 maclen s hkey hkey2 hmac hilen
  simp only [List.mem_cons, List.not_mem_nil, or_false] at hi
  rcases hi with rfl | rfl | rfl
  · exact ⟨_, rfl, hsucceeds .iso1⟩
  · exact ⟨_, rfl, hsucceeds .iso2⟩
  · exact ⟨_, rfl, hsucceeds .iso3⟩

/-- Settles O21: the two halves of the result, each read as a number. -/
theorem cmacskReturnsTheSubkeyPair : Obligations.CmacskReturnsTheSubkeyPair := by
  intro alg klen s n constant l hkey
  obtain ⟨t, hexec, hsuccess, hk1, hk2⟩ := exec_cmacsk alg klen s hkey
  have hconstant : constant = (subkeyConstant alg).toNat := by cases alg <;> rfl
  have hblock := length_encryptBlock alg (key1Operand klen s) (zeros (blockSize alg)) (by simpa using hkey)
  have hl : int (cmacsk alg (key1Operand klen s)).1 = doubledNumber n (subkeyConstant alg).toNat l :=
    int_dbl alg _ hblock
  refine ⟨t, hexec, hsuccess, ?_, ?_⟩
  · rw [hk1, hl, hconstant]
  · rw [hk2, hconstant, ← hl]
    exact int_dbl alg _ (length_dbl alg _ hblock)

end Sys2Proof.MacCommandProofs
end

section
/-! SUPPORT. The block functions undo each other in both orders, and the AES S-box against its definition
(spec/40_block_cipher_primitives.md rule R74, spec/46_aes_reference.md rules R142 and R143). -/

namespace Sys2Proof.Machine

/-! ## A left inverse on blocks is an inverse -/

/-- There are finitely many blocks of n bytes, so what undoes a function on them is undone by it. -/
theorem undo_of_undone (n : Nat) (f g : Bytes → Bytes) (hf : ∀ b, b.length = n → (f b).length = n)
    (hg : ∀ b, b.length = n → (g b).length = n) (hgf : ∀ b, b.length = n → g (f b) = b) (b : Bytes)
    (hb : b.length = n) : f (g b) = b := by
  have hleft : Function.LeftInverse (α := List.Vector Byte n) (β := List.Vector Byte n)
      (Subtype.map g hg) (Subtype.map f hf) := fun v => Subtype.ext (hgf v.1 v.2)
  exact congrArg Subtype.val (hleft.rightInverse_of_card_le le_rfl ⟨b, hb⟩)

/-- E undoes D under a legal key (rule R74). -/
theorem encryptBlock_decryptBlock (alg : Alg) (key b : Bytes) (h : keyOK alg key.length = true)
    (hb : b.length = blockSize alg) : encryptBlock alg key (decryptBlock alg key b) = b :=
  undo_of_undone (blockSize alg) (encryptBlock alg key) (decryptBlock alg key)
    (fun c _ => length_encryptBlock alg key c h) (fun c _ => length_decryptBlock alg key c h)
    (fun c hc => decryptBlock_encryptBlock alg key c h hc) b hb

/-! ## The AES S-box -/

/-- The S-box undoes the inverse S-box: there are finitely many bytes (rule R143). -/
theorem subByte_invSubByte (a : Byte) : subByte (invSubByte a) = a :=
  Function.LeftInverse.rightInverse_of_card_le invSubByte_subByte le_rfl a

/-- The affine map of rule R142. -/
def affineMap (x : Byte) : Byte :=
  x ^^^ x.rotateLeft 1 ^^^ x.rotateLeft 2 ^^^ x.rotateLeft 3 ^^^ x.rotateLeft 4 ^^^ 0x63

/-- The inverse of the affine map. -/
def affineInverse (y : Byte) : Byte := y.rotateLeft 1 ^^^ y.rotateLeft 3 ^^^ y.rotateLeft 6 ^^^ 0x05

theorem affineMap_affineInverse (y : Byte) : affineMap (affineInverse y) = y := by
  revert y
  decide +kernel

/-- What the printed S-box holds is, before the affine map, 0 for 0 and the inverse in GF(2^8) for every other byte. -/
theorem affineInverse_subByte (a : Byte) :
    (a = 0 → affineInverse (subByte a) = 0) ∧ (a ≠ 0 → gfMul (affineInverse (subByte a)).toNat a = 1) := by
  revert a
  decide +kernel

end Sys2Proof.Machine

/-! The obligations on the block functions and the S-box. -/

namespace Sys2Proof.BlockFunctionProofs

open Sys2Proof.Machine

/-- Settles O35: D undoes E round by round, and so E undoes D on the finitely many blocks. -/
theorem blockFunctionsAreInverse : Obligations.BlockFunctionsAreInverse := fun alg key b hkey hb =>
  ⟨length_encryptBlock alg key b hkey, length_decryptBlock alg key b hkey, decryptBlock_encryptBlock alg key b hkey hb,
    encryptBlock_decryptBlock alg key b hkey hb⟩

/-- Settles O38: the inverse is read off the printed S-box by undoing the affine map. -/
theorem aesSBoxIsInverseThenAffine : Obligations.AesSBoxIsInverseThenAffine := by
  refine ⟨fun a => ?_, fun a => ⟨invSubByte_subByte a, subByte_invSubByte a⟩⟩
  obtain ⟨hzero, hinverse⟩ := affineInverse_subByte a
  exact ⟨_, hzero, hinverse, (affineMap_affineInverse (subByte a)).symm⟩

end Sys2Proof.BlockFunctionProofs
end
